-- ==== Sys2Proof/Word.lean ====
section
/-! DEFINITION. The word types of the engine: 32-bit words of the port and the buffers, bytes, binary32 values and
the two channels. -/

namespace Sys2Proof

/-- A 32-bit word of the command port or of a buffer (20_memory.md R60, 30_encoding.md R80). -/
abbrev Word := BitVec 32

/-- A byte of a byte-addressed mapping (20_memory.md R63). -/
abbrev Byte := BitVec 8

/-- A value of the number system `NUM`, held as its binary32 bit pattern (00_scope.md R9). The constructor is
`f32(w)` of R15, the field is `bits(x)`. A structure of its own, so that no bit-vector arithmetic applies to it. -/
structure F32 where
  bits : BitVec 32
deriving DecidableEq, Repr, Inhabited

/-- The two channel datapaths: 0 is left, 1 is right (00_scope.md R5). -/
inductive Channel
  | left
  | right
deriving DecidableEq, Repr

/-- The number of a channel (00_scope.md R5). -/
def Channel.index : Channel → Nat
  | .left => 0
  | .right => 1

/-- Four like things, one per filter section (44_filter_bank.md R175). -/
structure Four (α : Type) where
  k0 : α
  k1 : α
  k2 : α
  k3 : α
deriving DecidableEq, Repr

end Sys2Proof
end

