-- ==== Sys2Proof/Syntax.lean ====
section
/-! DEFINITION. The instructions: one constructor per row of spec/opcode_table.json, three commands of the port
(30_encoding.md R82 to R84) and thirteen stages of the frame (R91). -/

namespace Sys2Proof

/-- The eighteen operand words of `SETPARAMS`, as they come from the port (30_encoding.md R83). -/
structure ParamWords where
  wowRate : Word
  wowDepth : Word
  flutRate : Word
  flutDepth : Word
  dropRate : Word
  dropDepth : Word
  dropDur : Word
  satAmt : Word
  noiseDb : Word
  humDb : Word
  mainsSel : Word
  lpCutoff : Word
  shelfDb : Word
  tiltDb : Word
  spread : Word
  mix : Word
  outDb : Word
  tstop : Word
deriving DecidableEq, Repr

/-- The instructions of the engine. A stage that runs per channel carries its channel (R91). -/
inductive Instr
  /-- `RESET fs, blockSize` (40_host_commands.md R101). -/
  | reset (sampleRate blockSize : Word)
  /-- `SETPARAMS v0 .. v17` (R104). -/
  | setparams (v : ParamWords)
  /-- `PROCESS frameCount, channelCount` (R105). -/
  | process (channelCount : BitVec 8) (frameCount : Word)
  /-- `FETCH`, the dry samples of a frame (R108). -/
  | fetch
  /-- `MOD`, the modulation engine (42_modulation.md R147). -/
  | mod
  /-- `HUM`, mains hum (47_noise_hum.md R231). -/
  | hum
  /-- `GENV`, the envelope gain (46_dropout.md R214). -/
  | genv
  /-- `DLYRD`, the interpolated delay read (43_delay_line.md R163). -/
  | dlyrd (c : Channel)
  /-- `FLT`, the filter bank (44_filter_bank.md R184). -/
  | flt (c : Channel)
  /-- `SAT`, the saturator (45_saturator.md R201). -/
  | sat (c : Channel)
  /-- `ENVSC`, the envelope scaling (46_dropout.md R214). -/
  | envsc (c : Channel)
  /-- `NOISE`, triangular noise (47_noise_hum.md R230). -/
  | noise (c : Channel)
  /-- `MIX`, the mixer (48_mixer.md R241). -/
  | mix (c : Channel)
  /-- `OUTWR`, the output write (40_host_commands.md R111). -/
  | outwr (c : Channel)
  /-- `DLYWR`, the delay write (43_delay_line.md R165). -/
  | dlywr (c : Channel)
  /-- `DROP`, one step of the dropout scheduler (46_dropout.md R212). -/
  | drop
deriving DecidableEq, Repr

end Sys2Proof
end

