-- ==== Sys2Proof/WellFormed.lean ====
section
/-! DEFINITION. Well-formed instructions: no operand is a reserved encoding (30_encoding.md R87). Channels, counts
and identifiers are in range by their types. -/

namespace Sys2Proof

/-- A `B` operand word with bits 31:1 zero (30_encoding.md R81, R85). -/
def boolWordOk (w : Word) : Bool := decide (w.toNat < 2)

/-- Word 11 of `SETPARAMS`, `MAINS_SEL`, is a boolean. -/
def ParamWords.mainsOk (v : ParamWords) : Bool := boolWordOk v.mainsSel

/-- Word 18 of `SETPARAMS`, `TSTOP`, is a boolean. -/
def ParamWords.tstopOk (v : ParamWords) : Bool := boolWordOk v.tstop

/-- An instruction no operand of which is reserved. -/
def Instr.wellFormed : Instr → Bool
  | .reset _ _ => true
  | .setparams v => v.mainsOk && v.tstopOk
  | .process _ _ => true
  | .fetch => true
  | .mod => true
  | .hum => true
  | .genv => true
  | .dlyrd _ => true
  | .flt _ => true
  | .sat _ => true
  | .envsc _ => true
  | .noise _ => true
  | .mix _ => true
  | .outwr _ => true
  | .dlywr _ => true
  | .drop => true

end Sys2Proof
end

