-- ==== Sys2Proof/Decode.lean ====
section
/-! DEFINITION. Decoding and encoding: the commands of the port (30_encoding.md R80 to R88) and the stage identifiers
of the frame (R91), written from the spec's tables. -/

namespace Sys2Proof

/-- The three commands of the port. -/
inductive CommandKind
  | reset
  | setparams
  | process
deriving DecidableEq, Repr

/-- One row of the opcode map (30_encoding.md R86). -/
structure OpcodeRow where
  kind : CommandKind
  pattern : Word
  mask : Word
  words : Nat
deriving DecidableEq, Repr

/-- The opcode map (30_encoding.md R86). -/
def opcodeMap : List OpcodeRow :=
  [ ⟨.reset, 0x01000000#32, 0xFFFFFFFF#32, 3⟩,
    ⟨.setparams, 0x02000000#32, 0xFFFFFFFF#32, 19⟩,
    ⟨.process, 0x03000000#32, 0xFFFFFF00#32, 2⟩ ]

/-- A word selects the row for which `(w AND mask) = match` (30_encoding.md R86). -/
def OpcodeRow.selects (r : OpcodeRow) (w : Word) : Bool := decide (w &&& r.mask = r.pattern)

/-- The row a command word selects; none for an illegal word (30_encoding.md R87). -/
def opcodeRow (w : Word) : Option OpcodeRow := opcodeMap.find? (fun r => r.selects w)

/-- `arg8` of a command word (30_encoding.md R81). -/
def arg8 (w : Word) : BitVec 8 := w.extractLsb' 0 8

/-- What a decoder finds at the head of the command stream. -/
inductive Decoded
  /-- A whole command, and the words after it. -/
  | command (i : Instr) (rest : List Word)
  /-- The stream is at its end, or ends inside a command: the engine waits (30_encoding.md R88). -/
  | waiting
  /-- An illegal command word, and the words after it, none of them consumed (30_encoding.md R87). -/
  | illegal (w : Word) (rest : List Word)
deriving DecidableEq, Repr

/-- The operand words of `SETPARAMS`, in the order of 30_encoding.md R83, and the words after them. -/
def takeParams : List Word → Option (ParamWords × List Word)
  | v0 :: v1 :: v2 :: v3 :: v4 :: v5 :: v6 :: v7 :: v8 :: v9 :: v10 :: v11 :: v12 :: v13 :: v14 :: v15 :: v16 :: v17
      :: rest =>
    some (⟨v0, v1, v2, v3, v4, v5, v6, v7, v8, v9, v10, v11, v12, v13, v14, v15, v16, v17⟩, rest)
  | _ => none

/-- The operand words of a command of kind `k` with command word `w` (30_encoding.md R82 to R84). -/
def decodeOperands (k : CommandKind) (w : Word) (ws : List Word) : Decoded :=
  match k with
  | .reset =>
    match ws with
    | fs :: block :: rest => .command (.reset fs block) rest
    | _ => .waiting
  | .setparams =>
    match takeParams ws with
    | some (v, rest) => .command (.setparams v) rest
    | none => .waiting
  | .process =>
    match ws with
    | frames :: rest => .command (.process (arg8 w) frames) rest
    | _ => .waiting

/-- The command at the head of the stream. The length depends on the command word alone (30_encoding.md R88). -/
def decodeCommand : List Word → Decoded
  | [] => .waiting
  | w :: ws =>
    match opcodeRow w with
    | some r => decodeOperands r.kind w ws
    | none => .illegal w ws

/-- The channel bit of a stage identifier (30_encoding.md R91). -/
def stageChannel (id : BitVec 5) : Channel := if id.getLsbD 4 then .right else .left

/-- The stage code of a stage identifier (30_encoding.md R91). -/
def stageCode (id : BitVec 5) : Nat := id.toNat % 16

/-- A stage that runs once per frame: its channel bit is 0 (30_encoding.md R91). -/
def oncePerFrame (id : BitVec 5) (i : Instr) : Option Instr := if id.getLsbD 4 then none else some i

/-- The stage an identifier names; none for an unused identifier (30_encoding.md R91). -/
def decodeStage (id : BitVec 5) : Option Instr :=
  match stageCode id with
  | 0x0 => oncePerFrame id .fetch
  | 0x1 => oncePerFrame id .mod
  | 0x2 => oncePerFrame id .hum
  | 0x3 => oncePerFrame id .genv
  | 0x4 => some (.dlyrd (stageChannel id))
  | 0x5 => some (.flt (stageChannel id))
  | 0x6 => some (.sat (stageChannel id))
  | 0x7 => some (.envsc (stageChannel id))
  | 0x8 => some (.noise (stageChannel id))
  | 0x9 => some (.mix (stageChannel id))
  | 0xA => some (.outwr (stageChannel id))
  | 0xB => some (.dlywr (stageChannel id))
  | 0xC => oncePerFrame id .drop
  | _ => none

/-- Word `j` of the instruction whose bits are `w`, counted from the first word's bit 0. -/
def tableWord (w j : Nat) : Word := BitVec.ofNat 32 (w / 2 ^ (32 * j))

/-- The words of the command whose bits are `w`, the bits above the table's being 0: as many as its command word
calls for (30_encoding.md R88), one for an illegal command word. -/
def tableStream (w : Nat) : List Word :=
  match opcodeRow (tableWord w 0) with
  | some r => (List.range r.words).map (tableWord w)
  | none => [tableWord w 0]

/-- The five bits of a stage row: the rows of format `SEQ` are five bits wide (30_encoding.md R91, log 18). -/
def tableStage (w : Nat) : BitVec 5 := BitVec.ofNat 5 w

/-- The instruction the decoder reads from a row of spec/opcode_table.json whose bits are `w`: a stage identifier for
a row of at most one byte, a command of the port for a longer one. -/
def decodeTableWord (nbits w : Nat) : Option Instr :=
  if nbits ≤ 8 then decodeStage (tableStage w)
  else
    match decodeCommand (tableStream w) with
    | .command i _ => some i
    | .waiting => none
    | .illegal _ _ => none

/-- The operand words of `SETPARAMS`, in the order of 30_encoding.md R83. -/
def ParamWords.toWords (v : ParamWords) : List Word :=
  [v.wowRate, v.wowDepth, v.flutRate, v.flutDepth, v.dropRate, v.dropDepth, v.dropDur, v.satAmt, v.noiseDb, v.humDb,
    v.mainsSel, v.lpCutoff, v.shelfDb, v.tiltDb, v.spread, v.mix, v.outDb, v.tstop]

/-- A command word from its fields (30_encoding.md R81). -/
def commandWord (op : BitVec 8) (arg : BitVec 8) : Word := op ++ 0#16 ++ arg

/-- A stage identifier from its fields (30_encoding.md R91). -/
def stageId (c : Channel) (code : BitVec 4) : BitVec 5 :=
  (match c with | .left => 0#1 | .right => 1#1) ++ code

/-- What an instruction is written as: the words of a command, or the identifier of a stage. -/
inductive Encoding
  | command (ws : List Word)
  | stage (id : BitVec 5)
deriving DecidableEq, Repr

/-- The encoding of an instruction (30_encoding.md R82 to R84, R91). -/
def encode : Instr → Encoding
  | .reset fs block => .command [commandWord 0x01#8 0#8, fs, block]
  | .setparams v => .command (commandWord 0x02#8 0#8 :: v.toWords)
  | .process channels frames => .command [commandWord 0x03#8 channels, frames]
  | .fetch => .stage (stageId .left 0x0#4)
  | .mod => .stage (stageId .left 0x1#4)
  | .hum => .stage (stageId .left 0x2#4)
  | .genv => .stage (stageId .left 0x3#4)
  | .dlyrd c => .stage (stageId c 0x4#4)
  | .flt c => .stage (stageId c 0x5#4)
  | .sat c => .stage (stageId c 0x6#4)
  | .envsc c => .stage (stageId c 0x7#4)
  | .noise c => .stage (stageId c 0x8#4)
  | .mix c => .stage (stageId c 0x9#4)
  | .outwr c => .stage (stageId c 0xA#4)
  | .dlywr c => .stage (stageId c 0xB#4)
  | .drop => .stage (stageId .left 0xC#4)

/-- The words a host puts on the port for an instruction; a stage cannot be issued there (30_encoding.md R91). -/
def portWords (i : Instr) : List Word :=
  match encode i with
  | .command ws => ws
  | .stage _ => []

/-- Decoding of an encoding standing alone. -/
def decode : Encoding → Option Instr
  | .command ws =>
    match decodeCommand ws with
    | .command i [] => some i
    | .command _ (_ :: _) => none
    | .waiting => none
    | .illegal _ _ => none
  | .stage id => decodeStage id

end Sys2Proof
end

