-- ==== Sys2Proof/Config.lean ====
section
/-! DEFINITION. The configuration record of 00_scope.md R8 at the values that rule takes, the named constants of R12,
and two of the free values (the third, the library functions, is in Config/Library.lean). -/

namespace Sys2Proof

/-- The bounds the latch clamps a parameter into (10_state.md R23). -/
structure Range where
  lo : F32
  hi : F32
deriving DecidableEq, Repr

/-- The configuration record `Cfg` (00_scope.md R8, 93_implementation_defined.md U21). -/
structure Cfg where
  /-- `BASE_MS`, the base delay in milliseconds. -/
  baseMs : F32
  /-- `DEPTH_MS`, the modulation depth in milliseconds. -/
  depthMs : F32
  /-- `D_MIN`, the least delay in samples. -/
  dMin : F32
  /-- `D_MAX` = `CAP - 2`, the greatest delay in samples. -/
  dMax : F32
  /-- `SPREAD_K`, the slope of the spread law. -/
  spreadK : F32
  /-- `MOD_SCALE`, the scale of wow plus flutter. -/
  modScale : F32
  /-- `JIT_STEP`, the jitter step. -/
  jitStep : F32
  /-- `JIT_MAX`, the jitter bound. -/
  jitMax : F32
  /-- `TSTOP_K`, the tape-stop decay constant. -/
  tstopK : F32
  /-- `TSTOP_RATE`, the growth of the ramp per second. -/
  tstopRate : F32
  /-- `Q_LP`, the quality factor of the low-pass. -/
  qLp : F32
  /-- `F_SHELF`, the centre of the model shelf in hertz. -/
  fShelf : F32
  /-- `F_TILT`, the pivot of the tilt in hertz. -/
  fTilt : F32
  /-- `F_LO`, the least cutoff in hertz. -/
  fLo : F32
  /-- `NYQ_K`, the greatest cutoff over the sample rate. -/
  nyqK : F32
  /-- `SAT_K`, the pre-emphasis and de-emphasis coefficient. -/
  satK : F32
  /-- `SAT_DRIVE`, the drive slope. -/
  satDrive : F32
  /-- `ENV_RELAX`, the recovery of the envelope per frame. -/
  envRelax : F32
  /-- `HUM_H2`, the weight of the second harmonic. -/
  humH2 : F32
  /-- `HUM_H3`, the weight of the third harmonic. -/
  humH3 : F32
  /-- `F_MAINS0`, hertz. -/
  fMains0 : F32
  /-- `F_MAINS1`, hertz. -/
  fMains1 : F32
  /-- `MUTE_DB`, the level at or below which noise and hum are exactly zero. -/
  muteDb : F32
  /-- `SEED`, the reset value of the random source. -/
  seed : Word
  /-- The clamp ranges of 10_state.md R23 with constant bounds; the cutoff's upper bound depends on `FS`. -/
  rate : Range
  /-- Depths, amounts, spread and mix. -/
  unit : Range
  /-- `DROP_RATE`, events per minute. -/
  dropRate : Range
  /-- `DROP_DUR`, milliseconds. -/
  dropDur : Range
  /-- `NOISE_DB` and `HUM_DB`. -/
  level : Range
  /-- `SHELF_DB`. -/
  shelfDb : Range
  /-- `TILT_DB`. -/
  tiltDb : Range
  /-- `OUT_DB`. -/
  outDb : Range
deriving DecidableEq, Repr

/-- The values 00_scope.md R8 and 10_state.md R23 take. DESIGN CHOICE (log 16): the model fixes the spec's defaults.
The bit patterns are the nearest binary32 values of the decimals beside them (Laws/Literals.lean checks them). -/
def Config.cfg : Cfg where
  baseMs := ⟨0x40A00000#32⟩       -- 5.0
  depthMs := ⟨0x40A00000#32⟩      -- 5.0
  dMin := ⟨0x3F800000#32⟩         -- 1.0
  dMax := ⟨0x457FE000#32⟩         -- 4094.0
  spreadK := ⟨0x3F000000#32⟩      -- 0.5
  modScale := ⟨0x3F000000#32⟩     -- 0.5
  jitStep := ⟨0x3C000000#32⟩      -- 0.0078125
  jitMax := ⟨0x3E000000#32⟩       -- 0.125
  tstopK := ⟨0x40A00000#32⟩       -- 5.0
  tstopRate := ⟨0x3F800000#32⟩    -- 1.0
  qLp := ⟨0x3F000000#32⟩          -- 0.5
  fShelf := ⟨0x45BB8000#32⟩       -- 6000.0
  fTilt := ⟨0x447A0000#32⟩        -- 1000.0
  fLo := ⟨0x447A0000#32⟩          -- 1000.0
  nyqK := ⟨0x3EE66666#32⟩         -- 0.45
  satK := ⟨0x3F000000#32⟩         -- 0.5
  satDrive := ⟨0x41100000#32⟩     -- 9.0
  envRelax := ⟨0x3A800000#32⟩     -- 2^-10
  humH2 := ⟨0x3E99999A#32⟩        -- 0.3
  humH3 := ⟨0x3E19999A#32⟩        -- 0.15
  fMains0 := ⟨0x42480000#32⟩      -- 50.0
  fMains1 := ⟨0x42700000#32⟩      -- 60.0
  muteDb := ⟨0xC2F00000#32⟩       -- -120.0
  seed := 0x12345678#32
  rate := ⟨⟨0#32⟩, ⟨0x42C80000#32⟩⟩              -- 0.0, 100.0
  unit := ⟨⟨0#32⟩, ⟨0x3F800000#32⟩⟩              -- 0.0, 1.0
  dropRate := ⟨⟨0#32⟩, ⟨0x45BB8000#32⟩⟩          -- 0.0, 6000.0
  dropDur := ⟨⟨0#32⟩, ⟨0x447A0000#32⟩⟩           -- 0.0, 1000.0
  level := ⟨⟨0xC2F00000#32⟩, ⟨0#32⟩⟩             -- -120.0, 0.0
  shelfDb := ⟨⟨0xC1C00000#32⟩, ⟨0x41C00000#32⟩⟩  -- -24.0, 24.0
  tiltDb := ⟨⟨0xC1400000#32⟩, ⟨0x41400000#32⟩⟩   -- -12.0, 12.0
  outDb := ⟨⟨0xC2F00000#32⟩, ⟨0x41C00000#32⟩⟩    -- -120.0, 24.0

/-- The operations of 00_scope.md R10 that can answer a NaN. -/
inductive FOp
  | add
  | sub
  | mul
  | div
  | sqrt
  | floor
deriving DecidableEq, Repr

/-- FREE VALUE (log 11). Which NaN an operation answers: R9 has NaN 'as IEEE 754 defines them', which fixes neither
sign nor payload. A function of the operation and its operands, so that the engine stays deterministic (R6). -/
opaque Config.nanResult : FOp → F32 → F32 → F32

/-- FREE VALUE (log 14). `f2i` of a NaN: 00_scope.md R10 defines `f2i` for a non-NaN argument only. -/
opaque Config.f2iNaN : F32 → Int

namespace F32

/-- `+0.0`. -/
def zero : F32 := ⟨0#32⟩
/-- `0.5`. -/
def half : F32 := ⟨0x3F000000#32⟩
/-- `1.0`. -/
def one : F32 := ⟨0x3F800000#32⟩
/-- `2.0`. -/
def two : F32 := ⟨0x40000000#32⟩
/-- `-2.0`. -/
def minusTwo : F32 := ⟨0xC0000000#32⟩
/-- `3.0`. -/
def three : F32 := ⟨0x40400000#32⟩
/-- `20.0`. -/
def twenty : F32 := ⟨0x41A00000#32⟩
/-- `40.0`. -/
def forty : F32 := ⟨0x42200000#32⟩
/-- `60.0`. -/
def sixty : F32 := ⟨0x42700000#32⟩
/-- `1000.0`. -/
def thousand : F32 := ⟨0x447A0000#32⟩
/-- `2^-23`. -/
def twoPowMinus23 : F32 := ⟨0x34000000#32⟩
/-- `+inf`. -/
def inf : F32 := ⟨0x7F800000#32⟩
/-- `TWO_PI` (00_scope.md R12). -/
def twoPi : F32 := ⟨0x40C90FDB#32⟩
/-- `SQRT2` (00_scope.md R12). -/
def sqrt2 : F32 := ⟨0x3FB504F3#32⟩

end F32

end Sys2Proof
end

