-- ==== Sys2Proof/Machine/Float.lean ====
section
/-! DEFINITION. The number system `NUM` = IEEE 754 binary32 (00_scope.md R9, R10): every finite value is a whole
number of units of 2^-149, the operations are exact on units and rounded once, to nearest, ties to even. The format
and its special values are IEEE 754's (PRESUMED, log 12). -/

namespace Sys2Proof
namespace F32

/-- The sign bit. -/
def sign (x : F32) : Bool := x.bits.msb

/-- The thirty-one bits below the sign, as a number: they order the magnitudes. -/
def mag (x : F32) : Nat := x.bits.toNat % 2 ^ 31

/-- The magnitude bits of an infinity. -/
def infMag : Nat := 0x7F800000

def isNaN (x : F32) : Bool := decide (infMag < x.mag)

def isInf (x : F32) : Bool := decide (x.mag = infMag)

def isFinite (x : F32) : Bool := decide (x.mag < infMag)

def isZero (x : F32) : Bool := decide (x.mag = 0)

/-- The value with the sign and the magnitude bits given. -/
def pack (s : Bool) (m : Nat) : F32 := ⟨BitVec.ofNat 32 (if s then 2 ^ 31 + m else m)⟩

/-- What magnitude bits stand for, in units of 2^-149: a subnormal number, or twenty-four significant bits. -/
def unitsOf (m : Nat) : Nat :=
  if m < 2 ^ 23 then m else (2 ^ 23 + m % 2 ^ 23) * 2 ^ (m / 2 ^ 23 - 1)

/-- The magnitude of a finite value, in units of 2^-149. -/
def units (x : F32) : Nat := unitsOf x.mag

/-- A finite value in units of 2^-149, with its sign. -/
def toInt (x : F32) : Int := if x.sign then -(x.units : Int) else x.units

/-- `n / d` rounded to the nearest whole number, ties to even. -/
def roundNearest (n d : Nat) : Nat :=
  if 2 * (n % d) < d then n / d
  else if d < 2 * (n % d) then n / d + 1
  else n / d + n / d % 2

/-- The magnitude bits of `n / d` units: twenty-four significant bits, spacing never below one unit, overflow to
infinity (R9: round to nearest even, subnormals kept). -/
def roundMag (n d : Nat) : Nat :=
  let e := Nat.log2 (n / d) - 23
  min infMag (e * 2 ^ 23 + roundNearest n (d * 2 ^ e))

/-- The value nearest to `n / d` units, with the sign given. Irreducible, so that no proof computes a rounding by
accident; the kernel evaluates it (`decide +kernel`). -/
@[irreducible]
def round (s : Bool) (n d : Nat) : F32 := pack s (roundMag n d)

/-- The NaN an operation answers: any NaN, left free (log 11). -/
def nan (op : FOp) (a b : F32) : F32 :=
  let v := Config.nanResult op a b
  if v.isNaN then v else ⟨0x7FC00000#32⟩

/-- `-a`: the sign bit changes (R10). -/
def neg (a : F32) : F32 := ⟨a.bits ^^^ 0x80000000#32⟩

/-- The sum of two finite values, one rounding; an exact zero is `+0.0` unless both operands carry a minus sign. -/
def addFinite (a b : F32) : F32 :=
  let v := a.toInt + b.toInt
  if v = 0 then pack (a.sign && b.sign) 0 else round (decide (v < 0)) v.natAbs 1

/-- The sum where `bad` is the NaN to answer. -/
def addWith (bad a b : F32) : F32 :=
  if a.isNaN || b.isNaN then bad
  else if a.isInf then (if b.isInf && a.sign != b.sign then bad else a)
  else if b.isInf then b
  else addFinite a b

/-- `a + b` (R10). -/
def add (a b : F32) : F32 := addWith (nan .add a b) a b

/-- `a - b` (R10). -/
def sub (a b : F32) : F32 := addWith (nan .sub a b) a b.neg

/-- `a × b` (R10). -/
def mul (a b : F32) : F32 :=
  let s := a.sign != b.sign
  if a.isNaN || b.isNaN then nan .mul a b
  else if a.isInf || b.isInf then (if a.isZero || b.isZero then nan .mul a b else pack s infMag)
  else round s (a.units * b.units) (2 ^ 149)

/-- `a / b` (R10). -/
def div (a b : F32) : F32 :=
  let s := a.sign != b.sign
  if a.isNaN || b.isNaN then nan .div a b
  else if a.isInf then (if b.isInf then nan .div a b else pack s infMag)
  else if b.isInf then pack s 0
  else if b.isZero then (if a.isZero then nan .div a b else pack s infMag)
  else round s (a.units * 2 ^ 149) b.units

/-- The greatest `r' < 2^k` above `r` bit by bit with `r' * r' <= n`: the integer square root. -/
def isqrtFrom : Nat → Nat → Nat → Nat
  | 0, _, r => r
  | k + 1, n, r => isqrtFrom k n (if (r + 2 ^ k) * (r + 2 ^ k) ≤ n then r + 2 ^ k else r)

/-- The integer square root of a number below 2^428. -/
def isqrt (n : Nat) : Nat := isqrtFrom 214 n 0

/-- `sqrt(a)` (R10). The root is taken to at least 75 bits; a remainder is carried as a half below the last bit. -/
def sqrt (a : F32) : F32 :=
  if a.isNaN then nan .sqrt a a
  else if a.isZero then a
  else if a.sign then nan .sqrt a a
  else if a.isInf then a
  else
    let n := a.units * 2 ^ 149
    let r := isqrt n
    round false (2 * r + if r * r < n then 1 else 0) 2

/-- The place of a non-NaN value in the order of the extended reals; both zeros have the place 0. -/
def key (x : F32) : Int := if x.sign then -(x.mag : Int) else x.mag

/-- `a < b` (R10: false for a NaN). -/
def lt (a b : F32) : Bool := !a.isNaN && !b.isNaN && decide (a.key < b.key)

/-- `a <= b` (R10). -/
def le (a b : F32) : Bool := !a.isNaN && !b.isNaN && decide (a.key ≤ b.key)

/-- `a > b` (R10). -/
def gt (a b : F32) : Bool := b.lt a

/-- `a >= b` (R10). -/
def ge (a b : F32) : Bool := b.le a

/-- `a == b` (R10: `-0 == +0`, false for a NaN). -/
def eq (a b : F32) : Bool := !a.isNaN && !b.isNaN && decide (a.key = b.key)

/-- `min(a, b)` (R10). -/
def min (a b : F32) : F32 := if a.lt b then a else b

/-- `max(a, b)` (R10). -/
def max (a b : F32) : F32 := if a.gt b then a else b

/-- The greatest whole number not above a finite value. -/
def floorInt (a : F32) : Int := a.toInt / 2 ^ 149

/-- `floor(a)` (R10), exact; an infinity and a zero are their own floor. -/
def floor (a : F32) : F32 :=
  if a.isNaN then nan .floor a a
  else if a.isInf then a
  else round a.sign (a.floorInt.natAbs * 2 ^ 149) 1

/-- `i2f(k)` (R10). -/
def ofInt (k : Int) : F32 := round (decide (k < 0)) (k.natAbs * 2 ^ 149) 1

/-- An integer forced into a range. -/
def saturate (lo hi k : Int) : Int := Max.max lo (Min.min hi k)

/-- `f2i(a)` into a register holding `lo .. hi` (R10). A NaN is a free value (log 14). -/
def f2i (lo hi : Int) (a : F32) : Int :=
  if a.isNaN then saturate lo hi (Config.f2iNaN a)
  else if a.isInf then (if a.sign then lo else hi)
  else saturate lo hi a.floorInt

/-- `clamp(x, lo, hi)` (00_scope.md R13): lower bound first, upper bound wins, a NaN becomes the lower bound. -/
def clamp (x lo hi : F32) : F32 :=
  let y := if !x.ge lo then lo else x
  if y.gt hi then hi else y

/-- `wrap(x)` (00_scope.md R13). -/
def wrap (x : F32) : F32 := x.sub x.floor

/-- The decimal literal `p / q`: the nearest binary32 value (R9). -/
def literal (p q : Nat) : F32 := round false (p * 2 ^ 149) q

end F32
end Sys2Proof
end

