-- ==== Sys2Proof/Config/Library.lean ====
section
/-! DEFINITION. The library functions of 00_scope.md R11: configuration fields of which only the named properties may
be assumed (93_implementation_defined.md U11). -/

namespace Sys2Proof

/-- An instance of the library functions with the properties 00_scope.md R11 names, and no others. -/
structure Library where
  sin : F32 → F32
  cos : F32 → F32
  exp : F32 → F32
  ln : F32 → F32
  tanh : F32 → F32
  pow10 : F32 → F32
  /-- `SIN0`. -/
  sin_zero : sin F32.zero = F32.zero
  /-- `SINB`. -/
  sin_bound : ∀ a, a.isFinite = true → F32.one.neg.le (sin a) = true ∧ (sin a).le F32.one = true
  /-- `SINB`. -/
  cos_bound : ∀ a, a.isFinite = true → F32.one.neg.le (cos a) = true ∧ (cos a).le F32.one = true
  /-- `COS0`. -/
  cos_zero : cos F32.zero = F32.one
  /-- `EXP0`. -/
  exp_zero : exp F32.zero = F32.one ∧ exp F32.zero.neg = F32.one
  /-- `EXPP`. -/
  exp_nonneg : ∀ a, a.isFinite = true → F32.zero.le (exp a) = true
  /-- `EXPP`; the bound is -87. -/
  exp_pos : ∀ a, a.isFinite = true → a.ge ⟨0xC2AE0000#32⟩ = true → (exp a).gt F32.zero = true
  /-- `EXPM`. -/
  exp_mono : ∀ a b, a.le b = true → (exp a).le (exp b) = true
  /-- `EXPM`. -/
  exp_le_one : ∀ a, a.lt F32.zero = true → (exp a).le F32.one = true
  /-- `LN1`. -/
  ln_one : ln F32.one = F32.zero
  /-- `LNN`. -/
  ln_nonpos : ∀ a, a.gt F32.zero = true → a.le F32.one = true →
    (ln a).isFinite = true ∧ (ln a).le F32.zero = true
  /-- `TANH0`. -/
  tanh_zero : tanh F32.zero = F32.zero ∧ tanh F32.zero.neg = F32.zero.neg
  /-- `TANHB`. -/
  tanh_bound : ∀ a, a.isNaN = false → F32.one.neg.le (tanh a) = true ∧ (tanh a).le F32.one = true
  /-- `TANHB`. -/
  tanh_neg : ∀ a, a.isNaN = false → tanh a.neg = (tanh a).neg
  /-- `TANHB`. -/
  tanh_mono : ∀ a b, a.le b = true → (tanh a).le (tanh b) = true
  /-- `POW0`. -/
  pow10_zero : pow10 F32.zero = F32.one ∧ pow10 F32.zero.neg = F32.one
  /-- `POWP`; the bounds are -37 and 38. -/
  pow10_pos : ∀ a, a.isFinite = true → a.ge ⟨0xC2140000#32⟩ = true → a.le ⟨0x42180000#32⟩ = true →
    (pow10 a).isFinite = true ∧ (pow10 a).gt F32.zero = true
  /-- `NANP`. -/
  nan_nan : ∀ a, a.isNaN = true → (sin a).isNaN = true ∧ (cos a).isNaN = true ∧ (exp a).isNaN = true ∧
    (ln a).isNaN = true ∧ (tanh a).isNaN = true ∧ (pow10 a).isNaN = true

/-- A finite value is no NaN. -/
theorem F32.isNaN_of_isFinite (a : F32) (h : a.isFinite = true) : a.isNaN = false := by
  simp only [F32.isFinite, F32.isNaN, decide_eq_true_eq, decide_eq_false_iff_not] at *
  omega

/-- Changing the sign leaves the magnitude. -/
@[simp] theorem F32.mag_neg (a : F32) : a.neg.mag = a.mag := by
  have := congrArg BitVec.toNat
    (show (a.bits ^^^ 0x80000000#32).setWidth 31 = a.bits.setWidth 31 by ext i hi; simp)
  simp only [BitVec.toNat_setWidth] at this
  exact this

/-- Changing the sign changes the sign. -/
@[simp] theorem F32.sign_neg (a : F32) : a.neg.sign = !a.sign := by
  have : (0x80000000#32).msb = true := by decide
  rw [F32.sign, F32.neg, BitVec.msb_xor, this, Bool.xor_true, F32.sign]

/-- A constant function that answers a NaN its NaN. -/
def Library.constant (v a : F32) : F32 := if a.isNaN then a else v

/-- What the constant function answers. -/
theorem Library.constant_eq (v a : F32) (h : a.isNaN = false) : Library.constant v a = v := by
  simp [Library.constant, h]

/-- The properties of R11 can be met together. Its functions are used for nothing but this; `Config.library` is some
instance, and no proof can see which. -/
def Library.witness : Library where
  sin := Library.constant F32.zero
  cos := Library.constant F32.one
  exp := Library.constant F32.one
  ln := Library.constant F32.zero
  tanh a := Library.constant (F32.pack a.sign 0) a
  pow10 := Library.constant F32.one
  sin_zero := by decide
  sin_bound a h := by rw [constant_eq _ _ (a.isNaN_of_isFinite h)]; decide
  cos_bound a h := by rw [constant_eq _ _ (a.isNaN_of_isFinite h)]; decide
  cos_zero := by decide
  exp_zero := by decide
  exp_nonneg a h := by rw [constant_eq _ _ (a.isNaN_of_isFinite h)]; decide
  exp_pos a h _ := by rw [constant_eq _ _ (a.isNaN_of_isFinite h)]; decide
  exp_mono a b h := by
    simp only [F32.le, Bool.and_eq_true, Bool.not_eq_true'] at h
    rw [constant_eq _ _ h.1.1, constant_eq _ _ h.1.2]; decide
  exp_le_one a h := by
    simp only [F32.lt, Bool.and_eq_true, Bool.not_eq_true'] at h
    rw [constant_eq _ _ h.1.1]; decide
  ln_one := by decide
  ln_nonpos a h _ := by
    simp only [F32.gt, F32.lt, Bool.and_eq_true, Bool.not_eq_true'] at h
    rw [constant_eq _ _ h.1.2]; decide
  tanh_zero := by decide
  tanh_bound a h := by
    simp only [constant_eq _ _ h]; cases a.sign <;> decide
  tanh_neg a h := by
    have h1 : a.neg.isNaN = false := by simpa [F32.isNaN] using h
    simp only [constant_eq _ _ h, constant_eq _ _ h1, F32.sign_neg]; cases a.sign <;> decide
  tanh_mono a b h := by
    have hk := h
    simp only [F32.le, Bool.and_eq_true, Bool.not_eq_true'] at hk
    simp only [constant_eq _ _ hk.1.1, constant_eq _ _ hk.1.2]; cases a.sign <;> cases b.sign <;> decide
  pow10_zero := by decide
  pow10_pos a h _ _ := by rw [constant_eq _ _ (a.isNaN_of_isFinite h)]; decide
  nan_nan a h := by simp [constant, h]

/-- FREE VALUE (log 13): an instance of the library functions, given that there is one. No body: only the properties
of R11 hold of it. -/
opaque Config.someLibrary [Inhabited Library] : Library

/-- FREE VALUE (log 13): the library functions of this engine. -/
def Config.library : Library := @Config.someLibrary ⟨Library.witness⟩

end Sys2Proof
end

