-- ==== Sys2Proof/Machine/State.lean ====
section
/-! DEFINITION. The state of the engine as plain data (10_state.md), the reasons a step can stop (60_exceptions.md
R252), and the state at power-on (70_reset_and_hazards.md R280). -/

namespace Sys2Proof.Machine

/-- A memory space: (byte address, byte) pairs in canonical form, addresses strictly rising and no byte equal to what
an unlisted address reads as (Ops.lean says both). -/
abbrev Mem := List Host.Cell

/-- A parameter file: sixteen `NUM` registers and two booleans (10_state.md R21, R23). -/
structure Params where
  wowRate : F32
  wowDepth : F32
  flutRate : F32
  flutDepth : F32
  dropRate : F32
  dropDepth : F32
  dropDur : F32
  satAmt : F32
  noiseDb : F32
  humDb : F32
  mainsSel : Bool
  lpCutoff : F32
  shelfDb : F32
  tiltDb : F32
  spread : F32
  mix : F32
  outDb : F32
  tstop : Bool
deriving DecidableEq, Repr

/-- The coefficients of one filter section (10_state.md R26). -/
structure Coef where
  b0 : F32
  b1 : F32
  b2 : F32
  a1 : F32
  a2 : F32
deriving DecidableEq, Repr

/-- The derived registers (10_state.md R26). -/
structure Derived where
  noiseAmp : F32
  humAmp : F32
  outGain : F32
  lambda : F32
  dur : BitVec 32
  half : F32
  drive : F32
  scale0 : F32
  scale1 : F32
  coef : Four Coef
deriving DecidableEq, Repr

/-- The two delay registers of a filter section (10_state.md R28). -/
structure Section where
  z0 : F32
  z1 : F32
deriving DecidableEq, Repr

/-- The state of one channel (10_state.md R28). -/
structure ChannelState where
  /-- `DLY[c]`, 4096 words. -/
  dly : Mem
  /-- `W[c]`, the write cursor; its width makes its arithmetic modulo `CAP` = 2^12 (00_scope.md R14). -/
  w : BitVec 12
  /-- `Z[c][0..3]`. -/
  z : Four Section
  /-- `XP[c]`. -/
  xp : F32
  /-- `YP[c]`. -/
  yp : F32
deriving DecidableEq, Repr

/-- The modulation state (10_state.md R29). -/
structure Modulation where
  phw : F32
  phf : F32
  jit : F32
  ph50 : F32
  ph60 : F32
  ramp : F32
deriving DecidableEq, Repr

/-- `DMODE` (10_state.md R30): its codes are 0, 1, 2, and 3 is never written (log 19). -/
inductive DropMode
  | waiting
  | dippingDown
  | dippingUp
deriving DecidableEq, Repr

/-- The dropout state (10_state.md R30). -/
structure Dropout where
  /-- `DMODE`. -/
  mode : DropMode
  /-- `DCNT`, signed two's complement. -/
  count : BitVec 48
  /-- `DPH`. -/
  phase : BitVec 32
  /-- `ENV`. -/
  env : F32
deriving DecidableEq, Repr

/-- The wires of a frame (00_scope.md R15, 10_state.md R34). They are not architectural; the model steps stage by
stage and holds them between the stages of a frame (log 4). -/
structure Wires where
  dry0 : F32
  dry1 : F32
  m : F32
  hum : F32
  genv : F32
  x : F32
  nz : F32
  o : F32
deriving DecidableEq, Repr

/-- The PROCESS in progress (10_state.md R27, 40_host_commands.md R105): the stage that runs next, none at a command
boundary, the frame index and the operands. -/
structure FrameCtx where
  stage : Option (BitVec 5)
  n : Word
  frameCount : Word
  channelCount : BitVec 8
  wires : Wires
deriving DecidableEq, Repr

/-- The state of the engine (10_state.md R20) with the host's side of its interface. -/
structure State where
  /-- `READY` (R24). -/
  ready : Bool
  /-- `PVALID` (R24). -/
  pvalid : Bool
  /-- `FS` (R25). -/
  fs : F32
  /-- `BLKSZ` (R25); no rule reads it. -/
  blksz : Word
  /-- `P[0..17]` (R21). -/
  staged : Params
  /-- `A[0..17]` (R22). -/
  active : Params
  derived : Derived
  /-- Channel 0. -/
  left : ChannelState
  /-- Channel 1. -/
  right : ChannelState
  modu : Modulation
  drop : Dropout
  /-- `RNG` (R31). -/
  rng : Word
  /-- The buffer space `IN` (R32). -/
  inBuf : Mem
  /-- The buffer space `OUT` (R32). -/
  outBuf : Mem
  frame : FrameCtx
  /-- The reset input (70_reset_and_hazards.md R280), asserted by the host (log 9). -/
  resetPin : Bool
  /-- The words on the command port, oldest first (30_encoding.md R80, log 6). -/
  port : List Word
  /-- What the host stores in `IN` before each coming PROCESS, oldest first (10_state.md R34, log 6). -/
  feeds : List Mem
  /-- The index of the next command in the stream (60_exceptions.md R253, log 8). -/
  cmdIndex : Nat
deriving DecidableEq, Repr

/-- What a model fault records (60_exceptions.md R253): the index of the faulting command in the stream, and the state
the fault leaves, which is not a final state (R252). -/
structure FaultReport where
  index : Nat
  left : State
deriving DecidableEq, Repr

/-- The model faults (60_exceptions.md R252). Each ends the run; all five are the spec's own, so all are safe: a
run that reaches one proves nothing about the hardware. -/
inductive Fault
  /-- Raised by `PROCESS` when `READY = 0`. Safe. -/
  | notReady (r : FaultReport)
  /-- Raised by `RESET` when the sample rate is a NaN, an infinity, a zero or negative. Safe. -/
  | badFs (r : FaultReport)
  /-- Raised by `PROCESS` when `PVALID = 0`. Safe. -/
  | noParams (r : FaultReport)
  /-- Raised by command decode when the command word matches no row. Safe. -/
  | illegalCmd (r : FaultReport)
  /-- Raised by `SETPARAMS` when a `B` operand word has a bit of 31:1 set. Safe. -/
  | reservedOperand (r : FaultReport)
deriving DecidableEq, Repr

/-- The reasons the model gives no meaning. -/
inductive Refusal
  /-- Raised by `exec` for an instruction without a meaning. Safe. No arm raises it. -/
  | notModelled (mnemonic : String)
  /-- Raised by `step` when the stage position holds an identifier that names no stage (30_encoding.md R91), which no
  rule ever writes there (log 17). Safe. -/
  | unusedStage (id : BitVec 5)
deriving DecidableEq, Repr

/-- The outcome of a step. -/
abbrev Result := Host.Outcome State Fault Refusal

/-- A parameter file before anything is written to it. DESIGN CHOICE (log 1): the spec gives no value. -/
def Params.initial : Params where
  wowRate := F32.zero
  wowDepth := F32.zero
  flutRate := F32.zero
  flutDepth := F32.zero
  dropRate := F32.zero
  dropDepth := F32.zero
  dropDur := F32.zero
  satAmt := F32.zero
  noiseDb := F32.zero
  humDb := F32.zero
  mainsSel := false
  lpCutoff := F32.zero
  shelfDb := F32.zero
  tiltDb := F32.zero
  spread := F32.zero
  mix := F32.zero
  outDb := F32.zero
  tstop := false

/-- A coefficient set before the first latch. DESIGN CHOICE (log 1). -/
def Coef.initial : Coef := ⟨F32.zero, F32.zero, F32.zero, F32.zero, F32.zero⟩

/-- The derived registers before the first latch. DESIGN CHOICE (log 1). -/
def Derived.initial : Derived where
  noiseAmp := F32.zero
  humAmp := F32.zero
  outGain := F32.zero
  lambda := F32.zero
  dur := 0
  half := F32.zero
  drive := F32.zero
  scale0 := F32.zero
  scale1 := F32.zero
  coef := ⟨Coef.initial, Coef.initial, Coef.initial, Coef.initial⟩

/-- A filter section at rest. -/
def Section.rest : Section := ⟨F32.zero, F32.zero⟩

/-- A channel with every word and register zero: after `RESET` (40_host_commands.md R101), and, as a DESIGN CHOICE
(log 1, log 2), at power-on. -/
def ChannelState.cleared : ChannelState where
  dly := []
  w := 0
  z := ⟨Section.rest, Section.rest, Section.rest, Section.rest⟩
  xp := F32.zero
  yp := F32.zero

/-- The modulation state with every register `+0.0`: after `RESET` (R101), and, as a DESIGN CHOICE (log 1), at
power-on. -/
def Modulation.cleared : Modulation := ⟨F32.zero, F32.zero, F32.zero, F32.zero, F32.zero, F32.zero⟩

/-- The dropout state at power-on. DESIGN CHOICE (log 1). -/
def Dropout.initial : Dropout := ⟨.waiting, 0, 0, F32.zero⟩

/-- No wire is driven. DESIGN CHOICE (log 4). -/
def Wires.idle : Wires :=
  ⟨F32.zero, F32.zero, F32.zero, F32.zero, F32.zero, F32.zero, F32.zero, F32.zero⟩

/-- No PROCESS is in progress: the frame index and the operands are not kept between commands (10_state.md R27,
log 5). -/
def FrameCtx.idle : FrameCtx := ⟨none, 0, 0, 0, Wires.idle⟩

/-- The machine right after the hardware reset (70_reset_and_hazards.md R280): `READY` = 0, `PVALID` = 0, no command in
progress, the port at a command boundary and nothing on it. Every register the spec leaves without a value is zero
(DESIGN CHOICE, log 1 and log 2). -/
def State.reset : State where
  ready := false
  pvalid := false
  fs := F32.zero
  blksz := 0
  staged := Params.initial
  active := Params.initial
  derived := Derived.initial
  left := ChannelState.cleared
  right := ChannelState.cleared
  modu := Modulation.cleared
  drop := Dropout.initial
  rng := 0
  inBuf := []
  outBuf := []
  frame := FrameCtx.idle
  resetPin := false
  port := []
  feeds := []
  cmdIndex := 0

end Sys2Proof.Machine
end

