-- ==== Sys2Proof/Machine/Ops.lean ====
section
/-! DEFINITION. The named operations over memory, registers, the frame sequence and the host's interface, and raising
a model fault. -/

namespace Sys2Proof.Machine

/-! ### Memory (20_memory.md) -/

/-- What an unlisted byte reads as. The delay RAM holds `+0.0` after `RESET` (R61); what it, `IN` and `OUT` hold before
is a DESIGN CHOICE (log 2). -/
def Mem.unlisted : Byte := 0

/-- The canonical form: addresses strictly rising, no byte equal to what an unlisted address reads as. -/
def Mem.wf (m : Mem) : Bool :=
  decide (m.Pairwise (fun a b => a.1 < b.1)) && m.all (fun e => decide (e.2 ≠ Mem.unlisted))

/-- The byte at an address. -/
def Mem.readByte : Mem → Nat → Byte
  | [], _ => Mem.unlisted
  | (k, b) :: t, a => if k = a then b else Mem.readByte t a

/-- Put `(a, v)` in front of a memory whose addresses are above `a`, unless it is what `a` reads as anyway. -/
def Mem.cons (a : Nat) (v : Byte) (t : Mem) : Mem := if v = Mem.unlisted then t else (a, v) :: t

/-- Store a byte, keeping the canonical form. -/
def Mem.writeByte : Mem → Nat → Byte → Mem
  | [], a, v => Mem.cons a v []
  | (k, b) :: t, a, v =>
    if a < k then Mem.cons a v ((k, b) :: t)
    else if a = k then Mem.cons a v t
    else (k, b) :: Mem.writeByte t a v

/-- The word at a word index: little-endian, its lowest byte at the lowest address (20_memory.md R63, R64). -/
def Mem.readWord (m : Mem) (k : Nat) : Word :=
  m.readByte (4 * k + 3) ++ m.readByte (4 * k + 2) ++ m.readByte (4 * k + 1) ++ m.readByte (4 * k)

/-- Store a word at a word index. -/
def Mem.writeWord (m : Mem) (k : Nat) (v : Word) : Mem :=
  (((m.writeByte (4 * k) (v.extractLsb' 0 8)).writeByte (4 * k + 1) (v.extractLsb' 8 8)).writeByte
    (4 * k + 2) (v.extractLsb' 16 8)).writeByte (4 * k + 3) (v.extractLsb' 24 8)

/-- The word index of sample `k` of channel `c` in a host buffer (20_memory.md R62: planar). Where the pair lies on a
bus is the open parameter `BUFMAP`; this is the model's own index (log 3). -/
def bufferIndex (c : Nat) (k : Word) : Nat := c * 2 ^ 32 + k.toNat

/-- `MemRead(space, c, k)` (00_scope.md R15). -/
def memRead (space : Mem) (c : Nat) (k : Word) : F32 := ⟨space.readWord (bufferIndex c k)⟩

/-- `MemWrite(space, c, k, v)` (00_scope.md R15). -/
def memWrite (space : Mem) (c : Nat) (k : Word) (v : F32) : Mem := space.writeWord (bufferIndex c k) v.bits

/-- `DLY[c][a]` (00_scope.md R15); an address is twelve bits, so none falls outside the RAM (20_memory.md R61). -/
def dlyRead (ch : ChannelState) (a : BitVec 12) : F32 := ⟨ch.dly.readWord a.toNat⟩

/-- `DLY[c][a] <- v`. -/
def dlyWrite (ch : ChannelState) (a : BitVec 12) (v : F32) : ChannelState :=
  { ch with dly := ch.dly.writeWord a.toNat v.bits }

/-! ### Registers -/

/-- The state of channel `c` (10_state.md R28). -/
def State.channel (s : State) : Channel → ChannelState
  | .left => s.left
  | .right => s.right

/-- Replace the state of channel `c`. -/
def State.setChannel (s : State) (c : Channel) (v : ChannelState) : State :=
  match c with
  | .left => { s with left := v }
  | .right => { s with right := v }

/-- Replace the modulation state. -/
def State.setModu (s : State) (v : Modulation) : State := { s with modu := v }

/-- Replace the dropout state. -/
def State.setDrop (s : State) (v : Dropout) : State := { s with drop := v }

/-- Replace the random source's word. -/
def State.setRng (s : State) (v : Word) : State := { s with rng := v }

/-- Replace the contents of `OUT`. -/
def State.setOut (s : State) (v : Mem) : State := { s with outBuf := v }

/-- Replace the context of the frame. -/
def State.setFrame (s : State) (v : FrameCtx) : State := { s with frame := v }

/-- Replace the wires of the frame. -/
def State.setWires (s : State) (v : Wires) : State := { s with frame := { s.frame with wires := v } }

/-- Replace the active and the derived registers, which the latch alone writes (10_state.md R22, R26). -/
def State.setLatched (s : State) (a : Params) (g : Derived) : State := { s with active := a, derived := g }

/-- `SCALE[c]` (10_state.md R26). -/
def Derived.scale (g : Derived) : Channel → F32
  | .left => g.scale0
  | .right => g.scale1

/-- `dry[c]` (00_scope.md R15). -/
def Wires.dry (w : Wires) : Channel → F32
  | .left => w.dry0
  | .right => w.dry1

/-- The code of `DMODE` (10_state.md R30). -/
def DropMode.code : DropMode → BitVec 2
  | .waiting => 0
  | .dippingDown => 1
  | .dippingUp => 2

/-! ### The frame sequence (40_host_commands.md R110) -/

/-- The identifiers of the stages of a frame in the order they run (40_host_commands.md R110, 30_encoding.md R91):
`FETCH`, `MOD`, `HUM`, `GENV`, channel 0 from `DLYRD` to `DLYWR`, channel 1 the same, `DROP`. -/
def frameSequence : List (BitVec 5) :=
  [0x00#5, 0x01#5, 0x02#5, 0x03#5,
   0x04#5, 0x05#5, 0x06#5, 0x07#5, 0x08#5, 0x09#5, 0x0A#5, 0x0B#5,
   0x14#5, 0x15#5, 0x16#5, 0x17#5, 0x18#5, 0x19#5, 0x1A#5, 0x1B#5,
   0x0C#5]

/-- The identifier after `id` in a sequence; none after the last. -/
def following (id : BitVec 5) : List (BitVec 5) → Option (BitVec 5)
  | a :: b :: t => if a = id then some b else following id (b :: t)
  | _ => none

/-- After a stage: the next stage of the frame; after the last, `n <- n + 1`, and the next frame while
`n < frameCount` (40_host_commands.md R105, R109); then the command is complete (R112) and its index and operands are
gone (10_state.md R27, log 5). -/
def FrameCtx.advance (f : FrameCtx) : FrameCtx :=
  match f.stage with
  | none => f
  | some id =>
    match following id frameSequence with
    | some next => { f with stage := some next }
    | none =>
      if f.n + 1 < f.frameCount then { f with stage := frameSequence.head?, n := f.n + 1 } else FrameCtx.idle

/-- The context at the start of a block: `n <- 0`, and the first frame if there is one (R105). -/
def FrameCtx.start (channels : BitVec 8) (frames : Word) : FrameCtx :=
  if 0 < frames then ⟨frameSequence.head?, 0, frames, channels, Wires.idle⟩ else FrameCtx.idle

/-! ### Faults and the host's interface -/

/-- `raise Fault(code)` (00_scope.md R15, 60_exceptions.md R253): the one way a model fault is raised. It records the
index of the command and the state `left`. There is no handler and nothing to return to (60_exceptions.md R255). -/
def raise (code : FaultReport → Fault) (s left : State) : Result := .fault (code ⟨s.cmdIndex, left⟩)

/-- The code of a model fault (60_exceptions.md R252). -/
def Fault.code : Fault → Nat
  | .notReady _ => 1
  | .badFs _ => 2
  | .noParams _ => 3
  | .illegalCmd _ => 4
  | .reservedOperand _ => 5

/-- What a model fault recorded. -/
def Fault.report : Fault → FaultReport
  | .notReady r => r
  | .badFs r => r
  | .noParams r => r
  | .illegalCmd r => r
  | .reservedOperand r => r

/-- Do more to the state where a result has one. -/
def onNext (f : State → State) : Result → Result
  | .next s => .next (f s)
  | .fault r => .fault r
  | .refused r => .refused r

/-- The contents the host stores in `IN` before it issues a PROCESS (20_memory.md R68, 70_reset_and_hazards.md R296);
where it supplies none, `IN` keeps what it holds (log 6). -/
def State.takeFeed (s : State) : State :=
  match s.feeds with
  | [] => s
  | m :: t => { s with inBuf := m, feeds := t }

/-- The words of a command the reset input abandons leave the port; later commands stay (70_reset_and_hazards.md R280:
'the command port is at a command boundary', log 9). -/
def State.portAfterReset (s : State) : List Word :=
  match decodeCommand s.port with
  | .waiting => []
  | .command _ _ => s.port
  | .illegal _ _ => s.port

/-- The reset input acts (70_reset_and_hazards.md R280): the power-on state; a command in progress is abandoned, and
`OUT` keeps what has been written. The host's buffers and its further commands are its own (log 9). -/
def State.powerOn (s : State) : State :=
  { State.reset with
    inBuf := s.inBuf
    outBuf := s.outBuf
    port := s.portAfterReset
    feeds := s.feeds
    cmdIndex := s.cmdIndex }

end Sys2Proof.Machine
end

