-- ==== Sys2Proof/Machine/Filter.lean ====
section
/-! DEFINITION. The filter bank: the coefficient designs the latch computes and stage `FLT` (44_filter_bank.md). -/

namespace Sys2Proof.Machine

/-- `w0` of `trig(fc)` (44_filter_bank.md R182). -/
def angle (fs fc : F32) : F32 := (F32.twoPi.mul fc).div fs

/-- The low-pass, section 0 (44_filter_bank.md R178). -/
def lowPass (fs cutoff : F32) : Coef :=
  let w0 := angle fs cutoff
  let cw := Config.library.cos w0
  let sw := Config.library.sin w0
  let alpha := sw.div (F32.two.mul Config.cfg.qLp)
  let a0 := F32.one.add alpha
  let omc := F32.one.sub cw
  let b0 := (omc.div F32.two).div a0
  { b0 := b0
    b1 := omc.div a0
    b2 := b0
    a1 := (F32.minusTwo.mul cw).div a0
    a2 := (F32.one.sub alpha).div a0 }

/-- The terms the shelf designs share (44_filter_bank.md R179). -/
structure ShelfTerms where
  a : F32
  beta : F32
  ap1 : F32
  am1 : F32
  mc : F32
  pc : F32
deriving DecidableEq, Repr

/-- `shelf_terms(fc, g)` (44_filter_bank.md R179). -/
def shelfTerms (fs fc g : F32) : ShelfTerms :=
  let w0 := angle fs fc
  let cw := Config.library.cos w0
  let sw := Config.library.sin w0
  let a := Config.library.pow10 (g.div F32.forty)
  let sqA := a.sqrt
  let alpha := (sw.div F32.two).mul F32.sqrt2
  let ap1 := a.add F32.one
  let am1 := a.sub F32.one
  { a := a
    beta := (F32.two.mul sqA).mul alpha
    ap1 := ap1
    am1 := am1
    mc := am1.mul cw
    pc := ap1.mul cw }

/-- `high_shelf` from its terms (44_filter_bank.md R179). -/
def highShelfOf (t : ShelfTerms) : Coef :=
  let a0 := (t.ap1.sub t.mc).add t.beta
  { b0 := (t.a.mul ((t.ap1.add t.mc).add t.beta)).div a0
    b1 := ((F32.minusTwo.mul t.a).mul (t.am1.add t.pc)).div a0
    b2 := (t.a.mul ((t.ap1.add t.mc).sub t.beta)).div a0
    a1 := (F32.two.mul (t.am1.sub t.pc)).div a0
    a2 := ((t.ap1.sub t.mc).sub t.beta).div a0 }

/-- `low_shelf` from its terms (44_filter_bank.md R180). -/
def lowShelfOf (t : ShelfTerms) : Coef :=
  let a0 := (t.ap1.add t.mc).add t.beta
  { b0 := (t.a.mul ((t.ap1.sub t.mc).add t.beta)).div a0
    b1 := ((F32.two.mul t.a).mul (t.am1.sub t.pc)).div a0
    b2 := (t.a.mul ((t.ap1.sub t.mc).sub t.beta)).div a0
    a1 := (F32.minusTwo.mul (t.am1.add t.pc)).div a0
    a2 := ((t.ap1.add t.mc).sub t.beta).div a0 }

/-- `high_shelf(fc, g)`. -/
def highShelf (fs fc g : F32) : Coef := highShelfOf (shelfTerms fs fc g)

/-- `low_shelf(fc, g)`. -/
def lowShelf (fs fc g : F32) : Coef := lowShelfOf (shelfTerms fs fc g)

/-- `nyq`, the bound on every centre frequency (44_filter_bank.md R182). -/
def nyquistBound (fs : F32) : F32 := Config.cfg.nyqK.mul fs

/-- `COEF[0..3]` from the latched cutoff and gains (44_filter_bank.md R178 to R182). -/
def coefficients (fs cutoff shelfDb tiltDb : F32) : Four Coef :=
  let fsh := F32.min Config.cfg.fShelf (nyquistBound fs)
  let fti := F32.min Config.cfg.fTilt (nyquistBound fs)
  { k0 := lowPass fs cutoff
    k1 := highShelf fs fsh shelfDb
    k2 := lowShelf fs fti tiltDb.neg
    k3 := highShelf fs fti tiltDb }

/-- `SECTION(c, k, x)`: the result and the two registers after (44_filter_bank.md R183). -/
def sectionStep (q : Coef) (z : Section) (x : F32) : F32 × Section :=
  let y := (q.b0.mul x).add z.z0
  (y, { z0 := ((q.b1.mul x).sub (q.a1.mul y)).add z.z1
        z1 := (q.b2.mul x).sub (q.a2.mul y) })

/-- The four sections in their order, each one's output the next one's input (44_filter_bank.md R176, R184). -/
def bankStep (q : Four Coef) (z : Four Section) (x : F32) : F32 × Four Section :=
  let r0 := sectionStep q.k0 z.k0 x
  let r1 := sectionStep q.k1 z.k1 r0.1
  let r2 := sectionStep q.k2 z.k2 r1.1
  let r3 := sectionStep q.k3 z.k3 r2.1
  (r3.1, ⟨r0.2, r1.2, r2.2, r3.2⟩)

/-- `FLT(c, x)` (44_filter_bank.md R184): the result and the state after. -/
def filter (s : State) (c : Channel) (x : F32) : F32 × State :=
  let r := bankStep s.derived.coef (s.channel c).z x
  (r.1, s.setChannel c { s.channel c with z := r.2 })

/-- Stage `FLT`. -/
def execFlt (c : Channel) (s : State) : Result :=
  let r := filter s c s.frame.wires.x
  .next (r.2.setWires { s.frame.wires with x := r.1 })

end Sys2Proof.Machine
end

