-- ==== Sys2Proof/Machine/Flags.lean ====
section
/-! DEFINITION. The two status flags `READY` and `PVALID` (10_state.md R24): who sets, clears and reads them. No
arithmetic stage sets or reads a flag, and none keeps a floating-point exception flag (60_exceptions.md R250). -/

namespace Sys2Proof.Machine

/-- A sample rate `RESET` turns away: `not (fs > 0.0) or fs == +inf` (40_host_commands.md R101, R102). -/
def badSampleRate (fs : F32) : Bool := !fs.gt F32.zero || fs.eq F32.inf

/-- A failed `RESET` clears `READY` and nothing else (40_host_commands.md R102). -/
def State.clearReady (s : State) : State := { s with ready := false }

/-- A successful `RESET` sets `READY` and clears `PVALID` (40_host_commands.md R101). -/
def State.resetFlags (s : State) : State := { s with ready := true, pvalid := false }

/-- `SETPARAMS` sets `PVALID` (40_host_commands.md R104). -/
def State.setPvalid (s : State) : State := { s with pvalid := true }

end Sys2Proof.Machine
end

