-- ==== Sys2Proof/Machine/Operands.lean ====
section
/-! DEFINITION. The operand formats of the port (30_encoding.md R81, R85) and the decibel helpers of 00_scope.md R13. -/

namespace Sys2Proof.Machine

/-- Format `F`: a binary32 bit pattern, any pattern allowed. -/
def operandF (w : Word) : F32 := ⟨w⟩

/-- Format `U`: an unsigned integer. -/
def operandU (w : Word) : BitVec 32 := w

/-- Format `B`: bit 0 where bits 31:1 are zero; any other word is reserved (30_encoding.md R87). -/
def operandB (w : Word) : Option Bool := if boolWordOk w then some (w.getLsbD 0) else none

/-- The values of the eighteen operand words of `SETPARAMS`; none where a `B` word is reserved (R83, R87). -/
def operandParams (v : ParamWords) : Option Params :=
  match operandB v.mainsSel, operandB v.tstop with
  | some mains, some tstop =>
    some
      { wowRate := operandF v.wowRate
        wowDepth := operandF v.wowDepth
        flutRate := operandF v.flutRate
        flutDepth := operandF v.flutDepth
        dropRate := operandF v.dropRate
        dropDepth := operandF v.dropDepth
        dropDur := operandF v.dropDur
        satAmt := operandF v.satAmt
        noiseDb := operandF v.noiseDb
        humDb := operandF v.humDb
        mainsSel := mains
        lpCutoff := operandF v.lpCutoff
        shelfDb := operandF v.shelfDb
        tiltDb := operandF v.tiltDb
        spread := operandF v.spread
        mix := operandF v.mix
        outDb := operandF v.outDb
        tstop := tstop }
  | _, _ => none

/-- `db2lin(g)` (00_scope.md R13). -/
def db2lin (g : F32) : F32 := Config.library.pow10 (g.div F32.twenty)

/-- `lvl2amp(g)`, with the mute floor (00_scope.md R13). -/
def lvl2amp (g : F32) : F32 := if g.le Config.cfg.muteDb then F32.zero else db2lin g

end Sys2Proof.Machine
end

