-- ==== Sys2Proof/Machine/Commands.lean ====
section
/-! DEFINITION. The host commands `RESET`, `SETPARAMS` and `PROCESS`, the latch, and the stages `FETCH` and `OUTWR`
(40_host_commands.md). -/

namespace Sys2Proof.Machine

/-! ### RESET -/

/-- The dropout scheduler rearmed (40_host_commands.md R101). -/
def Dropout.rearmed : Dropout := ⟨.waiting, -1, 0, F32.one⟩

/-- Every register and RAM word `RESET` writes (40_host_commands.md R101). `P`, `A` and the derived registers are not
among them (log 10). -/
def State.reinitialise (s : State) (fs : F32) (block : BitVec 32) : State :=
  { s.resetFlags with
    fs := fs
    blksz := block
    left := ChannelState.cleared
    right := ChannelState.cleared
    modu := Modulation.cleared
    rng := Config.cfg.seed
    drop := Dropout.rearmed }

/-- `RESET fs, blockSize` (40_host_commands.md R101, R102). -/
def execReset (sampleRate blockSize : Word) (s : State) : Result :=
  if badSampleRate (operandF sampleRate) then raise .badFs s s.clearReady
  else .next (s.reinitialise (operandF sampleRate) (operandU blockSize))

/-! ### SETPARAMS -/

/-- `SETPARAMS v0 .. v17` (40_host_commands.md R104): all eighteen at once, or none. -/
def execSetparams (v : ParamWords) (s : State) : Result :=
  match operandParams v with
  | some p => .next { s.setPvalid with staged := p }
  | none => raise .reservedOperand s s

/-! ### The latch -/

/-- `clamp` into a range. -/
def Range.clamp (r : Range) (x : F32) : F32 := F32.clamp x r.lo r.hi

/-- The latch, part 1: the staged values clamped (40_host_commands.md R106). -/
def latchParams (fs : F32) (p : Params) : Params where
  wowRate := Range.clamp Config.cfg.rate p.wowRate
  wowDepth := Range.clamp Config.cfg.unit p.wowDepth
  flutRate := Range.clamp Config.cfg.rate p.flutRate
  flutDepth := Range.clamp Config.cfg.unit p.flutDepth
  dropRate := Range.clamp Config.cfg.dropRate p.dropRate
  dropDepth := Range.clamp Config.cfg.unit p.dropDepth
  dropDur := Range.clamp Config.cfg.dropDur p.dropDur
  satAmt := Range.clamp Config.cfg.unit p.satAmt
  noiseDb := Range.clamp Config.cfg.level p.noiseDb
  humDb := Range.clamp Config.cfg.level p.humDb
  mainsSel := p.mainsSel
  lpCutoff := F32.clamp p.lpCutoff Config.cfg.fLo (nyquistBound fs)
  shelfDb := Range.clamp Config.cfg.shelfDb p.shelfDb
  tiltDb := Range.clamp Config.cfg.tiltDb p.tiltDb
  spread := Range.clamp Config.cfg.unit p.spread
  mix := Range.clamp Config.cfg.unit p.mix
  outDb := Range.clamp Config.cfg.outDb p.outDb
  tstop := p.tstop

/-- `DUR`: the duration in frames, at least 1 (40_host_commands.md R107). -/
def durationFrames (fs ms : F32) : BitVec 32 :=
  BitVec.ofInt 32 (Max.max 1 (F32.f2i 0 (2 ^ 32 - 1) ((ms.mul fs).div F32.thousand).floor))

/-- The latch, part 2: the derived registers (40_host_commands.md R107). -/
def latchDerived (fs : F32) (a : Params) : Derived :=
  let dur := durationFrames fs a.dropDur
  { noiseAmp := lvl2amp a.noiseDb
    humAmp := lvl2amp a.humDb
    outGain := db2lin a.outDb
    lambda := a.dropRate.div F32.sixty
    dur := dur
    half := (F32.ofInt dur.toNat).div F32.two
    drive := F32.one.add (Config.cfg.satDrive.mul a.satAmt)
    scale0 := F32.one.sub (Config.cfg.spreadK.mul a.spread)
    scale1 := F32.one.add (Config.cfg.spreadK.mul a.spread)
    coef := coefficients fs a.lpCutoff a.shelfDb a.tiltDb }

/-- `LATCH()` (40_host_commands.md R106, R107). -/
def latch (s : State) : State :=
  let a := latchParams s.fs s.staged
  s.setLatched a (latchDerived s.fs a)

/-! ### PROCESS -/

/-- `PROCESS frameCount, channelCount` up to its first frame (40_host_commands.md R105): the checks, `NOT_READY` first,
the host's `IN`, the latch, `n <- 0`. The frames that follow are the steps of the stages (R109, R110, log 4);
Block.lean gives the whole command. -/
def execProcess (channelCount : BitVec 8) (frameCount : Word) (s : State) : Result :=
  if !s.ready then raise .notReady s s
  else if !s.pvalid then raise .noParams s s
  else .next ((latch s.takeFeed).setFrame (FrameCtx.start channelCount (operandU frameCount)))

/-! ### FETCH and OUTWR -/

/-- `dry[c]` of frame `n` (40_host_commands.md R108): a channel the host did not supply is `+0.0`. -/
def dryInput (inBuf : Mem) (n : Word) (channels : BitVec 8) (c : Channel) : F32 :=
  if c.index < channels.toNat then memRead inBuf c.index n else F32.zero

/-- Stage `FETCH` (40_host_commands.md R108). -/
def execFetch (s : State) : Result :=
  .next (s.setWires
    { s.frame.wires with
      dry0 := dryInput s.inBuf s.frame.n s.frame.channelCount .left
      dry1 := dryInput s.inBuf s.frame.n s.frame.channelCount .right })

/-- `OUTWR(c, n, o, channelCount)` (40_host_commands.md R111): a channel the host did not ask for is discarded. -/
def outWrite (s : State) (c : Channel) (n : Word) (o : F32) (channels : BitVec 8) : State :=
  if c.index < channels.toNat then s.setOut (memWrite s.outBuf c.index n o) else s

/-- Stage `OUTWR` (40_host_commands.md R111). -/
def execOutwr (c : Channel) (s : State) : Result :=
  .next (outWrite s c s.frame.n s.frame.wires.o s.frame.channelCount)

end Sys2Proof.Machine
end

