-- ==== Sys2Proof/Machine/Delay.lean ====
section
/-! DEFINITION. The delay line: stages `DLYRD` and `DLYWR` (43_delay_line.md). -/

namespace Sys2Proof.Machine

/-- The target delay in samples, before the clamp (43_delay_line.md R161). -/
def targetDelay (m scale fs : F32) : F32 :=
  ((Config.cfg.baseMs.add (Config.cfg.depthMs.mul (m.mul scale))).mul fs).div F32.thousand

/-- The delay in samples (43_delay_line.md R161, R162). -/
def delaySamples (m scale fs : F32) : F32 :=
  F32.clamp (targetDelay m scale fs) Config.cfg.dMin Config.cfg.dMax

/-- The distance of the newer tap: `f2i(floor(d))`, into the twelve bits of an address (43_delay_line.md R163). -/
def tapDistance (d : F32) : BitVec 12 := BitVec.ofInt 12 (F32.f2i 0 4095 d.floor)

/-- The interpolated read at delay `d` (43_delay_line.md R163, R164). -/
def delayRead (ch : ChannelState) (d : F32) : F32 :=
  let i := tapDistance d
  let f := d.sub d.floor
  let a := dlyRead ch (ch.w - i)
  let b := dlyRead ch (ch.w - i - 1)
  a.add (f.mul (b.sub a))

/-- `DLYRD(c, m)` (43_delay_line.md R163). -/
def delayTap (s : State) (c : Channel) (m : F32) : F32 :=
  delayRead (s.channel c) (delaySamples m (s.derived.scale c) s.fs)

/-- Store a sample at the write cursor and advance the cursor (43_delay_line.md R165). -/
def delayPush (ch : ChannelState) (x : F32) : ChannelState :=
  { dlyWrite ch ch.w x with w := ch.w + 1 }

/-- `DLYWR(c, x)` (43_delay_line.md R165). -/
def delayWrite (s : State) (c : Channel) (x : F32) : State := s.setChannel c (delayPush (s.channel c) x)

/-- Stage `DLYRD`. -/
def execDlyrd (c : Channel) (s : State) : Result :=
  .next (s.setWires { s.frame.wires with x := delayTap s c s.frame.wires.m })

/-- Stage `DLYWR`. -/
def execDlywr (c : Channel) (s : State) : Result :=
  .next (delayWrite s c (s.frame.wires.dry c))

end Sys2Proof.Machine
end

