-- ==== Sys2Proof/Machine/Random.lean ====
section
/-! DEFINITION. The pseudo-random source (41_random_source.md). -/

namespace Sys2Proof.Machine

/-- `next(x)`, the 32-bit xorshift generator with shifts 13, 17, 5 (41_random_source.md R131). -/
def rngNext (x : Word) : Word :=
  let x1 := x ^^^ (x <<< 13)
  let x2 := x1 ^^^ (x1 >>> 17)
  x2 ^^^ (x2 <<< 5)

/-- The value of a generator word: its top 23 bits times 2^-23 (41_random_source.md R132). -/
def uniform (w : Word) : F32 := (F32.ofInt (w.toNat / 2 ^ 9 : Nat)).mul F32.twoPowMinus23

/-- `draw()` (41_random_source.md R132): the value drawn and the state after. -/
def draw (s : State) : F32 × State := (uniform (rngNext s.rng), s.setRng (rngNext s.rng))

end Sys2Proof.Machine
end

