-- ==== Sys2Proof/Machine/Dropout.lean ====
section
/-! DEFINITION. The dropout scheduler: stages `GENV`, `ENVSC` and `DROP` (46_dropout.md). -/

namespace Sys2Proof.Machine

/-- The envelope gain (46_dropout.md R214). -/
def envelopeGain (depth env : F32) : F32 := F32.one.sub (depth.mul (F32.one.sub env))

/-- `GENV()` (46_dropout.md R214). -/
def envelope (s : State) : F32 := envelopeGain s.active.dropDepth s.drop.env

/-- Stage `GENV`. -/
def execGenv (s : State) : Result := .next (s.setWires { s.frame.wires with genv := envelope s })

/-- `ENVSC(x, genv)` (46_dropout.md R214). -/
def scaleEnvelope (x genv : F32) : F32 := x.mul genv

/-- Stage `ENVSC`. -/
def execEnvsc (_c : Channel) (s : State) : Result :=
  .next (s.setWires { s.frame.wires with x := scaleEnvelope s.frame.wires.x s.frame.wires.genv })

/-- The interval in frames for a draw `u` (46_dropout.md R213), saturated to `DCNT`'s values -1 .. 2^47 - 1 (10_state.md
R30, log 15). -/
def intervalFrames (lambda fs u : F32) : BitVec 48 :=
  let t := (Config.library.ln (F32.one.sub u)).neg.div lambda
  BitVec.ofInt 48 (F32.f2i (-1) (2 ^ 47 - 1) (t.mul fs).floor)

/-- `DCNT <- INTERVAL()` (46_dropout.md R213): one draw. -/
def scheduleInterval (s : State) : State :=
  let d := draw s
  d.2.setDrop { s.drop with count := intervalFrames s.derived.lambda s.fs d.1 }

/-- The envelope's recovery while waiting: never above 1 (46_dropout.md R212). -/
def relax (env : F32) : F32 := F32.min F32.one (env.add Config.cfg.envRelax)

/-- `DPH` counts up and saturates (00_scope.md R14). -/
def phaseInc (p : BitVec 32) : BitVec 32 := if p = BitVec.allOnes 32 then p else p + 1

/-- The envelope of the falling half, at phase `p` (46_dropout.md R212). -/
def dipDown (half : F32) (p : BitVec 32) : F32 :=
  F32.max F32.zero (F32.one.sub ((F32.ofInt p.toNat).div half))

/-- The envelope of the rising half, at phase `p` (46_dropout.md R212). -/
def dipUp (half : F32) (p : BitVec 32) : F32 :=
  F32.min F32.one (F32.max F32.zero (((F32.ofInt p.toNat).sub half).div half))

/-- `DROP` while the rate is zero (46_dropout.md R212, R215). -/
def dropDisabled (s : State) : State :=
  s.setDrop { mode := .waiting, count := -1, phase := 0, env := relax s.drop.env }

/-- `DROP` in `Waiting`, once an interval is drawn (46_dropout.md R212). -/
def dropCount (s : State) : State :=
  if s.drop.count = 0 then s.setDrop { s.drop with mode := .dippingDown, phase := 0 }
  else s.setDrop { s.drop with count := s.drop.count - 1 }

/-- `DROP` in `Waiting` (46_dropout.md R212). -/
def dropWaiting (s : State) : State :=
  let s1 := s.setDrop { s.drop with env := relax s.drop.env }
  dropCount (if s.drop.count.toInt < 0 then scheduleInterval s1 else s1)

/-- `DROP` in `DippingDown` (46_dropout.md R212). -/
def dropDown (s : State) : State :=
  let p := phaseInc s.drop.phase
  s.setDrop
    { s.drop with
      phase := p
      env := dipDown s.derived.half p
      mode := if (F32.ofInt p.toNat).ge s.derived.half then .dippingUp else .dippingDown }

/-- `DROP` in `DippingUp` (46_dropout.md R212). -/
def dropUp (s : State) : State :=
  let p := phaseInc s.drop.phase
  let s1 := s.setDrop { s.drop with phase := p, env := dipUp s.derived.half p }
  if s.derived.dur ≤ p then scheduleInterval (s1.setDrop { s1.drop with mode := .waiting, phase := 0 }) else s1

/-- `DROP()` (46_dropout.md R211, R212). -/
def dropStep (s : State) : State :=
  if !s.derived.lambda.gt F32.zero then dropDisabled s
  else
    match s.drop.mode with
    | .waiting => dropWaiting s
    | .dippingDown => dropDown s
    | .dippingUp => dropUp s

/-- Stage `DROP`. -/
def execDrop (s : State) : Result := .next (dropStep s)

end Sys2Proof.Machine
end

