-- ==== Sys2Proof/Machine/Mixer.lean ====
section
/-! DEFINITION. The mixer: stage `MIX` (48_mixer.md). -/

namespace Sys2Proof.Machine

/-- The wet signal (48_mixer.md R240). -/
def wetSignal (x nz hum : F32) : F32 := (x.add nz).add hum

/-- The blend of dry and wet under the output gain, with the bypass at mix = 0 (48_mixer.md R241). -/
def blend (mix gain dry wet : F32) : F32 :=
  if mix.eq F32.zero then dry.mul gain
  else ((dry.mul (F32.one.sub mix)).add (wet.mul mix)).mul gain

/-- `MIX(dry, x, nz, hum)` (48_mixer.md R241). -/
def mixOut (s : State) (dry x nz hum : F32) : F32 :=
  blend s.active.mix s.derived.outGain dry (wetSignal x nz hum)

/-- Stage `MIX`. -/
def execMix (c : Channel) (s : State) : Result :=
  let w := s.frame.wires
  .next (s.setWires { w with o := mixOut s (w.dry c) w.x w.nz w.hum })

end Sys2Proof.Machine
end

