-- ==== Sys2Proof/Machine/Modulation.lean ====
section
/-! DEFINITION. The modulation engine: stage `MOD` (42_modulation.md). -/

namespace Sys2Proof.Machine

/-- `RAMP` after a frame (42_modulation.md R141). -/
def rampNext (tstop : Bool) (fs ramp : F32) : F32 :=
  if tstop then ramp.add (Config.cfg.tstopRate.div fs) else F32.zero

/-- The speed factor, from the `RAMP` of this frame (42_modulation.md R141). -/
def speedOf (tstop : Bool) (ramp : F32) : F32 :=
  if tstop then Config.library.exp (Config.cfg.tstopK.neg.mul ramp) else F32.one

/-- A wow or flutter phase after a frame (42_modulation.md R142, R143). -/
def phaseNext (rate speed fs phase : F32) : F32 := F32.wrap (phase.add ((rate.mul speed).div fs))

/-- `JIT` after a frame, from draw 1 (42_modulation.md R144). -/
def jitNext (u jit : F32) : F32 :=
  F32.clamp (jit.add ((u.sub F32.half).mul Config.cfg.jitStep)) Config.cfg.jitMax.neg Config.cfg.jitMax

/-- A hum phase after a frame (42_modulation.md R145). -/
def humPhaseNext (mains fs phase : F32) : F32 := F32.wrap (phase.add (mains.div fs))

/-- The modulation state after a frame (42_modulation.md R147). -/
def modulationNext (a : Params) (fs u : F32) (md : Modulation) : Modulation :=
  let ramp := rampNext a.tstop fs md.ramp
  let speed := speedOf a.tstop ramp
  { phw := phaseNext a.wowRate speed fs md.phw
    phf := phaseNext a.flutRate speed fs md.phf
    jit := jitNext u md.jit
    ph50 := humPhaseNext Config.cfg.fMains0 fs md.ph50
    ph60 := humPhaseNext Config.cfg.fMains1 fs md.ph60
    ramp := ramp }

/-- The modulation value `m`, from this frame's modulation state (42_modulation.md R146). -/
def modulationValue (a : Params) (md : Modulation) : F32 :=
  let sw := Config.library.sin (F32.twoPi.mul md.phw)
  let sf := Config.library.sin (F32.twoPi.mul md.phf)
  Config.cfg.modScale.mul ((a.wowDepth.mul sw).add (a.flutDepth.mul (sf.add md.jit)))

/-- `MOD()` (42_modulation.md R147): the value `m` and the state after. -/
def modulate (s : State) : F32 × State :=
  let d := draw s
  let md := modulationNext s.active s.fs d.1 s.modu
  (modulationValue s.active md, d.2.setModu md)

/-- Stage `MOD`. -/
def execMod (s : State) : Result :=
  let r := modulate s
  .next (r.2.setWires { s.frame.wires with m := r.1 })

end Sys2Proof.Machine
end

