-- ==== Sys2Proof/Machine/NoiseHum.lean ====
section
/-! DEFINITION. The noise and mains-hum synthesizer: stages `NOISE` and `HUM` (47_noise_hum.md). -/

namespace Sys2Proof.Machine

/-- The noise value of two draws (47_noise_hum.md R230). -/
def noiseValue (amp u1 u2 : F32) : F32 := amp.mul ((u1.add u2).sub F32.one)

/-- `NOISE()` (47_noise_hum.md R230): two draws. -/
def noise (s : State) : F32 × State :=
  let d1 := draw s
  let d2 := draw d1.2
  (noiseValue s.derived.noiseAmp d1.1 d2.1, d2.2)

/-- Stage `NOISE`. -/
def execNoise (_c : Channel) (s : State) : Result :=
  let r := noise s
  .next (r.2.setWires { s.frame.wires with nz := r.1 })

/-- The hum phase the selector picks (47_noise_hum.md R231, R232). -/
def selectedPhase (mains : Bool) (md : Modulation) : F32 := if mains then md.ph60 else md.ph50

/-- The three-harmonic sum (47_noise_hum.md R231). -/
def humValue (amp ph : F32) : F32 :=
  let a := F32.twoPi.mul ph
  let s1 := Config.library.sin a
  let s2 := Config.library.sin (F32.two.mul a)
  let s3 := Config.library.sin (F32.three.mul a)
  amp.mul ((s1.add (Config.cfg.humH2.mul s2)).add (Config.cfg.humH3.mul s3))

/-- `HUM()` (47_noise_hum.md R231). -/
def humNow (s : State) : F32 := humValue s.derived.humAmp (selectedPhase s.active.mainsSel s.modu)

/-- Stage `HUM`. -/
def execHum (s : State) : Result := .next (s.setWires { s.frame.wires with hum := humNow s })

end Sys2Proof.Machine
end

