-- ==== Sys2Proof/Machine/Saturator.lean ====
section
/-! DEFINITION. The saturator: stage `SAT` (45_saturator.md). -/

namespace Sys2Proof.Machine

/-- The pre-emphasised sample (45_saturator.md R201). -/
def preEmphasis (x xp : F32) : F32 := x.add (Config.cfg.satK.mul (x.sub xp))

/-- The saturator's output (45_saturator.md R201): shaping, then de-emphasis. -/
def saturated (drive x xp yp : F32) : F32 :=
  let s := Config.library.tanh (drive.mul (preEmphasis x xp))
  (s.add (Config.cfg.satK.mul yp)).div (F32.one.add Config.cfg.satK)

/-- `SAT(c, x)` (45_saturator.md R201): the result and the state after. -/
def saturate (s : State) (c : Channel) (x : F32) : F32 × State :=
  let ch := s.channel c
  let y := saturated s.derived.drive x ch.xp ch.yp
  (y, s.setChannel c { ch with xp := x, yp := y })

/-- Stage `SAT`. -/
def execSat (c : Channel) (s : State) : Result :=
  let r := saturate s c s.frame.wires.x
  .next (r.2.setWires { s.frame.wires with x := r.1 })

end Sys2Proof.Machine
end

