-- ==== Sys2Proof/Machine/Dispatch.lean ====
section
/-! DEFINITION. The meaning of every instruction: one arm per constructor of Instr. -/

namespace Sys2Proof.Machine

def exec (i : Instr) (s : State) : Host.Outcome State Fault Refusal :=
  match i with
  | .reset sampleRate blockSize => Sys2Proof.Machine.execReset sampleRate blockSize s
  | .setparams v => Sys2Proof.Machine.execSetparams v s
  | .process channelCount frameCount => Sys2Proof.Machine.execProcess channelCount frameCount s
  | .fetch => Sys2Proof.Machine.execFetch s
  | .mod => Sys2Proof.Machine.execMod s
  | .hum => Sys2Proof.Machine.execHum s
  | .genv => Sys2Proof.Machine.execGenv s
  | .dlyrd c => Sys2Proof.Machine.execDlyrd c s
  | .flt c => Sys2Proof.Machine.execFlt c s
  | .sat c => Sys2Proof.Machine.execSat c s
  | .envsc c => Sys2Proof.Machine.execEnvsc c s
  | .noise c => Sys2Proof.Machine.execNoise c s
  | .mix c => Sys2Proof.Machine.execMix c s
  | .outwr c => Sys2Proof.Machine.execOutwr c s
  | .dlywr c => Sys2Proof.Machine.execDlywr c s
  | .drop => Sys2Proof.Machine.execDrop s

end Sys2Proof.Machine
end

