-- ==== Sys2Proof/Machine/Sequence.lean ====
section
/-! DEFINITION. What a step does: the reset input, the next stage of a frame in progress, or the next command of the
port (70_reset_and_hazards.md R280, 40_host_commands.md R100, R110). -/

namespace Sys2Proof.Machine

/-- After a stage: the sequence moves on (40_host_commands.md R110). -/
def afterStage (s : State) : State := s.setFrame s.frame.advance

/-- After a command word or stage of a command has been taken up: the next command has the next index. -/
def afterCommand (s : State) : State := { s with cmdIndex := s.cmdIndex + 1 }

/-- The words of a command leave the port (30_encoding.md R80). -/
def State.consume (s : State) (rest : List Word) : State := { s with port := rest }

/-- One stage of the frame in progress. -/
def stepStage (id : BitVec 5) (s : State) : Result :=
  match decodeStage id with
  | some i => onNext afterStage (exec i s)
  | none => .refused (.unusedStage id)

/-- The next command of the port. Where the stream is at its end or ends inside a command the engine waits and holds
its state (30_encoding.md R88, 60_exceptions.md R270, log 7). -/
def stepCommand (s : State) : Result :=
  match decodeCommand s.port with
  | .command i rest => onNext afterCommand (exec i (s.consume rest))
  | .waiting => .next s
  | .illegal _ rest => raise .illegalCmd s (s.consume rest)

/-- One step of the engine. -/
def stepOnce (s : State) : Result :=
  if s.resetPin then .next s.powerOn
  else
    match s.frame.stage with
    | some id => stepStage id s
    | none => stepCommand s

/-- The state in which the next step runs the instruction of a row of spec/opcode_table.json: a stage row stands in
the stage position, a command row is the whole of the port (log 6, log 21). -/
def placeTableWord (s : State) (nbits w : Nat) : State :=
  if nbits ≤ 8 then { s with frame := { s.frame with stage := some (tableStage w) }, resetPin := false }
  else { s with frame := { s.frame with stage := none }, resetPin := false, port := tableStream w }

end Sys2Proof.Machine
end

