-- ==== Sys2Proof/Machine/Block.lean ====
section
/-! DEFINITION. The whole of a PROCESS as one function of the state (40_host_commands.md R105, R109, R110), written with
the wires of a frame as local values, as the rules have them. The machine of Step.lean runs the same stage operations
one a step. -/

namespace Sys2Proof.Machine

/-- Channel `c`'s part of frame `n` (40_host_commands.md R110). -/
def channelFrame (n : Word) (channels : BitVec 8) (dry m hum genv : F32) (c : Channel) (s : State) : State :=
  let r1 := filter s c (delayTap s c m)
  let r2 := saturate r1.2 c r1.1
  let x := scaleEnvelope r2.1 genv
  let r3 := noise r2.2
  let o := mixOut r3.2 dry x r3.1 hum
  delayWrite (outWrite r3.2 c n o channels) c dry

/-- `FRAME(n, channelCount)` (40_host_commands.md R110). -/
def frameStep (n : Word) (channels : BitVec 8) (s : State) : State :=
  let dry0 := dryInput s.inBuf n channels .left
  let dry1 := dryInput s.inBuf n channels .right
  let r := modulate s
  let hum := humNow r.2
  let genv := envelope r.2
  let s0 := channelFrame n channels dry0 r.1 hum genv .left r.2
  let s1 := channelFrame n channels dry1 r.1 hum genv .right s0
  dropStep s1

/-- `k` frames from frame `n` on (40_host_commands.md R109). -/
def frames : Nat → Word → BitVec 8 → State → State
  | 0, _, _, s => s
  | k + 1, n, channels, s => frames k (n + 1) channels (frameStep n channels s)

/-- `PROCESS frameCount, channelCount` from the latch to its last frame (40_host_commands.md R105). -/
def processBlock (channels : BitVec 8) (frameCount : Word) (s : State) : State :=
  frames frameCount.toNat 0 channels (latch s.takeFeed)

end Sys2Proof.Machine
end

