-- ==== Sys2Proof/Machine/Run.lean ====
section
/-! DEFINITION. Runs (70_reset_and_hazards.md R296): several steps, a whole command, and a whole command stream with how
it ends and what it writes. -/

namespace Sys2Proof.Machine

/-- `k` steps, stopping at the first fault or refusal: the host's run of the machine, at the machine's own types. A step
is finer than R296's unit (log 4); `runCommand` and `runStream` count in that unit. -/
def run : Nat → State → Result
  | 0, s => .next s
  | k + 1, s =>
    match step s with
    | .next t => run k t
    | .fault r => .fault r
    | .refused r => .refused r

/-- No command is in progress and the reset input is not asserted. -/
def State.atBoundary (s : State) : Bool := s.frame.stage.isNone && !s.resetPin

/-- The run has ended normally: the stream is exhausted at a command boundary (70_reset_and_hazards.md R296). -/
def State.ended (s : State) : Bool := s.atBoundary && s.port.isEmpty

/-- The engine is stuck: the stream ends inside a command (30_encoding.md R88). -/
def State.stuck (s : State) : Bool :=
  s.atBoundary && !s.port.isEmpty && decide (decodeCommand s.port = .waiting)

/-! ### One command, to completion -/

/-- The stages that a PROCESS in progress has still to run: the rest of its frame and the frames after it
(40_host_commands.md R109, R110). -/
def FrameCtx.stagesLeft (f : FrameCtx) : Nat :=
  match f.stage with
  | none => 0
  | some id =>
    (frameSequence.length - frameSequence.idxOf id) + frameSequence.length * (f.frameCount.toNat - f.n.toNat - 1)

/-- One unit of a run: a command from its first word to its completion (40_host_commands.md R100). From a state inside
a PROCESS it is the rest of that command. -/
def runCommand (s : State) : Result :=
  match step s with
  | .next t => run t.frame.stagesLeft t
  | .fault r => .fault r
  | .refused r => .refused r

/-! ### The words of `OUT` a command writes -/

/-- One word of `OUT` that a PROCESS has written. -/
structure OutWord where
  channel : Channel
  n : Word
  sample : F32
deriving DecidableEq, Repr

/-- The words of `OUT` a PROCESS has written, in the order its frames write them (40_host_commands.md R110 to R112):
frame by frame, channel 0 before channel 1, no channel at or above `channelCount`. Each is written exactly once (R112),
so `OUT` holds it at completion (log 22). -/
def blockWords (channels : BitVec 8) (frameCount : Word) (out : Mem) : List OutWord :=
  (List.range frameCount.toNat).flatMap fun n =>
    ([Channel.left, Channel.right].filter (fun c => c.index < channels.toNat)).map fun c =>
      ⟨c, BitVec.ofNat 32 n, memRead out c.index (BitVec.ofNat 32 n)⟩

/-- `channelCount` and `frameCount` of a PROCESS; none for another instruction. -/
def Instr.processOperands : Instr → Option (BitVec 8 × Word)
  | .process channels frameCount => some (channels, frameCount)
  | .reset _ _ | .setparams _ | .fetch | .mod | .hum | .genv | .dlyrd _ | .flt _ | .sat _ | .envsc _ | .noise _
  | .mix _ | .outwr _ | .dlywr _ | .drop => none

/-- The operands of the PROCESS that the next unit of the run completes: the one in progress, or the one at the head of
the port; none where the unit is another command or the reset input acts. -/
def State.processOperands (s : State) : Option (BitVec 8 × Word) :=
  if s.resetPin then none
  else
    match s.frame.stage with
    | some _ => some (s.frame.channelCount, s.frame.frameCount)
    | none =>
      match decodeCommand s.port with
      | .command i _ => Instr.processOperands i
      | .waiting => none
      | .illegal _ _ => none

/-- What the unit of a run that leads from `s` to `t` adds to its outputs: one entry for a PROCESS, none otherwise. -/
def unitOutputs (s t : State) : List (List OutWord) :=
  match s.processOperands with
  | some (channels, frameCount) => [blockWords channels frameCount t.outBuf]
  | none => []

/-! ### A command stream -/

/-- How a run stands where it stops (70_reset_and_hazards.md R296). -/
inductive RunEnd
  /-- It has ended normally, in this final state. -/
  | ended (final : State)
  /-- It has ended in a model fault; the state the fault records is not final (60_exceptions.md R252). -/
  | fault (f : Fault)
  /-- It is stuck: the stream ends inside a command. This is no end of the run. -/
  | stuck (s : State)
  /-- The model refused to go on. -/
  | refused (r : Refusal)
  /-- The fuel is spent. This is no end of the run. -/
  | outOfFuel (s : State)
deriving DecidableEq, Repr

/-- A run as far as it went: the words of `OUT` that each completed PROCESS wrote, one list for each in order, and how
the run stands. -/
structure Run where
  outputs : List (List OutWord)
  last : RunEnd
deriving DecidableEq, Repr

/-- The observable result (70_reset_and_hazards.md R296): what each PROCESS wrote, in order, of a run that ended
normally. Any other run has none: a faulted one delivers nothing (60_exceptions.md R252). -/
def Run.result (r : Run) : Option (List (List OutWord)) :=
  match r.last with
  | .ended _ => some r.outputs
  | .fault _ => none
  | .stuck _ => none
  | .refused _ => none
  | .outOfFuel _ => none

/-- The verdict on a state in which no further command can be taken up. -/
def State.halted (s : State) : Option RunEnd :=
  if s.ended then some (.ended s) else if s.stuck then some (.stuck s) else none

/-- A run with fuel, one unit for each command (70_reset_and_hazards.md R296). -/
def runStream : Nat → State → Run
  | 0, s => ⟨[], s.halted.getD (.outOfFuel s)⟩
  | k + 1, s =>
    match s.halted with
    | some e => ⟨[], e⟩
    | none =>
      match runCommand s with
      | .next t => ⟨unitOutputs s t ++ (runStream k t).outputs, (runStream k t).last⟩
      | .fault f => ⟨[], .fault f⟩
      | .refused r => ⟨[], .refused r⟩

/-- The run of a command stream from power-on, with the `IN` contents for each of its PROCESS commands
(70_reset_and_hazards.md R296). Every command takes at least one word of the stream, so a stream has no more commands
than words and that much fuel is enough. -/
def runFromPowerOn (stream : List Word) (inputs : List Mem) : Run :=
  runStream stream.length { State.reset with port := stream, feeds := inputs }

end Sys2Proof.Machine
end

