-- ==== Sys2Proof/Safety.lean ====
section
/-! DEFINITION. The properties of states that every step keeps, and what the statements compare. -/

namespace Sys2Proof.Machine

/-- A delay RAM in canonical form, within its 4096 words (20_memory.md R61). -/
def ramOk (m : Mem) : Bool := m.wf && m.all (fun e => decide (e.1 < 4 * 4096))

/-- Every memory the state holds is in canonical form, and the delay RAMs hold no word beyond their capacity. -/
def State.memoryOk (s : State) : Bool :=
  ramOk s.left.dly && ramOk s.right.dly && s.inBuf.wf && s.outBuf.wf && s.feeds.all Mem.wf

/-- A frame in progress stands at a stage of the frame sequence, its index is below the frame count (10_state.md R27),
and the command met its preconditions (40_host_commands.md R105). -/
def State.sequenceOk (s : State) : Bool :=
  match s.frame.stage with
  | none => true
  | some id => decide (id ∈ frameSequence) && decide (s.frame.n < s.frame.frameCount) && s.ready && s.pvalid

/-- Once a `RESET` has succeeded the random source is not zero (10_state.md R31). -/
def State.randomOk (s : State) : Bool := !s.ready || s.rng != 0

/-- Once a `RESET` has succeeded the sample rate is finite and strictly positive (10_state.md R25). -/
def State.sampleRateOk (s : State) : Bool := !s.ready || (s.fs.isFinite && s.fs.gt F32.zero)

/-- The identifiers of the stages that run between channel 0's cursor advance and channel 1's: channel 1's stages. -/
def betweenCursors (id : BitVec 5) : Bool := id.getLsbD 4

/-- The two cursors are equal, but for the stages between the two advances of a frame (10_state.md R28). -/
def State.cursorsOk (s : State) : Bool :=
  match s.frame.stage with
  | none => decide (s.left.w = s.right.w)
  | some id =>
    decide (id ∈ frameSequence) && decide (s.left.w = if betweenCursors id then s.right.w + 1 else s.right.w)

/-- The jitter accumulator lies in its range (10_state.md R29, 42_modulation.md R144). -/
def State.jitterOk (s : State) : Bool :=
  s.modu.jit.ge Config.cfg.jitMax.neg && s.modu.jit.le Config.cfg.jitMax

/-- The envelope lies in [0, 1] (46_dropout.md R217), and while a frame is in progress `HALF` is finite and at least
one half (46_dropout.md R212), which keeps it there. -/
def State.envelopeOk (s : State) : Bool :=
  s.drop.env.ge F32.zero && s.drop.env.le F32.one
    && (s.frame.stage.isNone || (s.derived.half.isFinite && s.derived.half.ge F32.half))

/-- Every coefficient of a section is finite. -/
def coefFinite (q : Coef) : Bool :=
  q.b0.isFinite && q.b1.isFinite && q.b2.isFinite && q.a1.isFinite && q.a2.isFinite

/-- Every coefficient of the bank is finite (44_filter_bank.md R190: a property of the configuration, not a theorem of the
rules). -/
def bankFinite (q : Four Coef) : Bool := coefFinite q.k0 && coefFinite q.k1 && coefFinite q.k2 && coefFinite q.k3

/-- The two states agree on everything channel `c`'s output can depend on: the shared registers, channel `c`'s own, and
channel `c` of both buffers (45_saturator.md R203, 48_mixer.md R245). -/
def agreeOn (c : Channel) (s t : State) : Prop :=
  s.fs = t.fs ∧ s.active = t.active ∧ s.derived = t.derived ∧ s.channel c = t.channel c ∧ s.modu = t.modu ∧
    s.drop = t.drop ∧ s.rng = t.rng ∧ (∀ k, memRead s.inBuf c.index k = memRead t.inBuf c.index k) ∧
    (∀ k, memRead s.outBuf c.index k = memRead t.outBuf c.index k)

/-- `r` is the representable value nearest to `p / q` units, an even one at a midpoint, and it is infinite exactly where
the exact value reaches the midpoint between the greatest finite value and 2^128 (00_scope.md R9, R10; the format and
that midpoint are IEEE 754's, PRESUMED, log 12). -/
def correctlyRounded (r : F32) (p q : Int) : Prop :=
  r.isNaN = false ∧
    (r.isFinite = true ↔ |p| < (2 ^ 25 - 1) * 2 ^ 252 * |q|) ∧
    (r.isFinite = true → ∀ z : F32, z.isFinite = true →
      |r.toInt * q - p| ≤ |z.toInt * q - p| ∧
      (|r.toInt * q - p| = |z.toInt * q - p| → z.toInt ≠ r.toInt → r.mag % 2 = 0))

/-- `r` is the representable value nearest to the square root of `n` units squared, an even one at a midpoint
(00_scope.md R10). No root of a finite value overflows. -/
def correctlyRoundedRoot (r : F32) (n : Int) : Prop :=
  r.isFinite = true ∧
    ∀ z : F32, z.isFinite = true →
      |(r.toInt : ℝ) - Real.sqrt n| ≤ |(z.toInt : ℝ) - Real.sqrt n| ∧
      (|(r.toInt : ℝ) - Real.sqrt n| = |(z.toInt : ℝ) - Real.sqrt n| → z.toInt ≠ r.toInt → r.mag % 2 = 0)

/-- A finite value is a whole number: a multiple of 2^149 units (00_scope.md R10, 'integral'). -/
def integral (a : F32) : Prop := a.isFinite = true ∧ (2 ^ 149 : Int) ∣ a.toInt

end Sys2Proof.Machine
end

