-- ==== Sys2Proof/Certificates/Slice0/Obligations.lean ====
section
/-! DEFINITION. The statements for the provers. Constants are written as the decimals of the rules
(`F32.literal p q` is the binary32 value nearest to p/q), not as fields of the configuration record. -/

open Sys2Proof Sys2Proof.Machine

/-! ### Encoding and decoding -/

/-- Decoding the encoding of an instruction gives it back, every operand at every value, for the three commands and the
thirteen stages. -/
def Obligations.DecodeEncodeRoundTrip : Prop :=
  ∀ i : Instr, decode (encode i) = some i

/-- A command at the head of a stream is decoded whole, and the words after it are left as they are. -/
def Obligations.CommandDecodesAtHeadOfStream : Prop :=
  ∀ (i : Instr) (rest : List Word), portWords i ≠ [] → decodeCommand (portWords i ++ rest) = .command i rest

/-- At most one row of the opcode map matches any word (R86). -/
def Obligations.AtMostOneRowMatches : Prop :=
  ∀ (w : Word) (r r' : OpcodeRow), r ∈ opcodeMap → r' ∈ opcodeMap → w &&& r.mask = r.pattern →
    w &&& r'.mask = r'.pattern → r = r'

/-- A command word is illegal exactly where its `op` is none of 1, 2, 3, or its reserved bits are not zero, or it is a
`RESET` or `SETPARAMS` with a nonzero `arg8` (R87 (a)). -/
def Obligations.IllegalWordExactlyOutsideTheMap : Prop :=
  ∀ (w : Word) (ws : List Word),
    decodeCommand (w :: ws) = .illegal w ws ↔
      (w.extractLsb' 24 8 ≠ 1#8 ∧ w.extractLsb' 24 8 ≠ 2#8 ∧ w.extractLsb' 24 8 ≠ 3#8) ∨
      w.extractLsb' 8 16 ≠ 0#16 ∨
      (w.extractLsb' 24 8 ≠ 3#8 ∧ w.extractLsb' 0 8 ≠ 0#8)

/-- An illegal command word at a boundary raises ILLEGAL_CMD, code 4, with the index of the command; no register has
changed and no word after it is consumed. That the stop carries the index and the state is the model's form (log 8). -/
def Obligations.IllegalWordRaisesIllegalCmd : Prop :=
  ∀ (s : State) (w : Word) (ws : List Word), s.atBoundary = true → s.port = w :: ws → opcodeRow w = none →
    ∃ f : Fault, step s = .fault f ∧ f.code = 4 ∧ f.report = ⟨s.cmdIndex, { s with port := ws }⟩

/-- A stream that ends inside a command leaves the engine waiting, with no state changed: 3, 19 and 2 words are the
lengths (R88). So does a stream that is at its end (R270). The first is a run that is stuck; the second is a run that has
ended normally, with nothing more written (R296). The model's readings: that the engine waits by a step that answers the
same state (log 7, DEDUCED), and that a stuck run has no result (log 22, DEDUCED: R296 gives the result of a normal end
and says of a stuck run only that it is neither). -/
def Obligations.StreamEndsWait : Prop :=
  (∀ s : State, s.atBoundary = true → s.port = [] →
    step s = .next s ∧ ∀ k : Nat, (runStream k s).last = .ended s ∧ (runStream k s).result = some []) ∧
  ∀ (s : State) (w : Word) (ws : List Word), s.atBoundary = true → s.port = w :: ws →
    (w = 0x01000000#32 ∧ (w :: ws).length < 3) ∨ (w = 0x02000000#32 ∧ (w :: ws).length < 19) ∨
      (w &&& 0xFFFFFF00#32 = 0x03000000#32 ∧ (w :: ws).length < 2) →
    step s = .next s ∧ ∀ k : Nat, (runStream k s).last = .stuck s ∧ (runStream k s).result = none

/-- Words of the spec's vectors V30 decode to what they stand for. -/
def Obligations.SpecWordsDecode : Prop :=
  decodeCommand [0x01000000#32, 0x473B8000#32, 0x00000200#32] = .command (.reset 0x473B8000#32 0x200#32) [] ∧
    decodeCommand [0x03000002#32, 0x00000004#32] = .command (.process 2#8 4#32) [] ∧
    decodeCommand [0x030000FF#32, 0x00000000#32] = .command (.process 255#8 0#32) [] ∧
    decodeStage 0b10101#5 = some (.flt .right) ∧ decodeStage 0b01100#5 = some .drop ∧ decodeStage 0b11100#5 = none

/-! ### The step -/

/-- A step runs the decoded instruction: at a boundary the command at the head of the port, with its words gone and the
command index one higher after it; in a frame the stage the identifier names, with the sequence moved on after it. That a
step inside a frame is one stage and not the whole frame is the model's choice (log 4), and so is the index of the next
command as a field that counts from 0 (log 8); R80, R100 and R110 give the order of the commands and of the stages. -/
def Obligations.StepRunsTheNextInstruction : Prop :=
  (∀ (s : State) (i : Instr) (rest : List Word), s.atBoundary = true → decodeCommand s.port = .command i rest →
    step s = onNext (fun t => { t with cmdIndex := t.cmdIndex + 1 }) (exec i { s with port := rest })) ∧
  (∀ (s : State) (id : BitVec 5) (i : Instr), s.resetPin = false → s.frame.stage = some id → decodeStage id = some i →
    step s = onNext (fun t => { t with frame := t.frame.advance }) (exec i s))

/-- The reset input gives the power-on state whatever is in progress: READY and PVALID are 0, no command is in progress,
and OUT keeps what has been written (R280). The model's choices: that the reset input is a bit which a step reads first and
which it clears, and that IN stays (log 9), and what the other registers hold (log 1, not stated here). -/
def Obligations.ResetInputAbandonsTheCommand : Prop :=
  ∀ s : State, s.resetPin = true →
    ∃ t, step s = .next t ∧ t.ready = false ∧ t.pvalid = false ∧ t.frame.stage = none ∧ t.resetPin = false ∧
      t.outBuf = s.outBuf ∧ t.inBuf = s.inBuf

/-! ### RESET, SETPARAMS, PROCESS -/

/-- RESET with a finite, strictly positive rate writes every register of rule R101 and leaves P, A and the derived
registers, the buffers and the port as they are (that P, A and the derived registers stay is read from the rule's list
of writes, log 10). -/
def Obligations.ResetReinitialisesTheEngine : Prop :=
  ∀ (fs block : Word) (s : State),
    (F32.mk fs).isFinite = true → (F32.mk fs).sign = false → (F32.mk fs).isZero = false →
    exec (.reset fs block) s = .next
      { s with
        fs := ⟨fs⟩
        blksz := block
        left := ⟨[], 0, ⟨⟨⟨0⟩, ⟨0⟩⟩, ⟨⟨0⟩, ⟨0⟩⟩, ⟨⟨0⟩, ⟨0⟩⟩, ⟨⟨0⟩, ⟨0⟩⟩⟩, ⟨0⟩, ⟨0⟩⟩
        right := ⟨[], 0, ⟨⟨⟨0⟩, ⟨0⟩⟩, ⟨⟨0⟩, ⟨0⟩⟩, ⟨⟨0⟩, ⟨0⟩⟩, ⟨⟨0⟩, ⟨0⟩⟩⟩, ⟨0⟩, ⟨0⟩⟩
        modu := ⟨⟨0⟩, ⟨0⟩, ⟨0⟩, ⟨0⟩, ⟨0⟩, ⟨0⟩⟩
        rng := 0x12345678#32
        drop := ⟨.waiting, -1, 0, F32.literal 1 1⟩
        pvalid := false
        ready := true } ∧
    (∀ (c : Channel) (a : BitVec 12), dlyRead (ChannelState.cleared) a = F32.zero ∧
      ∀ t, exec (.reset fs block) s = .next t → dlyRead (t.channel c) a = F32.zero)

/-- RESET with a NaN, an infinity, a zero of either sign or a negative rate raises BAD_FS, code 2: READY is cleared and
every other register is unchanged (R102). That the fault carries the index and the state is the model's form (log 8). -/
def Obligations.BadSampleRateFaults : Prop :=
  ∀ (fs block : Word) (s : State),
    (F32.mk fs).isNaN = true ∨ (F32.mk fs).isInf = true ∨ (F32.mk fs).isZero = true ∨ (F32.mk fs).sign = true →
    ∃ f : Fault, exec (.reset fs block) s = .fault f ∧ f.code = 2 ∧ f.report = ⟨s.cmdIndex, { s with ready := false }⟩

/-- SETPARAMS with both booleans 0 or 1 (R85) stages all eighteen values as they come and sets PVALID; with a reserved
boolean it raises RESERVED_OPERAND (R104), code 5 (R252), and no register changes (R253). That the fault carries the index
and the state is the model's form (log 8). -/
def Obligations.SetparamsStagesAllOrNone : Prop :=
  ∀ (v : ParamWords) (s : State),
    (v.mainsSel.toNat < 2 ∧ v.tstop.toNat < 2 →
      exec (.setparams v) s = .next
        { s with
          pvalid := true
          staged := ⟨⟨v.wowRate⟩, ⟨v.wowDepth⟩, ⟨v.flutRate⟩, ⟨v.flutDepth⟩, ⟨v.dropRate⟩, ⟨v.dropDepth⟩, ⟨v.dropDur⟩,
            ⟨v.satAmt⟩, ⟨v.noiseDb⟩, ⟨v.humDb⟩, decide (v.mainsSel = 1), ⟨v.lpCutoff⟩, ⟨v.shelfDb⟩, ⟨v.tiltDb⟩,
            ⟨v.spread⟩, ⟨v.mix⟩, ⟨v.outDb⟩, decide (v.tstop = 1)⟩ }) ∧
    (2 ≤ v.mainsSel.toNat ∨ 2 ≤ v.tstop.toNat →
      ∃ f : Fault, exec (.setparams v) s = .fault f ∧ f.code = 5 ∧ f.report = ⟨s.cmdIndex, s⟩)

/-- PROCESS checks READY first, then PVALID, before any state changes: NOT_READY, code 1, then NO_PARAMS, code 3. That the
fault carries the index and the state is the model's form (log 8). -/
def Obligations.ProcessChecksReadyThenParams : Prop :=
  ∀ (channels : BitVec 8) (frameCount : Word) (s : State),
    (s.ready = false →
      ∃ f : Fault, exec (.process channels frameCount) s = .fault f ∧ f.code = 1 ∧ f.report = ⟨s.cmdIndex, s⟩) ∧
    (s.ready = true → s.pvalid = false →
      ∃ f : Fault, exec (.process channels frameCount) s = .fault f ∧ f.code = 3 ∧ f.report = ⟨s.cmdIndex, s⟩)

/-- PROCESS latches: the active file is the staged one clamped (R106). The frame index starts at 0, and with no frame to
run the command is complete at once (R105). Nothing else changes. The model's choices: the stage position and the wires of
the frame are fields of the state, at FETCH and at +0.0 here (log 4, DESIGN CHOICE); a complete command leaves that context
idle (log 5, DEDUCED); the host's IN for the block is taken with the command (log 6, DESIGN CHOICE). -/
def Obligations.ProcessLatchesTheParameters : Prop :=
  ∀ (channels : BitVec 8) (frameCount : Word) (s : State), s.ready = true → s.pvalid = true →
    ∃ t, exec (.process channels frameCount) s = .next t ∧
      t.active =
        ⟨F32.clamp s.staged.wowRate (F32.literal 0 1) (F32.literal 100 1),
          F32.clamp s.staged.wowDepth (F32.literal 0 1) (F32.literal 1 1),
          F32.clamp s.staged.flutRate (F32.literal 0 1) (F32.literal 100 1),
          F32.clamp s.staged.flutDepth (F32.literal 0 1) (F32.literal 1 1),
          F32.clamp s.staged.dropRate (F32.literal 0 1) (F32.literal 6000 1),
          F32.clamp s.staged.dropDepth (F32.literal 0 1) (F32.literal 1 1),
          F32.clamp s.staged.dropDur (F32.literal 0 1) (F32.literal 1000 1),
          F32.clamp s.staged.satAmt (F32.literal 0 1) (F32.literal 1 1),
          F32.clamp s.staged.noiseDb (F32.literal 120 1).neg (F32.literal 0 1),
          F32.clamp s.staged.humDb (F32.literal 120 1).neg (F32.literal 0 1),
          s.staged.mainsSel,
          F32.clamp s.staged.lpCutoff (F32.literal 1000 1) ((F32.literal 45 100).mul s.fs),
          F32.clamp s.staged.shelfDb (F32.literal 24 1).neg (F32.literal 24 1),
          F32.clamp s.staged.tiltDb (F32.literal 12 1).neg (F32.literal 12 1),
          F32.clamp s.staged.spread (F32.literal 0 1) (F32.literal 1 1),
          F32.clamp s.staged.mix (F32.literal 0 1) (F32.literal 1 1),
          F32.clamp s.staged.outDb (F32.literal 120 1).neg (F32.literal 24 1),
          s.staged.tstop⟩ ∧
      t.frame = (if frameCount = 0 then FrameCtx.idle else ⟨some 0#5, 0, frameCount, channels, Wires.idle⟩) ∧
      t.inBuf = s.feeds.headD s.inBuf ∧ t.feeds = s.feeds.tail ∧
      t = { s with
              active := t.active
              derived := t.derived
              frame := t.frame
              inBuf := t.inBuf
              feeds := t.feeds }

/-- PROCESS derives the per-block constants from the clamped parameters and FS (R107). -/
def Obligations.ProcessDerivesTheConstants : Prop :=
  ∀ (channels : BitVec 8) (frameCount : Word) (s : State), s.ready = true → s.pvalid = true →
    ∃ t, exec (.process channels frameCount) s = .next t ∧
      t.derived.noiseAmp = (if t.active.noiseDb.le (F32.literal 120 1).neg then F32.zero
        else Config.library.pow10 (t.active.noiseDb.div (F32.literal 20 1))) ∧
      t.derived.humAmp = (if t.active.humDb.le (F32.literal 120 1).neg then F32.zero
        else Config.library.pow10 (t.active.humDb.div (F32.literal 20 1))) ∧
      t.derived.outGain = Config.library.pow10 (t.active.outDb.div (F32.literal 20 1)) ∧
      t.derived.lambda = t.active.dropRate.div (F32.literal 60 1) ∧
      (t.derived.dur.toNat : Int) =
        Max.max 1 (F32.f2i 0 (2 ^ 32 - 1) ((t.active.dropDur.mul s.fs).div (F32.literal 1000 1)).floor) ∧
      t.derived.half = (F32.ofInt t.derived.dur.toNat).div (F32.literal 2 1) ∧
      t.derived.drive = (F32.literal 1 1).add ((F32.literal 9 1).mul t.active.satAmt) ∧
      t.derived.scale0 = (F32.literal 1 1).sub ((F32.literal 5 10).mul t.active.spread) ∧
      t.derived.scale1 = (F32.literal 1 1).add ((F32.literal 5 10).mul t.active.spread)

/-- PROCESS designs the four filter sections from the clamped cutoff and gains (R178 to R182). -/
def Obligations.ProcessDesignsTheFilters : Prop :=
  ∀ (channels : BitVec 8) (frameCount : Word) (s : State), s.ready = true → s.pvalid = true →
    let one := F32.literal 1 1
    let two := F32.literal 2 1
    let cosOf := fun fc => Config.library.cos (((⟨0x40C90FDB#32⟩ : F32).mul fc).div s.fs)
    let sinOf := fun fc => Config.library.sin (((⟨0x40C90FDB#32⟩ : F32).mul fc).div s.fs)
    let nyq := (F32.literal 45 100).mul s.fs
    let alphaOf := fun fc => ((sinOf fc).div two).mul ⟨0x3FB504F3#32⟩
    let gainOf := fun (g : F32) => Config.library.pow10 (g.div (F32.literal 40 1))
    let betaOf := fun fc g => (two.mul (gainOf g).sqrt).mul (alphaOf fc)
    let mcOf := fun fc g => ((gainOf g).sub one).mul (cosOf fc)
    let pcOf := fun fc g => ((gainOf g).add one).mul (cosOf fc)
    let high := fun fc g =>
      let a0 := (((gainOf g).add one).sub (mcOf fc g)).add (betaOf fc g)
      (⟨((gainOf g).mul ((((gainOf g).add one).add (mcOf fc g)).add (betaOf fc g))).div a0,
        ((two.neg.mul (gainOf g)).mul (((gainOf g).sub one).add (pcOf fc g))).div a0,
        ((gainOf g).mul ((((gainOf g).add one).add (mcOf fc g)).sub (betaOf fc g))).div a0,
        (two.mul (((gainOf g).sub one).sub (pcOf fc g))).div a0,
        ((((gainOf g).add one).sub (mcOf fc g)).sub (betaOf fc g)).div a0⟩ : Coef)
    let low := fun fc g =>
      let a0 := (((gainOf g).add one).add (mcOf fc g)).add (betaOf fc g)
      (⟨((gainOf g).mul ((((gainOf g).add one).sub (mcOf fc g)).add (betaOf fc g))).div a0,
        ((two.mul (gainOf g)).mul (((gainOf g).sub one).sub (pcOf fc g))).div a0,
        ((gainOf g).mul ((((gainOf g).add one).sub (mcOf fc g)).sub (betaOf fc g))).div a0,
        (two.neg.mul (((gainOf g).sub one).add (pcOf fc g))).div a0,
        ((((gainOf g).add one).add (mcOf fc g)).sub (betaOf fc g)).div a0⟩ : Coef)
    ∃ t, exec (.process channels frameCount) s = .next t ∧
      (let cw := cosOf t.active.lpCutoff
       let alpha := (sinOf t.active.lpCutoff).div (two.mul (F32.literal 5 10))
       let a0 := one.add alpha
       t.derived.coef.k0 =
        ⟨((one.sub cw).div two).div a0, (one.sub cw).div a0, ((one.sub cw).div two).div a0, (two.neg.mul cw).div a0,
          (one.sub alpha).div a0⟩) ∧
      t.derived.coef.k1 = high (F32.min (F32.literal 6000 1) nyq) t.active.shelfDb ∧
      t.derived.coef.k2 = low (F32.min (F32.literal 1000 1) nyq) t.active.tiltDb.neg ∧
      t.derived.coef.k3 = high (F32.min (F32.literal 1000 1) nyq) t.active.tiltDb

/-- The steps after a PROCESS is taken up run every frame, stage by stage, to the command's completion: one step for the
command and twenty-one for each frame give what the frame loop of R105, R109 and R110 gives. The model's choices in it: one
step a stage (log 4), the frame context idle with every wire at +0.0 after the command (log 4, log 5), the host's IN taken
with the command (log 6, in `processBlock`), and the command index one higher (log 8). -/
def Obligations.ProcessRunsEveryFrame : Prop :=
  ∀ (s : State) (channels : BitVec 8) (frameCount : Word) (rest : List Word),
    s.atBoundary = true → s.ready = true → s.pvalid = true →
    decodeCommand s.port = .command (.process channels frameCount) rest →
    run (1 + 21 * frameCount.toNat) s = .next
      { processBlock channels frameCount { s with port := rest } with
        frame := FrameCtx.idle
        cmdIndex := s.cmdIndex + 1 }

/-- Splitting a block changes nothing but the latch points (R112): `a` frames and then `b` frames on the rest of the
input leave the same registers and the same output words as `a + b` frames. -/
def Obligations.SplittingABlockChangesNothing : Prop :=
  ∀ (s : State) (channels : BitVec 8) (a b : Word) (rest : Mem),
    s.feeds = [] → s.outBuf.wf = true → a.toNat + b.toNat < 2 ^ 32 →
    (∀ (c : Nat) (k : Word), c < 2 → k < b → memRead rest c k = memRead s.inBuf c (a + k)) →
    let first := processBlock channels a s
    let second := processBlock channels b { first with inBuf := rest }
    let whole := processBlock channels (a + b) s
    { second with inBuf := whole.inBuf, outBuf := whole.outBuf } = whole ∧
      (∀ (c : Channel) (k : Word), c.index < channels.toNat → k < a →
        memRead first.outBuf c.index k = memRead whole.outBuf c.index k) ∧
      (∀ (c : Channel) (k : Word), c.index < channels.toNat → k < b →
        memRead second.outBuf c.index k = memRead whole.outBuf c.index (a + k))

/-- After the latch every numeric active parameter lies in its range, whatever was staged (R106). The cutoff's range is
[1000, 0.45 × FS] where it is not empty; its upper bound wins otherwise (R13). -/
def Obligations.LatchedParametersInRange : Prop :=
  ∀ (fs : F32) (p : Params), fs.isFinite = true → fs.gt F32.zero = true →
    let a := latchParams fs p
    let within := fun (x lo hi : F32) => lo.le x = true ∧ x.le hi = true
    let zero := F32.literal 0 1
    let one := F32.literal 1 1
    within a.wowRate zero (F32.literal 100 1) ∧ within a.wowDepth zero one ∧ within a.flutRate zero (F32.literal 100 1) ∧
      within a.flutDepth zero one ∧ within a.dropRate zero (F32.literal 6000 1) ∧ within a.dropDepth zero one ∧
      within a.dropDur zero (F32.literal 1000 1) ∧ within a.satAmt zero one ∧
      within a.noiseDb (F32.literal 120 1).neg zero ∧ within a.humDb (F32.literal 120 1).neg zero ∧
      within a.shelfDb (F32.literal 24 1).neg (F32.literal 24 1) ∧
      within a.tiltDb (F32.literal 12 1).neg (F32.literal 12 1) ∧ within a.spread zero one ∧ within a.mix zero one ∧
      within a.outDb (F32.literal 120 1).neg (F32.literal 24 1) ∧
      a.lpCutoff.le ((F32.literal 45 100).mul fs) = true ∧
      ((F32.literal 1000 1).le ((F32.literal 45 100).mul fs) = true → (F32.literal 1000 1).le a.lpCutoff = true) ∧
      (((F32.literal 45 100).mul fs).lt (F32.literal 1000 1) = true → a.lpCutoff = (F32.literal 45 100).mul fs)

/-! ### The stages, each with its frame

A stage reads and drives the wires of the frame; that the state holds them is the model's choice (log 4). -/

/-- FETCH reads the dry samples of the frame; a channel the host did not supply is +0.0 (R108). -/
def Obligations.FetchReadsTheDrySamples : Prop :=
  ∀ s : State,
    exec .fetch s = .next
      { s with
        frame :=
          { s.frame with
            wires :=
              { s.frame.wires with
                dry0 := if 1 ≤ s.frame.channelCount.toNat then memRead s.inBuf 0 s.frame.n else F32.zero
                dry1 := if 2 ≤ s.frame.channelCount.toNat then memRead s.inBuf 1 s.frame.n else F32.zero } } }

/-- OUTWR stores the output sample of a channel below channelCount at its index and leaves every other byte of OUT as it
was; a channel at or above channelCount stores nothing (R111). Nothing else changes. -/
def Obligations.OutwrStoresOneSample : Prop :=
  ∀ (c : Channel) (s : State), s.outBuf.wf = true →
    ∃ t, exec (.outwr c) s = .next t ∧ t = { s with outBuf := t.outBuf } ∧
      (c.index < s.frame.channelCount.toNat →
        memRead t.outBuf c.index s.frame.n = s.frame.wires.o ∧
        ∀ a : Nat, a < 4 * bufferIndex c.index s.frame.n ∨ 4 * bufferIndex c.index s.frame.n + 4 ≤ a →
          t.outBuf.readByte a = s.outBuf.readByte a) ∧
      (s.frame.channelCount.toNat ≤ c.index → ∀ a : Nat, t.outBuf.readByte a = s.outBuf.readByte a)

/-- MOD makes one draw and advances the ramp, the wow and flutter phases, the jitter and both hum phases, in that order,
and drives `m` (R141 to R147). Nothing else changes. -/
def Obligations.ModAdvancesTheModulation : Prop :=
  ∀ s : State,
    let a := s.active
    let wrapped := fun (x : F32) => x.sub x.floor
    let r := rngNext s.rng
    let u := (F32.ofInt (r.toNat / 2 ^ 9 : Nat)).mul (F32.literal 1 (2 ^ 23))
    let ramp := if a.tstop then s.modu.ramp.add ((F32.literal 1 1).div s.fs) else F32.zero
    let speed := if a.tstop then Config.library.exp ((F32.literal 5 1).neg.mul ramp) else F32.literal 1 1
    let phw := wrapped (s.modu.phw.add ((a.wowRate.mul speed).div s.fs))
    let phf := wrapped (s.modu.phf.add ((a.flutRate.mul speed).div s.fs))
    let jit := F32.clamp (s.modu.jit.add ((u.sub (F32.literal 1 2)).mul (F32.literal 1 128))) (F32.literal 1 8).neg
      (F32.literal 1 8)
    let ph50 := wrapped (s.modu.ph50.add ((F32.literal 50 1).div s.fs))
    let ph60 := wrapped (s.modu.ph60.add ((F32.literal 60 1).div s.fs))
    let sw := Config.library.sin ((⟨0x40C90FDB#32⟩ : F32).mul phw)
    let sf := Config.library.sin ((⟨0x40C90FDB#32⟩ : F32).mul phf)
    let m := (F32.literal 1 2).mul ((a.wowDepth.mul sw).add (a.flutDepth.mul (sf.add jit)))
    exec .mod s = .next
      { s with
        rng := r
        modu := ⟨phw, phf, jit, ph50, ph60, ramp⟩
        frame := { s.frame with wires := { s.frame.wires with m := m } } }

/-- HUM sums three harmonics of the selected mains phase under the hum amplitude (R231) and changes nothing else. -/
def Obligations.HumSumsThreeHarmonics : Prop :=
  ∀ s : State,
    let a := (⟨0x40C90FDB#32⟩ : F32).mul (if s.active.mainsSel then s.modu.ph60 else s.modu.ph50)
    let bracket := ((Config.library.sin a).add
      ((F32.literal 3 10).mul (Config.library.sin ((F32.literal 2 1).mul a)))).add
      ((F32.literal 15 100).mul (Config.library.sin ((F32.literal 3 1).mul a)))
    exec .hum s = .next
      { s with frame := { s.frame with wires := { s.frame.wires with hum := s.derived.humAmp.mul bracket } } }

/-- NOISE makes two draws and drives their mean-centred sum under the noise amplitude (R230); nothing else changes. -/
def Obligations.NoiseDrawsTwice : Prop :=
  ∀ (c : Channel) (s : State),
    let r1 := rngNext s.rng
    let r2 := rngNext r1
    let value := fun (r : Word) => (F32.ofInt (r.toNat / 2 ^ 9 : Nat)).mul (F32.literal 1 (2 ^ 23))
    exec (.noise c) s = .next
      { s with
        rng := r2
        frame :=
          { s.frame with
            wires :=
              { s.frame.wires with
                nz := s.derived.noiseAmp.mul (((value r1).add (value r2)).sub (F32.literal 1 1)) } } }

/-- GENV turns the envelope into a gain, ENVSC applies it to the tape signal (R214); nothing else changes. -/
def Obligations.EnvelopeGainAndScaling : Prop :=
  (∀ s : State,
    exec .genv s = .next
      { s with
        frame :=
          { s.frame with
            wires :=
              { s.frame.wires with
                genv := (F32.literal 1 1).sub (s.active.dropDepth.mul ((F32.literal 1 1).sub s.drop.env)) } } }) ∧
  (∀ (c : Channel) (s : State),
    exec (.envsc c) s = .next
      { s with
        frame := { s.frame with wires := { s.frame.wires with x := s.frame.wires.x.mul s.frame.wires.genv } } })

/-- DLYRD interpolates between the two words nearest to the clamped target delay (R161 to R163); nothing else changes. -/
def Obligations.DlyrdInterpolatesTwoTaps : Prop :=
  ∀ (c : Channel) (s : State),
    let scale := match c with | .left => s.derived.scale0 | .right => s.derived.scale1
    let dms := (F32.literal 5 1).add ((F32.literal 5 1).mul (s.frame.wires.m.mul scale))
    let d := F32.clamp ((dms.mul s.fs).div (F32.literal 1000 1)) (F32.literal 1 1) (F32.literal 4094 1)
    let i := BitVec.ofInt 12 (F32.f2i 0 4095 d.floor)
    let f := d.sub d.floor
    let a := dlyRead (s.channel c) ((s.channel c).w - i)
    let b := dlyRead (s.channel c) ((s.channel c).w - i - 1)
    exec (.dlyrd c) s = .next
      { s with frame := { s.frame with wires := { s.frame.wires with x := a.add (f.mul (b.sub a)) } } }

/-- DLYWR stores the dry sample at the write cursor and advances the cursor modulo 4096 (R165). Every other byte of the
delay RAM, the other channel and all other state are unchanged. -/
def Obligations.DlywrStoresAndAdvances : Prop :=
  ∀ (c : Channel) (s : State), (s.channel c).dly.wf = true →
    let ch := s.channel c
    let dry := match c with | .left => s.frame.wires.dry0 | .right => s.frame.wires.dry1
    ∃ t, exec (.dlywr c) s = .next t ∧
      dlyRead (t.channel c) ch.w = dry ∧ (t.channel c).w.toNat = (ch.w.toNat + 1) % 4096 ∧
      (∀ a : Nat, a < 4 * ch.w.toNat ∨ 4 * ch.w.toNat + 4 ≤ a → (t.channel c).dly.readByte a = ch.dly.readByte a) ∧
      t.channel c = { ch with dly := (t.channel c).dly, w := (t.channel c).w } ∧
      t = s.setChannel c (t.channel c)

/-- FLT runs the sample through the four sections in their order, each in transposed direct form II (R183, R184); only
the channel's filter registers and the wire change. -/
def Obligations.FltCascadesFourSections : Prop :=
  ∀ (c : Channel) (s : State),
    let y := fun (q : Coef) (z : Section) (x : F32) => (q.b0.mul x).add z.z0
    let z := fun (q : Coef) (z : Section) (x : F32) =>
      (⟨((q.b1.mul x).sub (q.a1.mul (y q z x))).add z.z1, (q.b2.mul x).sub (q.a2.mul (y q z x))⟩ : Section)
    let k := s.derived.coef
    let r := (s.channel c).z
    let x0 := s.frame.wires.x
    let x1 := y k.k0 r.k0 x0
    let x2 := y k.k1 r.k1 x1
    let x3 := y k.k2 r.k2 x2
    let x4 := y k.k3 r.k3 x3
    exec (.flt c) s = .next
      { s.setChannel c { s.channel c with z := ⟨z k.k0 r.k0 x0, z k.k1 r.k1 x1, z k.k2 r.k2 x2, z k.k3 r.k3 x3⟩ } with
        frame := { s.frame with wires := { s.frame.wires with x := x4 } } }

/-- SAT emphasises, shapes and de-emphasises, and keeps its input and its output as the channel's history (R201);
nothing else changes. -/
def Obligations.SatShapesBetweenEmphasis : Prop :=
  ∀ (c : Channel) (s : State),
    let ch := s.channel c
    let x := s.frame.wires.x
    let pre := x.add ((F32.literal 1 2).mul (x.sub ch.xp))
    let y := ((Config.library.tanh (s.derived.drive.mul pre)).add ((F32.literal 1 2).mul ch.yp)).div (F32.literal 3 2)
    exec (.sat c) s = .next
      { s.setChannel c { ch with xp := x, yp := y } with
        frame := { s.frame with wires := { s.frame.wires with x := y } } }

/-- MIX blends the wet and the dry sample under the output gain, through the bypass where the latched mix is a zero
(R240, R241); nothing else changes. -/
def Obligations.MixBlendsDryAndWet : Prop :=
  ∀ (c : Channel) (s : State),
    let w := s.frame.wires
    let dry := match c with | .left => w.dry0 | .right => w.dry1
    let wet := (w.x.add w.nz).add w.hum
    let o := if s.active.mix.eq (F32.literal 0 1) then dry.mul s.derived.outGain
      else ((dry.mul ((F32.literal 1 1).sub s.active.mix)).add (wet.mul s.active.mix)).mul s.derived.outGain
    exec (.mix c) s = .next { s with frame := { s.frame with wires := { w with o := o } } }

/-- DROP at a rate that is not above zero forces Waiting, forgets any interval, draws nothing and lets the envelope
recover by at most 2^-10 (R212, R215); nothing else changes. -/
def Obligations.DropDisabledAtRateZero : Prop :=
  ∀ s : State, s.derived.lambda.gt F32.zero = false →
    exec .drop s = .next
      { s with
        drop := ⟨.waiting, -1, 0, F32.min (F32.literal 1 1) (s.drop.env.add (F32.literal 1 1024))⟩ }

/-- DROP in Waiting at a positive rate: the envelope recovers, an interval is drawn where none is, and the countdown
starts an event or goes down by one (R212, R213); nothing else changes. -/
def Obligations.DropWaitingCountsDown : Prop :=
  ∀ s : State, s.derived.lambda.gt F32.zero = true → s.drop.mode = .waiting →
    let env := F32.min (F32.literal 1 1) (s.drop.env.add (F32.literal 1 1024))
    let u := uniform (rngNext s.rng)
    let t := (Config.library.ln ((F32.literal 1 1).sub u)).neg.div s.derived.lambda
    let drawn := BitVec.ofInt 48 (F32.f2i (-1) (2 ^ 47 - 1) (t.mul s.fs).floor)
    let count := if s.drop.count.toInt < 0 then drawn else s.drop.count
    exec .drop s = .next
      { s with
        rng := if s.drop.count.toInt < 0 then rngNext s.rng else s.rng
        drop := if count = 0 then ⟨.dippingDown, 0, 0, env⟩ else ⟨.waiting, count - 1, s.drop.phase, env⟩ }

/-- DROP in DippingDown and DippingUp at a positive rate: the phase goes up by one, the envelope follows the triangle,
and the event turns at HALF and ends at DUR with a new interval drawn (R212, R213); nothing else changes. -/
def Obligations.DropDipsDownAndUp : Prop :=
  ∀ s : State, s.derived.lambda.gt F32.zero = true →
    let p := if s.drop.phase = 0xFFFFFFFF#32 then s.drop.phase else s.drop.phase + 1
    let q := F32.ofInt p.toNat
    let one := F32.literal 1 1
    let t := (Config.library.ln (one.sub (uniform (rngNext s.rng)))).neg.div s.derived.lambda
    let drawn := BitVec.ofInt 48 (F32.f2i (-1) (2 ^ 47 - 1) (t.mul s.fs).floor)
    (s.drop.mode = .dippingDown →
      exec .drop s = .next
        { s with
          drop :=
            ⟨if q.ge s.derived.half then .dippingUp else .dippingDown, s.drop.count, p,
              F32.max F32.zero (one.sub (q.div s.derived.half))⟩ }) ∧
    (s.drop.mode = .dippingUp →
      let env := F32.min one (F32.max F32.zero ((q.sub s.derived.half).div s.derived.half))
      exec .drop s = .next
        (if s.derived.dur.toNat ≤ p.toNat then { s with drop := ⟨.waiting, drawn, 0, env⟩, rng := rngNext s.rng }
         else { s with drop := ⟨.dippingUp, s.drop.count, p, env⟩ }))

/-! ### The random source -/

/-- `next` is the three xorshifts by 13, 17 and 5, each with the value the one before gives; it is a bijection on the
32-bit words and maps 0, and only 0, to 0 (R131). -/
def Obligations.RandomStepIsABijection : Prop :=
  (∀ x : Word,
    let x1 := x ^^^ (x <<< 13)
    let x2 := x1 ^^^ (x1 >>> 17)
    rngNext x = x2 ^^^ (x2 <<< 5)) ∧
    Function.Bijective rngNext ∧ ∀ x : Word, rngNext x = 0 ↔ x = 0

/-- A draw is exactly the top 23 bits of the new word times 2^-23, in [0, 1 - 2^-23] (R132). -/
def Obligations.DrawIsExact : Prop :=
  ∀ s : State,
    let r := rngNext s.rng
    (draw s).2 = { s with rng := r } ∧ (draw s).1.toInt * 2 ^ 23 = (r.toNat / 2 ^ 9 : Nat) * 2 ^ 149 ∧
      F32.zero.le (draw s).1 = true ∧ (draw s).1.le ((F32.literal 1 1).sub (F32.literal 1 (2 ^ 23))) = true

/-- With a dropout rate that clamps to zero a block of F frames makes exactly 5 × F draws (R113). One step a stage is the
model's choice (log 4). -/
def Obligations.FiveDrawsPerFrameAtRateZero : Prop :=
  ∀ (s : State) (channels : BitVec 8) (frameCount : Word) (rest : List Word),
    s.atBoundary = true → s.ready = true → s.pvalid = true →
    decodeCommand s.port = .command (.process channels frameCount) rest →
    s.staged.dropRate.isNaN = true ∨ s.staged.dropRate.isZero = true ∨ s.staged.dropRate.sign = true →
    ∃ t, run (1 + 21 * frameCount.toNat) s = .next t ∧
      t.rng = rngNext^[5 * frameCount.toNat] s.rng

/-! ### The delay line -/

/-- Whatever the modulation, the scale and the rate, the delay lies in [1, 4094], a NaN target becomes 1, and the two
addresses read differ from the write cursor and from each other (R162, R164). -/
def Obligations.DelayTapsAreStoredHistory : Prop :=
  ∀ (m scale fs : F32) (w : BitVec 12),
    let d := delaySamples m scale fs
    let i := tapDistance d
    (F32.literal 1 1).le d = true ∧ d.le (F32.literal 4094 1) = true ∧
      ((targetDelay m scale fs).isNaN = true → d = F32.literal 1 1) ∧
      1 ≤ i.toNat ∧ i.toNat ≤ 4094 ∧ w - i ≠ w ∧ w - i - 1 ≠ w ∧ w - i ≠ w - i - 1 ∧
      (i.toNat : Int) = d.floorInt

/-- At the start of a frame the word `j` places behind the write cursor holds the dry sample of `j` frames ago, or +0.0
where that is before the RESET (R160): frames counted from a cleared delay line. -/
def Obligations.DelayLineHoldsTheDryHistory : Prop :=
  ∀ (s : State) (c : Channel) (channels : BitVec 8) (k : Nat), (s.channel c).dly = [] → k ≤ 2 ^ 32 →
    let t := frames k 0 channels s
    ∀ j : Nat, 1 ≤ j → j ≤ 4096 →
      dlyRead (t.channel c) ((t.channel c).w - BitVec.ofNat 12 j) =
        if j ≤ k then dryInput s.inBuf (BitVec.ofNat 32 (k - j)) channels c else F32.zero

/-- With a zero modulation value at 48000 Hz the delay is exactly 240 samples, whatever the finite scale (R168). -/
def Obligations.BaseDelayIs240At48k : Prop :=
  ∀ m scale : F32, m.isZero = true → scale.isFinite = true →
    delaySamples m scale (F32.literal 48000 1) = F32.literal 240 1 ∧
      tapDistance (delaySamples m scale (F32.literal 48000 1)) = 240#12

/-! ### Silence -/

/-- From the histories a RESET leaves, with zero input, zero noise and hum amplitudes and dropout rate zero, every output
word is a zero, in every frame (R283): at a rate of at least 1 Hz, and with the derived values the library functions give
finite. -/
def Obligations.SilenceAfterReset : Prop :=
  ∀ (s : State) (channels : BitVec 8) (k : Nat),
    s.left = ChannelState.cleared → s.right = ChannelState.cleared → s.modu = Modulation.cleared →
    s.drop.env = F32.literal 1 1 → s.outBuf.wf = true →
    s.fs.isFinite = true → (F32.literal 1 1).le s.fs = true →
    (∀ (c : Channel) (n : Word), (memRead s.inBuf c.index n).isZero = true) →
    s.derived.noiseAmp.isZero = true → s.derived.humAmp.isZero = true → s.derived.lambda.gt F32.zero = false →
    bankFinite s.derived.coef = true → s.derived.drive.isFinite = true → s.derived.outGain.isFinite = true →
    s.active.mix.isFinite = true → s.active.dropDepth.isFinite = true → k ≤ 2 ^ 32 →
    ∀ (c : Channel) (n : Word), c.index < channels.toNat → n.toNat < k →
      (memRead (frames k 0 channels s).outBuf c.index n).isZero = true

/-! ### Dropout, noise, tape stop, mix -/

/-- At rate zero an envelope at 1 stays at 1 for any number of frames, and no event begins (R215). -/
def Obligations.EnvelopePinnedAtRateZero : Prop :=
  ∀ (k : Nat) (n : Word) (channels : BitVec 8) (s : State),
    s.derived.lambda.gt F32.zero = false → s.drop.env = F32.literal 1 1 →
    let t := frames (k + 1) n channels s
    t.drop = ⟨.waiting, -1, 0, F32.literal 1 1⟩

/-- Dropout depth 0 gives a gain of exactly 1.0 whatever the envelope, in its range, holds (R214). -/
def Obligations.DepthZeroGivesUnityGain : Prop :=
  ∀ s : State, s.active.dropDepth.isZero = true → F32.zero.le s.drop.env = true →
    s.drop.env.le (F32.literal 1 1) = true →
    ∃ t, exec .genv s = .next t ∧ t.frame.wires.genv = F32.literal 1 1

/-- With a noise amplitude of zero NOISE drives a zero, and still makes its two draws (R230, R235). -/
def Obligations.ZeroNoiseAmplitudeGivesZero : Prop :=
  ∀ (c : Channel) (s : State), s.derived.noiseAmp.isZero = true →
    ∃ t, exec (.noise c) s = .next t ∧ t.frame.wires.nz.isZero = true ∧ t.rng = rngNext (rngNext s.rng)

/-- While the tape stop is engaged the speed factor never goes up from one frame to the next and is at most 1 (R148). -/
def Obligations.TapeStopSpeedNeverRises : Prop :=
  ∀ fs ramp : F32, fs.isFinite = true → fs.gt F32.zero = true → F32.zero.le ramp = true →
    let next := rampNext true fs ramp
    ramp.le next = true ∧ (speedOf true next).le (speedOf true ramp) = true ∧ (speedOf true next).le F32.one = true

/-- The latched mix compares equal to zero exactly where the staged one is a zero, negative or a NaN, and then the
output is dry × OUT_GAIN, one rounding, whatever the wet path holds (R242). -/
def Obligations.MixZeroIsTheDrySignal : Prop :=
  (∀ (fs : F32) (p : Params), (latchParams fs p).mix.eq F32.zero = true ↔
    p.mix.isNaN = true ∨ p.mix.isZero = true ∨ p.mix.sign = true) ∧
  (∀ (c : Channel) (s : State), s.active.mix.eq F32.zero = true →
    ∃ t, exec (.mix c) s = .next t ∧ t.frame.wires.o = (s.frame.wires.dry c).mul s.derived.outGain)

/-! ### Invariants that every step keeps -/

/-- Every memory stays in canonical form and no delay RAM grows beyond its 4096 words. -/
def Obligations.StepKeepsMemoryCanonical : Prop :=
  ∀ s t : State, s.memoryOk = true → step s = .next t → t.memoryOk = true

/-- A frame in progress stays at a stage of the frame sequence, with its index below the frame count, in a command that
met its preconditions. The stage position is the model's field (log 4). -/
def Obligations.StepKeepsTheSequenceLegal : Prop :=
  ∀ s t : State, s.sequenceOk = true → step s = .next t → t.sequenceOk = true

/-- The two write cursors stay equal, but between their two advances of a frame. -/
def Obligations.StepKeepsTheCursorsEqual : Prop :=
  ∀ s t : State, s.cursorsOk = true → step s = .next t → t.cursorsOk = true

/-- Once a RESET has succeeded the random source is never zero, and FS is finite and strictly positive. -/
def Obligations.StepKeepsWhatResetEstablishes : Prop :=
  ∀ s t : State, step s = .next t →
    (s.randomOk = true → t.randomOk = true) ∧ (s.sampleRateOk = true → t.sampleRateOk = true)

/-- The jitter accumulator never leaves its range. -/
def Obligations.StepKeepsTheJitterBounded : Prop :=
  ∀ s t : State, s.jitterOk = true → step s = .next t → t.jitterOk = true

/-- The envelope never leaves [0, 1], and HALF stays what keeps it there. -/
def Obligations.StepKeepsTheEnvelopeBounded : Prop :=
  ∀ s t : State, s.envelopeOk = true → step s = .next t → t.envelopeOk = true

/-- The power-on state meets every one of these invariants. The values that the spec does not give (log 1) meet them
too: that part is the model's choice. -/
def Obligations.PowerOnMeetsTheInvariants : Prop :=
  State.reset.memoryOk = true ∧ State.reset.sequenceOk = true ∧ State.reset.cursorsOk = true ∧
    State.reset.randomOk = true ∧ State.reset.sampleRateOk = true ∧ State.reset.jitterOk = true ∧
    State.reset.envelopeOk = true ∧ State.reset.ready = false ∧ State.reset.pvalid = false ∧
    State.reset.ended = true

/-- A block cannot fault once its first frame has begun: in a legal sequence every stage gives a next state (R256). -/
def Obligations.BlockNeverFaults : Prop :=
  ∀ s : State, s.sequenceOk = true → s.frame.stage ≠ none → ∃ t, step s = .next t

/-! ### Rules about the whole machine -/

/-- Every register has its writers: READY, FS and BLKSZ are RESET's, PVALID is RESET's and SETPARAMS's, P is SETPARAMS's,
A and the derived registers are the latch's, RNG is written by RESET and the three drawing stages, the dropout state by
RESET and DROP, the modulation state by RESET and MOD, the delay RAMs and the cursors by RESET and DLYWR, the filter
registers Z by RESET and FLT, the saturator histories XP and YP by RESET and SAT, OUT by OUTWR, and IN by no stage (R24,
R28, R65, R130); the host's new IN contents are taken with a PROCESS (log 6). -/
def Obligations.RegistersHaveTheirWriters : Prop :=
  ∀ (i : Instr) (s t : State), exec i s = .next t →
    ((∀ fs block, i ≠ .reset fs block) → t.ready = s.ready ∧ t.fs = s.fs ∧ t.blksz = s.blksz) ∧
    ((∀ fs block, i ≠ .reset fs block) → (∀ v, i ≠ .setparams v) → t.pvalid = s.pvalid) ∧
    ((∀ v, i ≠ .setparams v) → t.staged = s.staged) ∧
    ((∀ ch f, i ≠ .process ch f) → t.active = s.active ∧ t.derived = s.derived ∧ t.inBuf = s.inBuf) ∧
    ((∀ fs block, i ≠ .reset fs block) → i ≠ .mod → (∀ c, i ≠ .noise c) → i ≠ .drop → t.rng = s.rng) ∧
    ((∀ fs block, i ≠ .reset fs block) → i ≠ .drop → t.drop = s.drop) ∧
    ((∀ fs block, i ≠ .reset fs block) → i ≠ .mod → t.modu = s.modu) ∧
    ((∀ fs block, i ≠ .reset fs block) → (∀ c, i ≠ .dlywr c) →
      t.left.dly = s.left.dly ∧ t.left.w = s.left.w ∧ t.right.dly = s.right.dly ∧ t.right.w = s.right.w) ∧
    ((∀ fs block, i ≠ .reset fs block) → (∀ c, i ≠ .flt c) → t.left.z = s.left.z ∧ t.right.z = s.right.z) ∧
    ((∀ fs block, i ≠ .reset fs block) → (∀ c, i ≠ .sat c) →
      t.left.xp = s.left.xp ∧ t.left.yp = s.left.yp ∧ t.right.xp = s.right.xp ∧ t.right.yp = s.right.yp) ∧
    ((∀ c, i ≠ .outwr c) → t.outBuf = s.outBuf)

/-- Nothing of one channel reaches the other's output (R203, R245, R288): two states that agree on everything channel
`c` depends on still agree after any number of frames, whatever the other channel's state and input. -/
def Obligations.ChannelsAreIsolated : Prop :=
  ∀ (c : Channel) (k : Nat) (n : Word) (channels : BitVec 8) (s t : State),
    s.outBuf.wf = true → t.outBuf.wf = true → agreeOn c s t →
    agreeOn c (frames k n channels s) (frames k n channels t)

/-- No frame reads or writes a channel beyond the first two: two states that differ only in the words of IN of those
channels give the same registers and the same OUT; IN is unchanged, OUT is unchanged there, and any channel count of two
or more does what two does (R65, R108, R111). -/
def Obligations.ExtraChannelsAreUntouched : Prop :=
  ∀ (k : Nat) (n : Word) (channels : BitVec 8) (s : State),
    (frames k n channels s).inBuf = s.inBuf ∧
    (∀ input : Mem, (∀ (c : Nat) (j : Word), c < 2 → memRead input c j = memRead s.inBuf c j) →
      frames k n channels { s with inBuf := input } = { frames k n channels s with inBuf := input }) ∧
    (∀ (c : Nat) (j : Word), 2 ≤ c → memRead (frames k n channels s).outBuf c j = memRead s.outBuf c j) ∧
    (2 ≤ channels.toNat → frames k n channels s = frames k n 2#8 s)

/-- After a RESET, a SETPARAMS and a PROCESS the state and the output are a function of the commands and the buffers
alone, whatever the engine held before: two runs from reset are bit-identical, in their state and in every word they write
(R134), to the end of the stream and with any fuel that reaches past the three commands (R296). The commands and the
buffers in the state, the step a stage and the index of the next command are the model's (log 4, log 6, log 8). -/
def Obligations.RunsFromResetAreIdentical : Prop :=
  ∀ (s1 s2 : State) (fs block : Word) (v : ParamWords) (channels : BitVec 8) (frameCount : Word) (rest : List Word),
    s1.atBoundary = true → s2.atBoundary = true →
    s1.port = portWords (.reset fs block) ++ portWords (.setparams v) ++ portWords (.process channels frameCount) ++ rest →
    s2.port = s1.port → s2.feeds = s1.feeds → s2.inBuf = s1.inBuf → s2.outBuf = s1.outBuf → s2.cmdIndex = s1.cmdIndex →
    (F32.mk fs).isFinite = true → (F32.mk fs).gt F32.zero = true → v.mainsOk = true → v.tstopOk = true →
    (∃ t, run (3 + 21 * frameCount.toNat) s1 = .next t ∧
      run (3 + 21 * frameCount.toNat) s2 = .next t) ∧
    ∀ k : Nat, runStream (k + 3) s1 = runStream (k + 3) s2

/-! ### Arithmetic and memory -/

/-- The operations of R10. Sum, difference, product, quotient and square root of finite values, and the conversion of an
integer, are correctly rounded, to nearest, ties to even (R9); the root of a negative value is a NaN; `floor` is exactly
the greatest integral value not above its argument; `f2i` of an integral value is the integer, saturated to the range it
is converted into, and of an infinity the range's end. The format, what lies beyond its greatest value and the root of a
negative value are IEEE 754's, from outside the spec (PRESUMED, log 12). -/
def Obligations.OperationsAreCorrectlyRounded : Prop :=
  (∀ a b : F32, a.isFinite = true → b.isFinite = true →
    correctlyRounded (a.add b) (a.toInt + b.toInt) 1 ∧ correctlyRounded (a.sub b) (a.toInt - b.toInt) 1 ∧
      correctlyRounded (a.mul b) (a.toInt * b.toInt) (2 ^ 149) ∧
      (b.isZero = false → correctlyRounded (a.div b) (a.toInt * 2 ^ 149) b.toInt)) ∧
  (∀ a : F32, a.isFinite = true →
    (0 ≤ a.toInt → correctlyRoundedRoot a.sqrt (a.toInt * 2 ^ 149)) ∧ (a.toInt < 0 → a.sqrt.isNaN = true)) ∧
  (∀ k : Int, correctlyRounded (F32.ofInt k) (k * 2 ^ 149) 1) ∧
  (∀ a : F32, a.isFinite = true →
    integral a.floor ∧ a.floor.toInt ≤ a.toInt ∧
      ∀ z : F32, integral z → z.toInt ≤ a.toInt → z.toInt ≤ a.floor.toInt) ∧
  (∀ (lo hi : Int) (a : F32), lo ≤ hi →
    (integral a → F32.f2i lo hi a = Max.max lo (Min.min hi (a.toInt / 2 ^ 149))) ∧
      (a.isInf = true → F32.f2i lo hi a = if a.sign then lo else hi))

/-- `clamp` passes a value inside its bounds, sends a smaller one and a NaN to the lower bound and a greater one to the
upper (R13). -/
def Obligations.ClampForcesIntoRange : Prop :=
  ∀ x lo hi : F32, lo.le hi = true →
    (lo.le x = true → x.le hi = true → F32.clamp x lo hi = x) ∧
    (x.lt lo = true → F32.clamp x lo hi = lo) ∧ (x.isNaN = true → F32.clamp x lo hi = lo) ∧
    (hi.lt x = true → F32.clamp x lo hi = hi)

/-- A word stored in a buffer reads back, its lowest byte at the lowest address (R63), and every other word is as it
was. -/
def Obligations.BufferReadAfterWrite : Prop :=
  ∀ (m : Mem) (c d : Nat) (j k : Word) (v : F32), m.wf = true →
    (memWrite m c k v).wf = true ∧ memRead (memWrite m c k v) c k = v ∧
      (memWrite m c k v).readByte (4 * bufferIndex c k) = v.bits.extractLsb' 0 8 ∧
      (d ≠ c ∨ j ≠ k → memRead (memWrite m c k v) d j = memRead m d j)
end

