-- ==== Sys2Proof/Laws/Memory.lean ====
section
/-! SUPPORT. What the memory operations can do: they keep the canonical form, a read after a write to the same place
gives the value written, and a write leaves every other place alone. -/

namespace Sys2Proof.Machine

/-- The canonical form, as a proposition. -/
theorem Mem.wf_iff (m : Mem) :
    m.wf = true ↔ m.Pairwise (fun a b => a.1 < b.1) ∧ ∀ e ∈ m, e.2 ≠ Mem.unlisted := by
  simp [Mem.wf]

theorem Mem.wf_nil : Mem.wf [] = true := by decide

theorem Mem.wf_cons (k : Nat) (b : Byte) (t : Mem) :
    Mem.wf ((k, b) :: t) = true ↔ (∀ e ∈ t, k < e.1) ∧ b ≠ Mem.unlisted ∧ t.wf = true := by
  simp only [Mem.wf_iff, List.pairwise_cons, List.mem_cons, forall_eq_or_imp]
  tauto

/-- Where every listed address is above `a`, `a` reads as unlisted. -/
theorem Mem.readByte_below (m : Mem) (a : Nat) (h : ∀ e ∈ m, a < e.1) : m.readByte a = Mem.unlisted := by
  induction m with
  | nil => rfl
  | cons e t ih =>
    obtain ⟨k, b⟩ := e
    have hk : a < k := h _ (List.mem_cons_self ..)
    rw [Mem.readByte, if_neg (by omega)]
    exact ih fun e he => h e (List.mem_cons_of_mem _ he)

theorem Mem.readByte_cons_same (a : Nat) (v : Byte) (t : Mem) (h : ∀ e ∈ t, a < e.1) :
    (Mem.cons a v t).readByte a = v := by
  unfold Mem.cons
  split
  · next hv => rw [Mem.readByte_below t a h, hv]
  · simp [Mem.readByte]

theorem Mem.readByte_cons_other (a b : Nat) (v : Byte) (t : Mem) (h : b ≠ a) :
    (Mem.cons a v t).readByte b = t.readByte b := by
  unfold Mem.cons
  split
  · rfl
  · rw [Mem.readByte, if_neg (fun e => h e.symm)]

theorem Mem.wf_cons_op (a : Nat) (v : Byte) (t : Mem) (h : ∀ e ∈ t, a < e.1) (ht : t.wf = true) :
    (Mem.cons a v t).wf = true := by
  unfold Mem.cons
  split
  · exact ht
  · next hv => exact (Mem.wf_cons a v t).2 ⟨h, hv, ht⟩

theorem Mem.mem_cons_op {a : Nat} {v : Byte} {t : Mem} {e : Host.Cell} (h : e ∈ Mem.cons a v t) :
    e.1 = a ∨ e ∈ t := by
  unfold Mem.cons at h
  split at h
  · exact .inr h
  · rcases List.mem_cons.1 h with rfl | h
    · exact .inl rfl
    · exact .inr h

/-- A write lists no address but the one written and those listed before. -/
theorem Mem.mem_writeByte {m : Mem} {a : Nat} {v : Byte} {e : Host.Cell} (h : e ∈ m.writeByte a v) :
    e.1 = a ∨ e ∈ m := by
  induction m with
  | nil => exact (Mem.mem_cons_op h).imp_right id
  | cons x t ih =>
    obtain ⟨k, b⟩ := x
    simp only [Mem.writeByte] at h
    split at h
    · exact Mem.mem_cons_op h
    · split at h
      · exact (Mem.mem_cons_op h).imp_right (List.mem_cons_of_mem _)
      · rcases List.mem_cons.1 h with rfl | h
        · exact .inr (List.mem_cons_self ..)
        · exact (ih h).imp_right (List.mem_cons_of_mem _)

/-- A write keeps the canonical form. -/
theorem Mem.writeByte_wf (m : Mem) (a : Nat) (v : Byte) (h : m.wf = true) : (m.writeByte a v).wf = true := by
  induction m with
  | nil => exact Mem.wf_cons_op a v [] (by simp) h
  | cons x t ih =>
    obtain ⟨k, b⟩ := x
    obtain ⟨hk, hb, ht⟩ := (Mem.wf_cons k b t).1 h
    simp only [Mem.writeByte]
    split
    · next hlt =>
      refine Mem.wf_cons_op a v _ (fun e he => ?_) h
      rcases List.mem_cons.1 he with rfl | he
      · exact hlt
      · exact hlt.trans (hk e he)
    · split
      · next heq => exact Mem.wf_cons_op a v t (fun e he => heq ▸ hk e he) ht
      · next hge hne =>
        refine (Mem.wf_cons _ _ _).2 ⟨fun e he => ?_, hb, ih ht⟩
        rcases Mem.mem_writeByte he with h1 | h1
        · omega
        · exact hk e h1

/-- A read after a write to the same address gives the byte written. -/
theorem Mem.readByte_writeByte_same (m : Mem) (a : Nat) (v : Byte) (h : m.wf = true) :
    (m.writeByte a v).readByte a = v := by
  induction m with
  | nil => exact Mem.readByte_cons_same a v [] (by simp)
  | cons x t ih =>
    obtain ⟨k, b⟩ := x
    obtain ⟨hk, -, ht⟩ := (Mem.wf_cons k b t).1 h
    simp only [Mem.writeByte]
    split
    · next hlt =>
      refine Mem.readByte_cons_same a v _ (fun e he => ?_)
      rcases List.mem_cons.1 he with rfl | he
      · exact hlt
      · exact hlt.trans (hk e he)
    · split
      · next heq => exact Mem.readByte_cons_same a v t (fun e he => heq ▸ hk e he)
      · next hge hne => rw [Mem.readByte, if_neg (fun e => hne e.symm)]; exact ih ht

/-- A write leaves every other address alone. -/
theorem Mem.readByte_writeByte_other (m : Mem) (a b : Nat) (v : Byte) (hb : b ≠ a) :
    (m.writeByte a v).readByte b = m.readByte b := by
  induction m with
  | nil => exact Mem.readByte_cons_other a b v [] hb
  | cons x t ih =>
    obtain ⟨k, w⟩ := x
    simp only [Mem.writeByte]
    split
    · exact Mem.readByte_cons_other a b v _ hb
    · split
      · next heq =>
        subst heq
        rw [Mem.readByte_cons_other a b v _ hb, Mem.readByte, if_neg (fun e => hb e.symm)]
      · simp only [Mem.readByte]; split
        · rfl
        · exact ih

/-- Two memories in canonical form that read alike everywhere are equal. -/
theorem Mem.ext_of_readByte (m n : Mem) (hm : m.wf = true) (hn : n.wf = true)
    (h : ∀ a, m.readByte a = n.readByte a) : m = n := by
  induction m generalizing n with
  | nil =>
    cases n with
    | nil => rfl
    | cons y u =>
      obtain ⟨k, b⟩ := y
      obtain ⟨-, hb, -⟩ := (Mem.wf_cons k b u).1 hn
      exact absurd (by simpa [Mem.readByte] using (h k).symm) hb
  | cons x t ih =>
    obtain ⟨j, a⟩ := x
    obtain ⟨hj, ha, ht⟩ := (Mem.wf_cons j a t).1 hm
    cases n with
    | nil => exact absurd (by simpa [Mem.readByte] using h j) ha
    | cons y u =>
      obtain ⟨k, b⟩ := y
      obtain ⟨hk, hb, hu⟩ := (Mem.wf_cons k b u).1 hn
      have hjk : j = k := by
        rcases Nat.lt_trichotomy j k with hlt | heq | hgt
        · have := h j
          rw [Mem.readByte_below ((k, b) :: u) j] at this
          · exact absurd (by simpa [Mem.readByte] using this) ha
          · intro e he
            rcases List.mem_cons.1 he with rfl | he
            · exact hlt
            · exact hlt.trans (hk e he)
        · exact heq
        · have := h k
          rw [Mem.readByte_below ((j, a) :: t) k] at this
          · exact absurd (by simpa [Mem.readByte] using this.symm) hb
          · intro e he
            rcases List.mem_cons.1 he with rfl | he
            · exact hgt
            · exact hgt.trans (hj e he)
      subst hjk
      have hab : a = b := by simpa [Mem.readByte] using h j
      subst hab
      rw [ih u ht hu fun c => ?_]
      by_cases hc : j = c
      · subst hc; rw [Mem.readByte_below t j hj, Mem.readByte_below u j hk]
      · simpa [Mem.readByte, hc] using h c

/-! ### Words -/

theorem Mem.writeWord_wf (m : Mem) (k : Nat) (v : Word) (h : m.wf = true) : (m.writeWord k v).wf = true :=
  Mem.writeByte_wf _ _ _ (Mem.writeByte_wf _ _ _ (Mem.writeByte_wf _ _ _ (Mem.writeByte_wf _ _ _ h)))

/-- A word's write lists no address but its own four bytes and those listed before. -/
theorem Mem.mem_writeWord {m : Mem} {k : Nat} {v : Word} {e : Host.Cell} (h : e ∈ m.writeWord k v) :
    (4 * k ≤ e.1 ∧ e.1 < 4 * k + 4) ∨ e ∈ m := by
  rcases Mem.mem_writeByte h with h | h
  · omega
  · rcases Mem.mem_writeByte h with h | h
    · omega
    · rcases Mem.mem_writeByte h with h | h
      · omega
      · rcases Mem.mem_writeByte h with h | h
        · omega
        · exact .inr h

/-- A word's write leaves every byte outside the word alone. -/
theorem Mem.readByte_writeWord_other (m : Mem) (k a : Nat) (v : Word) (h : a < 4 * k ∨ 4 * k + 4 ≤ a) :
    (m.writeWord k v).readByte a = m.readByte a := by
  unfold Mem.writeWord
  rw [Mem.readByte_writeByte_other _ _ _ _ (by omega), Mem.readByte_writeByte_other _ _ _ _ (by omega),
    Mem.readByte_writeByte_other _ _ _ _ (by omega), Mem.readByte_writeByte_other _ _ _ _ (by omega)]

/-- A read after a write to the same word gives the word written. -/
theorem Mem.readWord_writeWord_same (m : Mem) (k : Nat) (v : Word) (h : m.wf = true) :
    (m.writeWord k v).readWord k = v := by
  have h1 := Mem.writeByte_wf m (4 * k) (v.extractLsb' 0 8) h
  have h2 := Mem.writeByte_wf _ (4 * k + 1) (v.extractLsb' 8 8) h1
  have h3 := Mem.writeByte_wf _ (4 * k + 2) (v.extractLsb' 16 8) h2
  have b3 := Mem.readByte_writeByte_same _ (4 * k + 3) (v.extractLsb' 24 8) h3
  have b2 := Mem.readByte_writeByte_same _ (4 * k + 2) (v.extractLsb' 16 8) h2
  have b1 := Mem.readByte_writeByte_same _ (4 * k + 1) (v.extractLsb' 8 8) h1
  have b0 := Mem.readByte_writeByte_same _ (4 * k) (v.extractLsb' 0 8) h
  unfold Mem.readWord Mem.writeWord
  rw [b3, Mem.readByte_writeByte_other _ _ (4 * k + 2) _ (by omega), b2,
    Mem.readByte_writeByte_other _ _ (4 * k + 1) _ (by omega),
    Mem.readByte_writeByte_other _ _ (4 * k + 1) _ (by omega), b1,
    Mem.readByte_writeByte_other _ _ (4 * k) _ (by omega), Mem.readByte_writeByte_other _ _ (4 * k) _ (by omega),
    Mem.readByte_writeByte_other _ _ (4 * k) _ (by omega), b0]
  ext i hi
  simp only [BitVec.getElem_append, BitVec.getElem_extractLsb']
  split
  · simp [BitVec.getLsbD_eq_getElem hi]
  · split
    · simp only [BitVec.getLsbD_eq_getElem (show 8 + (i - 8) < 32 by omega)]; congr 1; omega
    · split
      · simp only [BitVec.getLsbD_eq_getElem (show 16 + (i - 8 - 8) < 32 by omega)]; congr 1; omega
      · simp only [BitVec.getLsbD_eq_getElem (show 24 + (i - 8 - 8 - 8) < 32 by omega)]; congr 1; omega

/-- A write to one word leaves every other word alone. -/
theorem Mem.readWord_writeWord_other (m : Mem) (j k : Nat) (v : Word) (h : j ≠ k) :
    (m.writeWord k v).readWord j = m.readWord j := by
  unfold Mem.readWord
  rw [Mem.readByte_writeWord_other _ _ _ _ (by omega), Mem.readByte_writeWord_other _ _ _ _ (by omega),
    Mem.readByte_writeWord_other _ _ _ _ (by omega), Mem.readByte_writeWord_other _ _ _ _ (by omega)]

/-- The empty memory reads as zero everywhere. -/
@[simp] theorem Mem.readWord_nil (k : Nat) : Mem.readWord [] k = 0 := by
  show (0#8 ++ 0#8 ++ 0#8 ++ 0#8 : Word) = 0
  decide

/-! ### The delay RAM and the buffers -/

theorem ramOk_writeWord (m : Mem) (a : BitVec 12) (v : Word) (h : ramOk m = true) :
    ramOk (m.writeWord a.toNat v) = true := by
  simp only [ramOk, Bool.and_eq_true, List.all_eq_true, decide_eq_true_eq] at h ⊢
  refine ⟨Mem.writeWord_wf _ _ _ h.1, fun e he => ?_⟩
  have := a.isLt
  rcases Mem.mem_writeWord he with h1 | h1
  · omega
  · exact h.2 e h1

theorem ramOk_wf (m : Mem) (h : ramOk m = true) : m.wf = true := by
  simp only [ramOk, Bool.and_eq_true] at h; exact h.1

/-- Distinct samples of a buffer have distinct word indices. -/
theorem bufferIndex_inj (c d : Nat) (j k : Word) (h : bufferIndex c j = bufferIndex d k) : c = d ∧ j = k := by
  unfold bufferIndex at h
  have := j.isLt; have := k.isLt
  have hc : c = d := by omega
  subst hc
  exact ⟨rfl, BitVec.eq_of_toNat_eq (by omega)⟩

theorem memRead_memWrite_same (m : Mem) (c : Nat) (k : Word) (v : F32) (h : m.wf = true) :
    memRead (memWrite m c k v) c k = v := by
  unfold memRead memWrite; rw [Mem.readWord_writeWord_same _ _ _ h]

theorem memRead_memWrite_other (m : Mem) (c d : Nat) (j k : Word) (v : F32) (h : d ≠ c ∨ j ≠ k) :
    memRead (memWrite m c k v) d j = memRead m d j := by
  unfold memRead memWrite
  rw [Mem.readWord_writeWord_other _ _ _ _ fun e => ?_]
  obtain ⟨h1, h2⟩ := bufferIndex_inj _ _ _ _ e
  rcases h with h | h <;> contradiction

theorem memWrite_wf (m : Mem) (c : Nat) (k : Word) (v : F32) (h : m.wf = true) : (memWrite m c k v).wf = true :=
  Mem.writeWord_wf _ _ _ h

end Sys2Proof.Machine
end

