-- ==== Sys2Proof/Laws/State.lean ====
section
/-! SUPPORT. One lemma per field per update of the state, so that no proof unfolds an update. -/

namespace Sys2Proof.Machine

/-! ### setModu -/

@[simp] theorem State.setModu_ready (s : State) (v : Modulation) : (s.setModu v).ready = s.ready := rfl
@[simp] theorem State.setModu_pvalid (s : State) (v : Modulation) : (s.setModu v).pvalid = s.pvalid := rfl
@[simp] theorem State.setModu_fs (s : State) (v : Modulation) : (s.setModu v).fs = s.fs := rfl
@[simp] theorem State.setModu_blksz (s : State) (v : Modulation) : (s.setModu v).blksz = s.blksz := rfl
@[simp] theorem State.setModu_staged (s : State) (v : Modulation) : (s.setModu v).staged = s.staged := rfl
@[simp] theorem State.setModu_active (s : State) (v : Modulation) : (s.setModu v).active = s.active := rfl
@[simp] theorem State.setModu_derived (s : State) (v : Modulation) : (s.setModu v).derived = s.derived := rfl
@[simp] theorem State.setModu_left (s : State) (v : Modulation) : (s.setModu v).left = s.left := rfl
@[simp] theorem State.setModu_right (s : State) (v : Modulation) : (s.setModu v).right = s.right := rfl
@[simp] theorem State.setModu_modu (s : State) (v : Modulation) : (s.setModu v).modu = v := rfl
@[simp] theorem State.setModu_drop (s : State) (v : Modulation) : (s.setModu v).drop = s.drop := rfl
@[simp] theorem State.setModu_rng (s : State) (v : Modulation) : (s.setModu v).rng = s.rng := rfl
@[simp] theorem State.setModu_inBuf (s : State) (v : Modulation) : (s.setModu v).inBuf = s.inBuf := rfl
@[simp] theorem State.setModu_outBuf (s : State) (v : Modulation) : (s.setModu v).outBuf = s.outBuf := rfl
@[simp] theorem State.setModu_frame (s : State) (v : Modulation) : (s.setModu v).frame = s.frame := rfl
@[simp] theorem State.setModu_resetPin (s : State) (v : Modulation) : (s.setModu v).resetPin = s.resetPin := rfl
@[simp] theorem State.setModu_port (s : State) (v : Modulation) : (s.setModu v).port = s.port := rfl
@[simp] theorem State.setModu_feeds (s : State) (v : Modulation) : (s.setModu v).feeds = s.feeds := rfl
@[simp] theorem State.setModu_cmdIndex (s : State) (v : Modulation) : (s.setModu v).cmdIndex = s.cmdIndex := rfl
@[simp] theorem State.setModu_channel (s : State) (v : Modulation) (c : Channel) : (s.setModu v).channel c = s.channel c := rfl

/-! ### setDrop -/

@[simp] theorem State.setDrop_ready (s : State) (v : Dropout) : (s.setDrop v).ready = s.ready := rfl
@[simp] theorem State.setDrop_pvalid (s : State) (v : Dropout) : (s.setDrop v).pvalid = s.pvalid := rfl
@[simp] theorem State.setDrop_fs (s : State) (v : Dropout) : (s.setDrop v).fs = s.fs := rfl
@[simp] theorem State.setDrop_blksz (s : State) (v : Dropout) : (s.setDrop v).blksz = s.blksz := rfl
@[simp] theorem State.setDrop_staged (s : State) (v : Dropout) : (s.setDrop v).staged = s.staged := rfl
@[simp] theorem State.setDrop_active (s : State) (v : Dropout) : (s.setDrop v).active = s.active := rfl
@[simp] theorem State.setDrop_derived (s : State) (v : Dropout) : (s.setDrop v).derived = s.derived := rfl
@[simp] theorem State.setDrop_left (s : State) (v : Dropout) : (s.setDrop v).left = s.left := rfl
@[simp] theorem State.setDrop_right (s : State) (v : Dropout) : (s.setDrop v).right = s.right := rfl
@[simp] theorem State.setDrop_modu (s : State) (v : Dropout) : (s.setDrop v).modu = s.modu := rfl
@[simp] theorem State.setDrop_drop (s : State) (v : Dropout) : (s.setDrop v).drop = v := rfl
@[simp] theorem State.setDrop_rng (s : State) (v : Dropout) : (s.setDrop v).rng = s.rng := rfl
@[simp] theorem State.setDrop_inBuf (s : State) (v : Dropout) : (s.setDrop v).inBuf = s.inBuf := rfl
@[simp] theorem State.setDrop_outBuf (s : State) (v : Dropout) : (s.setDrop v).outBuf = s.outBuf := rfl
@[simp] theorem State.setDrop_frame (s : State) (v : Dropout) : (s.setDrop v).frame = s.frame := rfl
@[simp] theorem State.setDrop_resetPin (s : State) (v : Dropout) : (s.setDrop v).resetPin = s.resetPin := rfl
@[simp] theorem State.setDrop_port (s : State) (v : Dropout) : (s.setDrop v).port = s.port := rfl
@[simp] theorem State.setDrop_feeds (s : State) (v : Dropout) : (s.setDrop v).feeds = s.feeds := rfl
@[simp] theorem State.setDrop_cmdIndex (s : State) (v : Dropout) : (s.setDrop v).cmdIndex = s.cmdIndex := rfl
@[simp] theorem State.setDrop_channel (s : State) (v : Dropout) (c : Channel) : (s.setDrop v).channel c = s.channel c := rfl

/-! ### setRng -/

@[simp] theorem State.setRng_ready (s : State) (v : Word) : (s.setRng v).ready = s.ready := rfl
@[simp] theorem State.setRng_pvalid (s : State) (v : Word) : (s.setRng v).pvalid = s.pvalid := rfl
@[simp] theorem State.setRng_fs (s : State) (v : Word) : (s.setRng v).fs = s.fs := rfl
@[simp] theorem State.setRng_blksz (s : State) (v : Word) : (s.setRng v).blksz = s.blksz := rfl
@[simp] theorem State.setRng_staged (s : State) (v : Word) : (s.setRng v).staged = s.staged := rfl
@[simp] theorem State.setRng_active (s : State) (v : Word) : (s.setRng v).active = s.active := rfl
@[simp] theorem State.setRng_derived (s : State) (v : Word) : (s.setRng v).derived = s.derived := rfl
@[simp] theorem State.setRng_left (s : State) (v : Word) : (s.setRng v).left = s.left := rfl
@[simp] theorem State.setRng_right (s : State) (v : Word) : (s.setRng v).right = s.right := rfl
@[simp] theorem State.setRng_modu (s : State) (v : Word) : (s.setRng v).modu = s.modu := rfl
@[simp] theorem State.setRng_drop (s : State) (v : Word) : (s.setRng v).drop = s.drop := rfl
@[simp] theorem State.setRng_rng (s : State) (v : Word) : (s.setRng v).rng = v := rfl
@[simp] theorem State.setRng_inBuf (s : State) (v : Word) : (s.setRng v).inBuf = s.inBuf := rfl
@[simp] theorem State.setRng_outBuf (s : State) (v : Word) : (s.setRng v).outBuf = s.outBuf := rfl
@[simp] theorem State.setRng_frame (s : State) (v : Word) : (s.setRng v).frame = s.frame := rfl
@[simp] theorem State.setRng_resetPin (s : State) (v : Word) : (s.setRng v).resetPin = s.resetPin := rfl
@[simp] theorem State.setRng_port (s : State) (v : Word) : (s.setRng v).port = s.port := rfl
@[simp] theorem State.setRng_feeds (s : State) (v : Word) : (s.setRng v).feeds = s.feeds := rfl
@[simp] theorem State.setRng_cmdIndex (s : State) (v : Word) : (s.setRng v).cmdIndex = s.cmdIndex := rfl
@[simp] theorem State.setRng_channel (s : State) (v : Word) (c : Channel) : (s.setRng v).channel c = s.channel c := rfl

/-! ### setOut -/

@[simp] theorem State.setOut_ready (s : State) (v : Mem) : (s.setOut v).ready = s.ready := rfl
@[simp] theorem State.setOut_pvalid (s : State) (v : Mem) : (s.setOut v).pvalid = s.pvalid := rfl
@[simp] theorem State.setOut_fs (s : State) (v : Mem) : (s.setOut v).fs = s.fs := rfl
@[simp] theorem State.setOut_blksz (s : State) (v : Mem) : (s.setOut v).blksz = s.blksz := rfl
@[simp] theorem State.setOut_staged (s : State) (v : Mem) : (s.setOut v).staged = s.staged := rfl
@[simp] theorem State.setOut_active (s : State) (v : Mem) : (s.setOut v).active = s.active := rfl
@[simp] theorem State.setOut_derived (s : State) (v : Mem) : (s.setOut v).derived = s.derived := rfl
@[simp] theorem State.setOut_left (s : State) (v : Mem) : (s.setOut v).left = s.left := rfl
@[simp] theorem State.setOut_right (s : State) (v : Mem) : (s.setOut v).right = s.right := rfl
@[simp] theorem State.setOut_modu (s : State) (v : Mem) : (s.setOut v).modu = s.modu := rfl
@[simp] theorem State.setOut_drop (s : State) (v : Mem) : (s.setOut v).drop = s.drop := rfl
@[simp] theorem State.setOut_rng (s : State) (v : Mem) : (s.setOut v).rng = s.rng := rfl
@[simp] theorem State.setOut_inBuf (s : State) (v : Mem) : (s.setOut v).inBuf = s.inBuf := rfl
@[simp] theorem State.setOut_outBuf (s : State) (v : Mem) : (s.setOut v).outBuf = v := rfl
@[simp] theorem State.setOut_frame (s : State) (v : Mem) : (s.setOut v).frame = s.frame := rfl
@[simp] theorem State.setOut_resetPin (s : State) (v : Mem) : (s.setOut v).resetPin = s.resetPin := rfl
@[simp] theorem State.setOut_port (s : State) (v : Mem) : (s.setOut v).port = s.port := rfl
@[simp] theorem State.setOut_feeds (s : State) (v : Mem) : (s.setOut v).feeds = s.feeds := rfl
@[simp] theorem State.setOut_cmdIndex (s : State) (v : Mem) : (s.setOut v).cmdIndex = s.cmdIndex := rfl
@[simp] theorem State.setOut_channel (s : State) (v : Mem) (c : Channel) : (s.setOut v).channel c = s.channel c := rfl

/-! ### setFrame -/

@[simp] theorem State.setFrame_ready (s : State) (v : FrameCtx) : (s.setFrame v).ready = s.ready := rfl
@[simp] theorem State.setFrame_pvalid (s : State) (v : FrameCtx) : (s.setFrame v).pvalid = s.pvalid := rfl
@[simp] theorem State.setFrame_fs (s : State) (v : FrameCtx) : (s.setFrame v).fs = s.fs := rfl
@[simp] theorem State.setFrame_blksz (s : State) (v : FrameCtx) : (s.setFrame v).blksz = s.blksz := rfl
@[simp] theorem State.setFrame_staged (s : State) (v : FrameCtx) : (s.setFrame v).staged = s.staged := rfl
@[simp] theorem State.setFrame_active (s : State) (v : FrameCtx) : (s.setFrame v).active = s.active := rfl
@[simp] theorem State.setFrame_derived (s : State) (v : FrameCtx) : (s.setFrame v).derived = s.derived := rfl
@[simp] theorem State.setFrame_left (s : State) (v : FrameCtx) : (s.setFrame v).left = s.left := rfl
@[simp] theorem State.setFrame_right (s : State) (v : FrameCtx) : (s.setFrame v).right = s.right := rfl
@[simp] theorem State.setFrame_modu (s : State) (v : FrameCtx) : (s.setFrame v).modu = s.modu := rfl
@[simp] theorem State.setFrame_drop (s : State) (v : FrameCtx) : (s.setFrame v).drop = s.drop := rfl
@[simp] theorem State.setFrame_rng (s : State) (v : FrameCtx) : (s.setFrame v).rng = s.rng := rfl
@[simp] theorem State.setFrame_inBuf (s : State) (v : FrameCtx) : (s.setFrame v).inBuf = s.inBuf := rfl
@[simp] theorem State.setFrame_outBuf (s : State) (v : FrameCtx) : (s.setFrame v).outBuf = s.outBuf := rfl
@[simp] theorem State.setFrame_frame (s : State) (v : FrameCtx) : (s.setFrame v).frame = v := rfl
@[simp] theorem State.setFrame_resetPin (s : State) (v : FrameCtx) : (s.setFrame v).resetPin = s.resetPin := rfl
@[simp] theorem State.setFrame_port (s : State) (v : FrameCtx) : (s.setFrame v).port = s.port := rfl
@[simp] theorem State.setFrame_feeds (s : State) (v : FrameCtx) : (s.setFrame v).feeds = s.feeds := rfl
@[simp] theorem State.setFrame_cmdIndex (s : State) (v : FrameCtx) : (s.setFrame v).cmdIndex = s.cmdIndex := rfl
@[simp] theorem State.setFrame_channel (s : State) (v : FrameCtx) (c : Channel) : (s.setFrame v).channel c = s.channel c := rfl

/-! ### setWires -/

@[simp] theorem State.setWires_ready (s : State) (v : Wires) : (s.setWires v).ready = s.ready := rfl
@[simp] theorem State.setWires_pvalid (s : State) (v : Wires) : (s.setWires v).pvalid = s.pvalid := rfl
@[simp] theorem State.setWires_fs (s : State) (v : Wires) : (s.setWires v).fs = s.fs := rfl
@[simp] theorem State.setWires_blksz (s : State) (v : Wires) : (s.setWires v).blksz = s.blksz := rfl
@[simp] theorem State.setWires_staged (s : State) (v : Wires) : (s.setWires v).staged = s.staged := rfl
@[simp] theorem State.setWires_active (s : State) (v : Wires) : (s.setWires v).active = s.active := rfl
@[simp] theorem State.setWires_derived (s : State) (v : Wires) : (s.setWires v).derived = s.derived := rfl
@[simp] theorem State.setWires_left (s : State) (v : Wires) : (s.setWires v).left = s.left := rfl
@[simp] theorem State.setWires_right (s : State) (v : Wires) : (s.setWires v).right = s.right := rfl
@[simp] theorem State.setWires_modu (s : State) (v : Wires) : (s.setWires v).modu = s.modu := rfl
@[simp] theorem State.setWires_drop (s : State) (v : Wires) : (s.setWires v).drop = s.drop := rfl
@[simp] theorem State.setWires_rng (s : State) (v : Wires) : (s.setWires v).rng = s.rng := rfl
@[simp] theorem State.setWires_inBuf (s : State) (v : Wires) : (s.setWires v).inBuf = s.inBuf := rfl
@[simp] theorem State.setWires_outBuf (s : State) (v : Wires) : (s.setWires v).outBuf = s.outBuf := rfl
@[simp] theorem State.setWires_frame (s : State) (v : Wires) : (s.setWires v).frame = { s.frame with wires := v } := rfl
@[simp] theorem State.setWires_resetPin (s : State) (v : Wires) : (s.setWires v).resetPin = s.resetPin := rfl
@[simp] theorem State.setWires_port (s : State) (v : Wires) : (s.setWires v).port = s.port := rfl
@[simp] theorem State.setWires_feeds (s : State) (v : Wires) : (s.setWires v).feeds = s.feeds := rfl
@[simp] theorem State.setWires_cmdIndex (s : State) (v : Wires) : (s.setWires v).cmdIndex = s.cmdIndex := rfl
@[simp] theorem State.setWires_channel (s : State) (v : Wires) (c : Channel) : (s.setWires v).channel c = s.channel c := rfl

/-! ### setLatched -/

@[simp] theorem State.setLatched_ready (s : State) (a : Params) (g : Derived) : (s.setLatched a g).ready = s.ready := rfl
@[simp] theorem State.setLatched_pvalid (s : State) (a : Params) (g : Derived) : (s.setLatched a g).pvalid = s.pvalid := rfl
@[simp] theorem State.setLatched_fs (s : State) (a : Params) (g : Derived) : (s.setLatched a g).fs = s.fs := rfl
@[simp] theorem State.setLatched_blksz (s : State) (a : Params) (g : Derived) : (s.setLatched a g).blksz = s.blksz := rfl
@[simp] theorem State.setLatched_staged (s : State) (a : Params) (g : Derived) : (s.setLatched a g).staged = s.staged := rfl
@[simp] theorem State.setLatched_active (s : State) (a : Params) (g : Derived) : (s.setLatched a g).active = a := rfl
@[simp] theorem State.setLatched_derived (s : State) (a : Params) (g : Derived) : (s.setLatched a g).derived = g := rfl
@[simp] theorem State.setLatched_left (s : State) (a : Params) (g : Derived) : (s.setLatched a g).left = s.left := rfl
@[simp] theorem State.setLatched_right (s : State) (a : Params) (g : Derived) : (s.setLatched a g).right = s.right := rfl
@[simp] theorem State.setLatched_modu (s : State) (a : Params) (g : Derived) : (s.setLatched a g).modu = s.modu := rfl
@[simp] theorem State.setLatched_drop (s : State) (a : Params) (g : Derived) : (s.setLatched a g).drop = s.drop := rfl
@[simp] theorem State.setLatched_rng (s : State) (a : Params) (g : Derived) : (s.setLatched a g).rng = s.rng := rfl
@[simp] theorem State.setLatched_inBuf (s : State) (a : Params) (g : Derived) : (s.setLatched a g).inBuf = s.inBuf := rfl
@[simp] theorem State.setLatched_outBuf (s : State) (a : Params) (g : Derived) : (s.setLatched a g).outBuf = s.outBuf := rfl
@[simp] theorem State.setLatched_frame (s : State) (a : Params) (g : Derived) : (s.setLatched a g).frame = s.frame := rfl
@[simp] theorem State.setLatched_resetPin (s : State) (a : Params) (g : Derived) : (s.setLatched a g).resetPin = s.resetPin := rfl
@[simp] theorem State.setLatched_port (s : State) (a : Params) (g : Derived) : (s.setLatched a g).port = s.port := rfl
@[simp] theorem State.setLatched_feeds (s : State) (a : Params) (g : Derived) : (s.setLatched a g).feeds = s.feeds := rfl
@[simp] theorem State.setLatched_cmdIndex (s : State) (a : Params) (g : Derived) : (s.setLatched a g).cmdIndex = s.cmdIndex := rfl
@[simp] theorem State.setLatched_channel (s : State) (a : Params) (g : Derived) (c : Channel) : (s.setLatched a g).channel c = s.channel c := rfl

/-! ### consume -/

@[simp] theorem State.consume_ready (s : State) (r : List Word) : (s.consume r).ready = s.ready := rfl
@[simp] theorem State.consume_pvalid (s : State) (r : List Word) : (s.consume r).pvalid = s.pvalid := rfl
@[simp] theorem State.consume_fs (s : State) (r : List Word) : (s.consume r).fs = s.fs := rfl
@[simp] theorem State.consume_blksz (s : State) (r : List Word) : (s.consume r).blksz = s.blksz := rfl
@[simp] theorem State.consume_staged (s : State) (r : List Word) : (s.consume r).staged = s.staged := rfl
@[simp] theorem State.consume_active (s : State) (r : List Word) : (s.consume r).active = s.active := rfl
@[simp] theorem State.consume_derived (s : State) (r : List Word) : (s.consume r).derived = s.derived := rfl
@[simp] theorem State.consume_left (s : State) (r : List Word) : (s.consume r).left = s.left := rfl
@[simp] theorem State.consume_right (s : State) (r : List Word) : (s.consume r).right = s.right := rfl
@[simp] theorem State.consume_modu (s : State) (r : List Word) : (s.consume r).modu = s.modu := rfl
@[simp] theorem State.consume_drop (s : State) (r : List Word) : (s.consume r).drop = s.drop := rfl
@[simp] theorem State.consume_rng (s : State) (r : List Word) : (s.consume r).rng = s.rng := rfl
@[simp] theorem State.consume_inBuf (s : State) (r : List Word) : (s.consume r).inBuf = s.inBuf := rfl
@[simp] theorem State.consume_outBuf (s : State) (r : List Word) : (s.consume r).outBuf = s.outBuf := rfl
@[simp] theorem State.consume_frame (s : State) (r : List Word) : (s.consume r).frame = s.frame := rfl
@[simp] theorem State.consume_resetPin (s : State) (r : List Word) : (s.consume r).resetPin = s.resetPin := rfl
@[simp] theorem State.consume_port (s : State) (r : List Word) : (s.consume r).port = r := rfl
@[simp] theorem State.consume_feeds (s : State) (r : List Word) : (s.consume r).feeds = s.feeds := rfl
@[simp] theorem State.consume_cmdIndex (s : State) (r : List Word) : (s.consume r).cmdIndex = s.cmdIndex := rfl

/-! ### setPvalid -/

@[simp] theorem State.setPvalid_ready (s : State) : (s.setPvalid).ready = s.ready := rfl
@[simp] theorem State.setPvalid_pvalid (s : State) : (s.setPvalid).pvalid = true := rfl
@[simp] theorem State.setPvalid_fs (s : State) : (s.setPvalid).fs = s.fs := rfl
@[simp] theorem State.setPvalid_blksz (s : State) : (s.setPvalid).blksz = s.blksz := rfl
@[simp] theorem State.setPvalid_staged (s : State) : (s.setPvalid).staged = s.staged := rfl
@[simp] theorem State.setPvalid_active (s : State) : (s.setPvalid).active = s.active := rfl
@[simp] theorem State.setPvalid_derived (s : State) : (s.setPvalid).derived = s.derived := rfl
@[simp] theorem State.setPvalid_left (s : State) : (s.setPvalid).left = s.left := rfl
@[simp] theorem State.setPvalid_right (s : State) : (s.setPvalid).right = s.right := rfl
@[simp] theorem State.setPvalid_modu (s : State) : (s.setPvalid).modu = s.modu := rfl
@[simp] theorem State.setPvalid_drop (s : State) : (s.setPvalid).drop = s.drop := rfl
@[simp] theorem State.setPvalid_rng (s : State) : (s.setPvalid).rng = s.rng := rfl
@[simp] theorem State.setPvalid_inBuf (s : State) : (s.setPvalid).inBuf = s.inBuf := rfl
@[simp] theorem State.setPvalid_outBuf (s : State) : (s.setPvalid).outBuf = s.outBuf := rfl
@[simp] theorem State.setPvalid_frame (s : State) : (s.setPvalid).frame = s.frame := rfl
@[simp] theorem State.setPvalid_resetPin (s : State) : (s.setPvalid).resetPin = s.resetPin := rfl
@[simp] theorem State.setPvalid_port (s : State) : (s.setPvalid).port = s.port := rfl
@[simp] theorem State.setPvalid_feeds (s : State) : (s.setPvalid).feeds = s.feeds := rfl
@[simp] theorem State.setPvalid_cmdIndex (s : State) : (s.setPvalid).cmdIndex = s.cmdIndex := rfl
@[simp] theorem State.setPvalid_channel (s : State) (c : Channel) : (s.setPvalid).channel c = s.channel c := rfl

/-! ### clearReady -/

@[simp] theorem State.clearReady_ready (s : State) : (s.clearReady).ready = false := rfl
@[simp] theorem State.clearReady_pvalid (s : State) : (s.clearReady).pvalid = s.pvalid := rfl
@[simp] theorem State.clearReady_fs (s : State) : (s.clearReady).fs = s.fs := rfl
@[simp] theorem State.clearReady_blksz (s : State) : (s.clearReady).blksz = s.blksz := rfl
@[simp] theorem State.clearReady_staged (s : State) : (s.clearReady).staged = s.staged := rfl
@[simp] theorem State.clearReady_active (s : State) : (s.clearReady).active = s.active := rfl
@[simp] theorem State.clearReady_derived (s : State) : (s.clearReady).derived = s.derived := rfl
@[simp] theorem State.clearReady_left (s : State) : (s.clearReady).left = s.left := rfl
@[simp] theorem State.clearReady_right (s : State) : (s.clearReady).right = s.right := rfl
@[simp] theorem State.clearReady_modu (s : State) : (s.clearReady).modu = s.modu := rfl
@[simp] theorem State.clearReady_drop (s : State) : (s.clearReady).drop = s.drop := rfl
@[simp] theorem State.clearReady_rng (s : State) : (s.clearReady).rng = s.rng := rfl
@[simp] theorem State.clearReady_inBuf (s : State) : (s.clearReady).inBuf = s.inBuf := rfl
@[simp] theorem State.clearReady_outBuf (s : State) : (s.clearReady).outBuf = s.outBuf := rfl
@[simp] theorem State.clearReady_frame (s : State) : (s.clearReady).frame = s.frame := rfl
@[simp] theorem State.clearReady_resetPin (s : State) : (s.clearReady).resetPin = s.resetPin := rfl
@[simp] theorem State.clearReady_port (s : State) : (s.clearReady).port = s.port := rfl
@[simp] theorem State.clearReady_feeds (s : State) : (s.clearReady).feeds = s.feeds := rfl
@[simp] theorem State.clearReady_cmdIndex (s : State) : (s.clearReady).cmdIndex = s.cmdIndex := rfl
@[simp] theorem State.clearReady_channel (s : State) (c : Channel) : (s.clearReady).channel c = s.channel c := rfl

/-! ### resetFlags -/

@[simp] theorem State.resetFlags_ready (s : State) : (s.resetFlags).ready = true := rfl
@[simp] theorem State.resetFlags_pvalid (s : State) : (s.resetFlags).pvalid = false := rfl
@[simp] theorem State.resetFlags_fs (s : State) : (s.resetFlags).fs = s.fs := rfl
@[simp] theorem State.resetFlags_blksz (s : State) : (s.resetFlags).blksz = s.blksz := rfl
@[simp] theorem State.resetFlags_staged (s : State) : (s.resetFlags).staged = s.staged := rfl
@[simp] theorem State.resetFlags_active (s : State) : (s.resetFlags).active = s.active := rfl
@[simp] theorem State.resetFlags_derived (s : State) : (s.resetFlags).derived = s.derived := rfl
@[simp] theorem State.resetFlags_left (s : State) : (s.resetFlags).left = s.left := rfl
@[simp] theorem State.resetFlags_right (s : State) : (s.resetFlags).right = s.right := rfl
@[simp] theorem State.resetFlags_modu (s : State) : (s.resetFlags).modu = s.modu := rfl
@[simp] theorem State.resetFlags_drop (s : State) : (s.resetFlags).drop = s.drop := rfl
@[simp] theorem State.resetFlags_rng (s : State) : (s.resetFlags).rng = s.rng := rfl
@[simp] theorem State.resetFlags_inBuf (s : State) : (s.resetFlags).inBuf = s.inBuf := rfl
@[simp] theorem State.resetFlags_outBuf (s : State) : (s.resetFlags).outBuf = s.outBuf := rfl
@[simp] theorem State.resetFlags_frame (s : State) : (s.resetFlags).frame = s.frame := rfl
@[simp] theorem State.resetFlags_resetPin (s : State) : (s.resetFlags).resetPin = s.resetPin := rfl
@[simp] theorem State.resetFlags_port (s : State) : (s.resetFlags).port = s.port := rfl
@[simp] theorem State.resetFlags_feeds (s : State) : (s.resetFlags).feeds = s.feeds := rfl
@[simp] theorem State.resetFlags_cmdIndex (s : State) : (s.resetFlags).cmdIndex = s.cmdIndex := rfl
@[simp] theorem State.resetFlags_channel (s : State) (c : Channel) : (s.resetFlags).channel c = s.channel c := rfl

/-! ### setChannel -/

@[simp] theorem State.setChannel_ready (s : State) (c : Channel) (v : ChannelState) : (s.setChannel c v).ready = s.ready := by cases c <;> rfl
@[simp] theorem State.setChannel_pvalid (s : State) (c : Channel) (v : ChannelState) : (s.setChannel c v).pvalid = s.pvalid := by cases c <;> rfl
@[simp] theorem State.setChannel_fs (s : State) (c : Channel) (v : ChannelState) : (s.setChannel c v).fs = s.fs := by cases c <;> rfl
@[simp] theorem State.setChannel_blksz (s : State) (c : Channel) (v : ChannelState) : (s.setChannel c v).blksz = s.blksz := by cases c <;> rfl
@[simp] theorem State.setChannel_staged (s : State) (c : Channel) (v : ChannelState) : (s.setChannel c v).staged = s.staged := by cases c <;> rfl
@[simp] theorem State.setChannel_active (s : State) (c : Channel) (v : ChannelState) : (s.setChannel c v).active = s.active := by cases c <;> rfl
@[simp] theorem State.setChannel_derived (s : State) (c : Channel) (v : ChannelState) : (s.setChannel c v).derived = s.derived := by cases c <;> rfl
@[simp] theorem State.setChannel_modu (s : State) (c : Channel) (v : ChannelState) : (s.setChannel c v).modu = s.modu := by cases c <;> rfl
@[simp] theorem State.setChannel_drop (s : State) (c : Channel) (v : ChannelState) : (s.setChannel c v).drop = s.drop := by cases c <;> rfl
@[simp] theorem State.setChannel_rng (s : State) (c : Channel) (v : ChannelState) : (s.setChannel c v).rng = s.rng := by cases c <;> rfl
@[simp] theorem State.setChannel_inBuf (s : State) (c : Channel) (v : ChannelState) : (s.setChannel c v).inBuf = s.inBuf := by cases c <;> rfl
@[simp] theorem State.setChannel_outBuf (s : State) (c : Channel) (v : ChannelState) : (s.setChannel c v).outBuf = s.outBuf := by cases c <;> rfl
@[simp] theorem State.setChannel_frame (s : State) (c : Channel) (v : ChannelState) : (s.setChannel c v).frame = s.frame := by cases c <;> rfl
@[simp] theorem State.setChannel_resetPin (s : State) (c : Channel) (v : ChannelState) : (s.setChannel c v).resetPin = s.resetPin := by cases c <;> rfl
@[simp] theorem State.setChannel_port (s : State) (c : Channel) (v : ChannelState) : (s.setChannel c v).port = s.port := by cases c <;> rfl
@[simp] theorem State.setChannel_feeds (s : State) (c : Channel) (v : ChannelState) : (s.setChannel c v).feeds = s.feeds := by cases c <;> rfl
@[simp] theorem State.setChannel_cmdIndex (s : State) (c : Channel) (v : ChannelState) : (s.setChannel c v).cmdIndex = s.cmdIndex := by cases c <;> rfl
@[simp] theorem State.setChannel_same (s : State) (c : Channel) (v : ChannelState) :
    (s.setChannel c v).channel c = v := by cases c <;> rfl
theorem State.setChannel_other (s : State) (c d : Channel) (v : ChannelState) (h : d ≠ c) :
    (s.setChannel c v).channel d = s.channel d := by cases c <;> cases d <;> first | rfl | exact absurd rfl h
@[simp] theorem State.setChannel_left_left (s : State) (v : ChannelState) : (s.setChannel .left v).left = v := rfl
@[simp] theorem State.setChannel_left_right (s : State) (v : ChannelState) : (s.setChannel .left v).right = s.right := rfl
@[simp] theorem State.setChannel_right_left (s : State) (v : ChannelState) : (s.setChannel .right v).left = s.left := rfl
@[simp] theorem State.setChannel_right_right (s : State) (v : ChannelState) : (s.setChannel .right v).right = v := rfl
@[simp] theorem State.channel_left (s : State) : s.channel .left = s.left := rfl
@[simp] theorem State.channel_right (s : State) : s.channel .right = s.right := rfl

/-! ### afterStage and afterCommand -/

@[simp] theorem afterStage_ready (s : State) : (afterStage s).ready = s.ready := rfl
@[simp] theorem afterStage_pvalid (s : State) : (afterStage s).pvalid = s.pvalid := rfl
@[simp] theorem afterStage_fs (s : State) : (afterStage s).fs = s.fs := rfl
@[simp] theorem afterStage_blksz (s : State) : (afterStage s).blksz = s.blksz := rfl
@[simp] theorem afterStage_staged (s : State) : (afterStage s).staged = s.staged := rfl
@[simp] theorem afterStage_active (s : State) : (afterStage s).active = s.active := rfl
@[simp] theorem afterStage_derived (s : State) : (afterStage s).derived = s.derived := rfl
@[simp] theorem afterStage_left (s : State) : (afterStage s).left = s.left := rfl
@[simp] theorem afterStage_right (s : State) : (afterStage s).right = s.right := rfl
@[simp] theorem afterStage_modu (s : State) : (afterStage s).modu = s.modu := rfl
@[simp] theorem afterStage_drop (s : State) : (afterStage s).drop = s.drop := rfl
@[simp] theorem afterStage_rng (s : State) : (afterStage s).rng = s.rng := rfl
@[simp] theorem afterStage_inBuf (s : State) : (afterStage s).inBuf = s.inBuf := rfl
@[simp] theorem afterStage_outBuf (s : State) : (afterStage s).outBuf = s.outBuf := rfl
@[simp] theorem afterStage_frame (s : State) : (afterStage s).frame = s.frame.advance := rfl
@[simp] theorem afterStage_resetPin (s : State) : (afterStage s).resetPin = s.resetPin := rfl
@[simp] theorem afterStage_port (s : State) : (afterStage s).port = s.port := rfl
@[simp] theorem afterStage_feeds (s : State) : (afterStage s).feeds = s.feeds := rfl
@[simp] theorem afterStage_cmdIndex (s : State) : (afterStage s).cmdIndex = s.cmdIndex := rfl
@[simp] theorem afterCommand_ready (s : State) : (afterCommand s).ready = s.ready := rfl
@[simp] theorem afterCommand_pvalid (s : State) : (afterCommand s).pvalid = s.pvalid := rfl
@[simp] theorem afterCommand_fs (s : State) : (afterCommand s).fs = s.fs := rfl
@[simp] theorem afterCommand_blksz (s : State) : (afterCommand s).blksz = s.blksz := rfl
@[simp] theorem afterCommand_staged (s : State) : (afterCommand s).staged = s.staged := rfl
@[simp] theorem afterCommand_active (s : State) : (afterCommand s).active = s.active := rfl
@[simp] theorem afterCommand_derived (s : State) : (afterCommand s).derived = s.derived := rfl
@[simp] theorem afterCommand_left (s : State) : (afterCommand s).left = s.left := rfl
@[simp] theorem afterCommand_right (s : State) : (afterCommand s).right = s.right := rfl
@[simp] theorem afterCommand_modu (s : State) : (afterCommand s).modu = s.modu := rfl
@[simp] theorem afterCommand_drop (s : State) : (afterCommand s).drop = s.drop := rfl
@[simp] theorem afterCommand_rng (s : State) : (afterCommand s).rng = s.rng := rfl
@[simp] theorem afterCommand_inBuf (s : State) : (afterCommand s).inBuf = s.inBuf := rfl
@[simp] theorem afterCommand_outBuf (s : State) : (afterCommand s).outBuf = s.outBuf := rfl
@[simp] theorem afterCommand_frame (s : State) : (afterCommand s).frame = s.frame := rfl
@[simp] theorem afterCommand_resetPin (s : State) : (afterCommand s).resetPin = s.resetPin := rfl
@[simp] theorem afterCommand_port (s : State) : (afterCommand s).port = s.port := rfl
@[simp] theorem afterCommand_feeds (s : State) : (afterCommand s).feeds = s.feeds := rfl
@[simp] theorem afterCommand_cmdIndex (s : State) : (afterCommand s).cmdIndex = s.cmdIndex + 1 := rfl

/-! ### Memories of a channel -/

@[simp] theorem delayPush_w (ch : ChannelState) (x : F32) : (delayPush ch x).w = ch.w + 1 := rfl
@[simp] theorem delayPush_z (ch : ChannelState) (x : F32) : (delayPush ch x).z = ch.z := rfl
@[simp] theorem delayPush_xp (ch : ChannelState) (x : F32) : (delayPush ch x).xp = ch.xp := rfl
@[simp] theorem delayPush_yp (ch : ChannelState) (x : F32) : (delayPush ch x).yp = ch.yp := rfl
@[simp] theorem delayPush_dly (ch : ChannelState) (x : F32) :
    (delayPush ch x).dly = ch.dly.writeWord ch.w.toNat x.bits := rfl

end Sys2Proof.Machine
end

