-- ==== Sys2Proof/Laws/Ops.lean ====
section
/-! SUPPORT. For each shared operation one lemma that says once everything it can do. -/

namespace Sys2Proof.Machine

/-! ### The random source -/

/-- A draw moves the random source on by one step and does nothing else. -/
theorem draw_spec (s : State) : draw s = (uniform (rngNext s.rng), { s with rng := rngNext s.rng }) := rfl

/-- NOISE() makes two draws and does nothing else. -/
theorem noise_spec (s : State) :
    noise s = (noiseValue s.derived.noiseAmp (uniform (rngNext s.rng)) (uniform (rngNext (rngNext s.rng))),
      { s with rng := rngNext (rngNext s.rng) }) := rfl

/-- The generator maps no word but 0 to 0. -/
theorem rngNext_ne_zero (x : Word) (h : x ≠ 0) : rngNext x ≠ 0 := by
  have left : ∀ (y : Word) (k : Nat), 0 < k → y ^^^ (y <<< k) = 0 → y = 0 := by
    intro y k hk e
    have bit : ∀ n, ∀ i ≤ n, y.getLsbD i = false := by
      intro n
      induction n with
      | zero =>
        intro i hi
        have := congrArg (·.getLsbD i) e
        simp only [BitVec.getLsbD_xor, BitVec.getLsbD_shiftLeft] at this
        have hi0 : i = 0 := by omega
        subst hi0
        simpa [hk] using this
      | succ n ih =>
        intro i hi
        rcases Nat.lt_or_ge i (n + 1) with hlt | hge
        · exact ih i (by omega)
        have := congrArg (·.getLsbD i) e
        simp only [BitVec.getLsbD_xor, BitVec.getLsbD_shiftLeft] at this
        have hy : y.getLsbD (i - k) = false := ih (i - k) (by omega)
        simpa [hy] using this
    exact BitVec.eq_of_getLsbD_eq fun i _ => by simpa using bit i i (Nat.le_refl _)
  have right : ∀ (y : Word) (k : Nat), 0 < k → y ^^^ (y >>> k) = 0 → y = 0 := by
    intro y k hk e
    have bit : ∀ n, ∀ i, 32 ≤ i + n → y.getLsbD i = false := by
      intro n
      induction n with
      | zero => intro i hi; exact BitVec.getLsbD_of_ge _ _ (by omega)
      | succ n ih =>
        intro i hi
        have := congrArg (·.getLsbD i) e
        simp only [BitVec.getLsbD_xor, BitVec.getLsbD_ushiftRight] at this
        have hy : y.getLsbD (k + i) = false := ih (k + i) (by omega)
        simpa [hy] using this
    exact BitVec.eq_of_getLsbD_eq fun i _ => by simpa using bit 32 i (by omega)
  intro e
  exact h (left x 13 (by decide) (right _ 17 (by decide) (left _ 5 (by decide) e)))

/-! ### Stages over a channel -/

/-- MOD() makes one draw and writes the modulation state. -/
theorem modulate_spec (s : State) :
    (modulate s).2 =
      { s with
        rng := rngNext s.rng
        modu := modulationNext s.active s.fs (uniform (rngNext s.rng)) s.modu } := rfl

/-- FLT writes the filter registers of its channel alone. -/
theorem filter_spec (s : State) (c : Channel) (x : F32) :
    filter s c x = ((bankStep s.derived.coef (s.channel c).z x).1,
      s.setChannel c { s.channel c with z := (bankStep s.derived.coef (s.channel c).z x).2 }) := rfl

/-- SAT writes the history of its channel alone. -/
theorem saturate_spec (s : State) (c : Channel) (x : F32) :
    saturate s c x = (saturated s.derived.drive x (s.channel c).xp (s.channel c).yp,
      s.setChannel c
        { s.channel c with xp := x, yp := saturated s.derived.drive x (s.channel c).xp (s.channel c).yp }) := rfl

/-- The delay write changes the delay RAM and the cursor of its channel alone. -/
theorem delayWrite_spec (s : State) (c : Channel) (x : F32) :
    delayWrite s c x =
      s.setChannel c
        { s.channel c with
          dly := (s.channel c).dly.writeWord (s.channel c).w.toNat x.bits
          w := (s.channel c).w + 1 } := rfl

/-- The output write changes OUT alone. -/
theorem outWrite_spec (s : State) (c : Channel) (n : Word) (o : F32) (channels : BitVec 8) :
    outWrite s c n o channels =
      { s with outBuf := if c.index < channels.toNat then memWrite s.outBuf c.index n o else s.outBuf } := by
  unfold outWrite
  split <;> rfl

/-- Scheduling an interval makes one draw and writes the countdown. -/
theorem scheduleInterval_spec (s : State) :
    scheduleInterval s =
      { s with
        rng := rngNext s.rng
        drop := { s.drop with count := intervalFrames s.derived.lambda s.fs (uniform (rngNext s.rng)) } } := rfl

/-- The countdown writes the dropout state alone. -/
theorem dropCount_spec (s : State) :
    dropCount s =
      { s with
        drop := if s.drop.count = 0 then { s.drop with mode := .dippingDown, phase := 0 }
          else { s.drop with count := s.drop.count - 1 } } := by
  unfold dropCount
  split <;> rfl

/-- What DROP makes of the dropout state and the random source, a function of the derived registers and the rate. -/
def dropResult (g : Derived) (fs : F32) (d : Dropout) (r : Word) : Dropout × Word :=
  let drawn := intervalFrames g.lambda fs (uniform (rngNext r))
  if g.lambda.gt F32.zero = true then
    match d.mode with
    | .waiting =>
      let count := if d.count.toInt < 0 then drawn else d.count
      (if count = 0 then ⟨.dippingDown, count, 0, relax d.env⟩ else ⟨.waiting, count - 1, d.phase, relax d.env⟩,
        if d.count.toInt < 0 then rngNext r else r)
    | .dippingDown =>
      let p := phaseInc d.phase
      (⟨if (F32.ofInt p.toNat).ge g.half then .dippingUp else .dippingDown, d.count, p, dipDown g.half p⟩, r)
    | .dippingUp =>
      let p := phaseInc d.phase
      if g.dur ≤ p then (⟨.waiting, drawn, 0, dipUp g.half p⟩, rngNext r)
      else (⟨.dippingUp, d.count, p, dipUp g.half p⟩, r)
  else (⟨.waiting, -1, 0, relax d.env⟩, r)

/-- DROP writes the dropout state and the random source. -/
theorem dropStep_eq (s : State) :
    dropStep s =
      { s with
        drop := (dropResult s.derived s.fs s.drop s.rng).1
        rng := (dropResult s.derived s.fs s.drop s.rng).2 } := by
  rw [dropStep, dropResult]
  rcases hl : s.derived.lambda.gt F32.zero with _ | _
  · rfl
  · simp only [Bool.not_true, Bool.false_eq_true, if_false, if_true]
    rcases hm : s.drop.mode with _ | _ | _
    · simp only
      rw [dropWaiting, dropCount_spec]
      by_cases hc : s.drop.count.toInt < 0
      · simp only [if_pos hc, scheduleInterval_spec, State.setDrop]
        split <;> simp_all
      · simp only [if_neg hc]
        split <;> simp_all [State.setDrop]
    · rfl
    · simp only
      rw [dropUp]
      by_cases h : s.derived.dur ≤ phaseInc s.drop.phase
      · rw [if_pos h, if_pos h, scheduleInterval_spec]; rfl
      · rw [if_neg h, if_neg h, ← hm]; rfl

/-- DROP makes one draw or none. -/
theorem dropResult_rng (g : Derived) (fs : F32) (d : Dropout) (r : Word) :
    (dropResult g fs d r).2 = r ∨ (dropResult g fs d r).2 = rngNext r := by
  rw [dropResult]
  split
  · split
    · simp only; split <;> simp
    · simp
    · simp only; split <;> simp
  · simp

/-! ### The command operations -/

/-- The latch writes the active and the derived registers from FS and the staged ones. -/
theorem latch_spec (s : State) :
    latch s = { s with
      active := latchParams s.fs s.staged
      derived := latchDerived s.fs (latchParams s.fs s.staged) } := rfl

/-- Taking the host's IN changes IN and the feeds alone. -/
theorem takeFeed_spec (s : State) :
    s.takeFeed = { s with inBuf := s.feeds.headD s.inBuf, feeds := s.feeds.tail } := by
  rcases h : s.feeds with _ | ⟨m, t⟩ <;> simp [State.takeFeed, h]
  cases s; simp_all

/-- The eighteen operand words are taken where both booleans are 0 or 1. -/
theorem operandParams_isSome (v : ParamWords) :
    (operandParams v).isSome = (v.mainsOk && v.tstopOk) := by
  unfold operandParams operandB ParamWords.mainsOk ParamWords.tstopOk
  cases boolWordOk v.mainsSel <;> cases boolWordOk v.tstop <;> rfl

/-! ### The frame sequence -/

/-- The identifier after one in the frame sequence is one of the sequence. -/
theorem following_mem (id : BitVec 5) (l : List (BitVec 5)) (t : BitVec 5) (h : following id l = some t) : t ∈ l := by
  induction l with
  | nil => simp [following] at h
  | cons a l ih =>
    cases l with
    | nil => simp [following] at h
    | cons b l =>
      rw [following] at h
      split at h
      · simp_all
      · exact List.mem_cons_of_mem _ (ih h)

/-- What advancing the sequence can do: nothing between commands; the next stage; the first stage of the next frame
after the last stage; or the end of the command after the last stage of the last frame. -/
theorem advance_cases (f : FrameCtx) :
    (f.stage = none ∧ f.advance = f) ∨
    (∃ id t, f.stage = some id ∧ following id frameSequence = some t ∧ f.advance = { f with stage := some t }) ∨
    (∃ id, f.stage = some id ∧ following id frameSequence = none ∧ f.n + 1 < f.frameCount ∧
      f.advance = { f with stage := some 0x00#5, n := f.n + 1 }) ∨
    (∃ id, f.stage = some id ∧ following id frameSequence = none ∧ ¬ f.n + 1 < f.frameCount ∧
      f.advance = FrameCtx.idle) := by
  rcases h : f.stage with _ | id
  · exact .inl ⟨rfl, by simp [FrameCtx.advance, h]⟩
  · rcases h2 : following id frameSequence with _ | t
    · have h4 : frameSequence.head? = some 0x00#5 := rfl
      by_cases h3 : f.n + 1 < f.frameCount
      · exact .inr (.inr (.inl ⟨id, rfl, h2, h3, by rw [FrameCtx.advance, h]; simp only [h2, if_pos h3, h4]⟩))
      · exact .inr (.inr (.inr ⟨id, rfl, h2, h3, by rw [FrameCtx.advance, h]; simp only [h2, if_neg h3]⟩))
    · refine .inr (.inl ⟨id, t, rfl, h2, ?_⟩)
      simp [FrameCtx.advance, h, h2]

/-- The context at the start of a block. -/
theorem start_cases (channels : BitVec 8) (frameCount : Word) :
    (frameCount = 0 ∧ FrameCtx.start channels frameCount = FrameCtx.idle) ∨
    (0 < frameCount ∧
      FrameCtx.start channels frameCount = ⟨some 0x00#5, 0, frameCount, channels, Wires.idle⟩) := by
  by_cases h : 0 < frameCount
  · exact .inr ⟨h, by rw [FrameCtx.start, if_pos h]; rfl⟩
  · refine .inl ⟨?_, by rw [FrameCtx.start, if_neg h]⟩
    have : ¬ 0 < frameCount.toNat := h
    exact BitVec.eq_of_toNat_eq (by simp; omega)

/-! ### Power-on -/

/-- What the reset input leaves. -/
theorem powerOn_spec (s : State) :
    s.powerOn =
      ⟨false, false, F32.zero, 0, Params.initial, Params.initial, Derived.initial, ChannelState.cleared,
        ChannelState.cleared, Modulation.cleared, Dropout.initial, 0, s.inBuf, s.outBuf, FrameCtx.idle, false,
        s.portAfterReset, s.feeds, s.cmdIndex⟩ := rfl

end Sys2Proof.Machine
end

