-- ==== Sys2Proof/Laws/Step.lean ====
section
/-! SUPPORT. What a step can do, said once, and what a stage leaves alone. -/

namespace Sys2Proof.Machine

/-- A result after more has been done to its state is a next state exactly where the result was. -/
theorem onNext_eq_next (f : State → State) (r : Result) (t : State) :
    onNext f r = .next t ↔ ∃ u, r = .next u ∧ t = f u := by
  cases r <;> simp [onNext, eq_comm]

/-- Raising a fault is no next state. -/
@[simp] theorem raise_ne_next (code : FaultReport → Fault) (s l t : State) : raise code s l ≠ .next t := by
  simp [raise]

/-- The stage identifiers name stages. -/
theorem decodeStage_stage (id : BitVec 5) (i : Instr) (h : decodeStage id = some i) : portWords i = [] := by
  unfold decodeStage oncePerFrame at h
  split at h <;> (try split at h) <;> simp at h <;> subst h <;> rfl

/-- The port carries commands. -/
theorem decodeCommand_command (ws rest : List Word) (i : Instr) (h : decodeCommand ws = .command i rest) :
    (∃ fs block, i = .reset fs block) ∨ (∃ v, i = .setparams v) ∨ ∃ ch f, i = .process ch f := by
  unfold decodeCommand at h
  split at h
  · cases h
  · split at h
    · unfold decodeOperands at h
      split at h <;> split at h <;> simp at h <;> obtain ⟨rfl, -⟩ := h <;> simp
    · cases h

/-- What a step that answers a next state has done: the reset input has acted; one stage of the frame has run; one
command has been taken up; or the engine waits for words. -/
theorem step_cases (s t : State) (h : step s = .next t) :
    (s.resetPin = true ∧ t = s.powerOn) ∨
    (∃ id i u, s.resetPin = false ∧ s.frame.stage = some id ∧ decodeStage id = some i ∧ exec i s = .next u ∧
      t = afterStage u) ∨
    (∃ i rest u, s.resetPin = false ∧ s.frame.stage = none ∧ decodeCommand s.port = .command i rest ∧
      exec i (s.consume rest) = .next u ∧ t = afterCommand u) ∨
    (s.resetPin = false ∧ s.frame.stage = none ∧ decodeCommand s.port = .waiting ∧ t = s) := by
  unfold step stepOnce at h
  rcases hp : s.resetPin with _ | _
  · simp only [hp, Bool.false_eq_true, if_false] at h
    rcases hs : s.frame.stage with _ | id
    · simp only [hs] at h
      unfold stepCommand at h
      split at h
      · next i rest hd =>
        obtain ⟨u, hu, rfl⟩ := (onNext_eq_next _ _ _).1 h
        exact .inr (.inr (.inl ⟨i, rest, u, rfl, rfl, hd, hu, rfl⟩))
      · next hd => cases h; exact .inr (.inr (.inr ⟨rfl, rfl, hd, rfl⟩))
      · exact absurd h (raise_ne_next _ _ _ _)
    · simp only [hs] at h
      unfold stepStage at h
      split at h
      · next i hd =>
        obtain ⟨u, hu, rfl⟩ := (onNext_eq_next _ _ _).1 h
        exact .inr (.inl ⟨id, i, u, rfl, rfl, hd, hu, rfl⟩)
      · cases h
  · simp only [hp, if_true] at h
    cases h
    exact .inl ⟨rfl, rfl⟩

/-- A command taken up, unless it faults, is one of these. -/
theorem command_cases (ws rest : List Word) (i : Instr) (s u : State) (hd : decodeCommand ws = .command i rest)
    (h : exec i s = .next u) :
    (∃ fs block, i = .reset fs block ∧ badSampleRate ⟨fs⟩ = false ∧ u = s.reinitialise ⟨fs⟩ block) ∨
    (∃ v p, i = .setparams v ∧ operandParams v = some p ∧ u = { s with pvalid := true, staged := p }) ∨
    (∃ ch f, i = .process ch f ∧ s.ready = true ∧ s.pvalid = true ∧
      u = (latch s.takeFeed).setFrame (FrameCtx.start ch f)) := by
  rcases decodeCommand_command ws rest i hd with ⟨fs, block, rfl⟩ | ⟨v, rfl⟩ | ⟨ch, f, rfl⟩
  · rw [exec, execReset] at h
    split at h
    · exact absurd h (raise_ne_next _ _ _ _)
    · next hb => cases h; exact .inl ⟨fs, block, rfl, by simpa [operandF] using hb, rfl⟩
  · rw [exec, execSetparams] at h
    split at h
    · next p hp => cases h; exact .inr (.inl ⟨v, p, rfl, hp, rfl⟩)
    · exact absurd h (raise_ne_next _ _ _ _)
  · rw [exec, execProcess] at h
    split at h
    · exact absurd h (raise_ne_next _ _ _ _)
    · split at h
      · exact absurd h (raise_ne_next _ _ _ _)
      · next h1 h2 => cases h; exact .inr (.inr ⟨ch, f, rfl, by simpa using h1, by simpa using h2, rfl⟩)

/-! ### Runs of several steps -/

@[simp] theorem run_zero (s : State) : run 0 s = .next s := rfl

/-- A run goes on from a next state. -/
theorem run_next (k : Nat) (s t : State) (h : step s = .next t) : run (k + 1) s = run k t := by
  rw [run, h]

/-- A run of `a + b` steps is a run of `b` steps from where the first `a` lead. -/
theorem run_add (a b : Nat) (s t : State) (h : run a s = .next t) : run (a + b) s = run b t := by
  induction a generalizing s with
  | zero => cases h; simp
  | succ a ih =>
    rw [Nat.add_right_comm]
    rcases hs : step s with u | u | u
    · rw [run_next _ _ _ hs] at h ⊢
      exact ih _ h
    · rw [run, hs] at h; cases h
    · rw [run, hs] at h; cases h

/-- A run of any machine, unfolded once. -/
theorem core_run_succ (M : Host.Core) (k : Nat) (s : M.State) :
    M.run (k + 1) s = match M.step s with
      | .next t => M.run k t
      | .fault r => .fault r
      | .refused r => .refused r := rfl

/-- It is the host's run of the machine. -/
theorem run_eq_core (k : Nat) (s : State) : run k s = Host.Core.run core k s := by
  induction k generalizing s with
  | zero => rfl
  | succ k ih =>
    refine Eq.trans ?_ (core_run_succ core k s).symm
    rw [run]
    rcases hs : step s with u | u | u
    · have h : core.step s = .next u := hs
      rw [h]; exact ih u
    · have h : core.step s = .fault u := hs
      rw [h]; rfl
    · have h : core.step s = .refused u := hs
      rw [h]; rfl

/-! ### Stages -/

/-- What no stage writes. -/
structure StageFrame (s t : State) : Prop where
  ready : t.ready = s.ready
  pvalid : t.pvalid = s.pvalid
  fs : t.fs = s.fs
  blksz : t.blksz = s.blksz
  staged : t.staged = s.staged
  active : t.active = s.active
  derived : t.derived = s.derived
  inBuf : t.inBuf = s.inBuf
  stage : t.frame.stage = s.frame.stage
  n : t.frame.n = s.frame.n
  frameCount : t.frame.frameCount = s.frame.frameCount
  channelCount : t.frame.channelCount = s.frame.channelCount
  resetPin : t.resetPin = s.resetPin
  port : t.port = s.port
  feeds : t.feeds = s.feeds
  cmdIndex : t.cmdIndex = s.cmdIndex

/-- A stage gives a next state, and leaves alone what no stage writes. -/
theorem exec_stage (id : BitVec 5) (i : Instr) (s : State) (h : decodeStage id = some i) :
    ∃ t, exec i s = .next t ∧ StageFrame s t := by
  have hp := decodeStage_stage id i h
  cases i with
  | reset => simp [portWords, encode] at hp
  | setparams => simp [portWords, encode] at hp
  | process => simp [portWords, encode] at hp
  | drop => exact ⟨_, rfl, by rw [dropStep_eq]; constructor <;> rfl⟩
  | outwr c =>
    refine ⟨_, rfl, ?_⟩
    rw [outWrite_spec]
    constructor <;> rfl
  | flt c => refine ⟨_, rfl, ?_⟩; cases c <;> constructor <;> rfl
  | sat c => refine ⟨_, rfl, ?_⟩; cases c <;> constructor <;> rfl
  | dlywr c => refine ⟨_, rfl, ?_⟩; cases c <;> constructor <;> rfl
  | _ => exact ⟨_, rfl, by constructor <;> rfl⟩

end Sys2Proof.Machine
end

