-- ==== Sys2Proof/Laws/Block.lean ====
section
/-! SUPPORT. What a channel's part of a frame, a frame and a block can do, said once. -/

namespace Sys2Proof.Machine

/-- The output sample of channel state `ch` for a dry sample, from the shared registers (40_host_commands.md R110). -/
def channelOut (a : Params) (g : Derived) (fs dry m hum genv : F32) (c : Channel) (ch : ChannelState) (r : Word) : F32 :=
  let y := (bankStep g.coef ch.z (delayRead ch (delaySamples m (g.scale c) fs))).1
  let x := scaleEnvelope (saturated g.drive y ch.xp ch.yp) genv
  let nz := noiseValue g.noiseAmp (uniform (rngNext r)) (uniform (rngNext (rngNext r)))
  blend a.mix g.outGain dry (wetSignal x nz hum)

/-- The channel state after a channel's part of a frame. -/
def channelNext (g : Derived) (fs dry m : F32) (c : Channel) (ch : ChannelState) : ChannelState :=
  let r := bankStep g.coef ch.z (delayRead ch (delaySamples m (g.scale c) fs))
  delayPush { ch with z := r.2, xp := r.1, yp := saturated g.drive r.1 ch.xp ch.yp } dry

/-- A channel's part of a frame writes its channel, makes two draws and stores its output sample. -/
theorem channelFrame_eq (n : Word) (channels : BitVec 8) (dry m hum genv : F32) (c : Channel) (s : State) :
    channelFrame n channels dry m hum genv c s =
      { s.setChannel c (channelNext s.derived s.fs dry m c (s.channel c)) with
        rng := rngNext (rngNext s.rng)
        outBuf :=
          if c.index < channels.toNat then
            memWrite s.outBuf c.index n
              (channelOut s.active s.derived s.fs dry m hum genv c (s.channel c) s.rng)
          else s.outBuf } := by
  rw [channelFrame]
  simp only [filter_spec, saturate_spec, noise_spec, outWrite_spec, delayWrite_spec, delayTap, mixOut, channelNext,
    channelOut, delayPush, dlyWrite]
  cases c <;> simp only [State.setChannel, State.channel]

/-- The modulation state and the modulation value of a frame. -/
def frameModulation (s : State) : F32 × Modulation :=
  let md := modulationNext s.active s.fs (uniform (rngNext s.rng)) s.modu
  (modulationValue s.active md, md)

/-- A frame writes the modulation and the dropout state, both channels, the random source and OUT. -/
theorem frameStep_eq (n : Word) (channels : BitVec 8) (s : State) :
    frameStep n channels s =
      let m := (frameModulation s).1
      let md := (frameModulation s).2
      let hum := humValue s.derived.humAmp (selectedPhase s.active.mainsSel md)
      let genv := envelopeGain s.active.dropDepth s.drop.env
      let r1 := rngNext s.rng
      let r3 := rngNext (rngNext r1)
      let r5 := rngNext (rngNext r3)
      let dry := fun c => dryInput s.inBuf n channels c
      let out := fun (c : Channel) (r : Word) (o : Mem) =>
        if c.index < channels.toNat then
          memWrite o c.index n (channelOut s.active s.derived s.fs (dry c) m hum genv c (s.channel c) r)
        else o
      let dr := dropResult s.derived s.fs s.drop r5
      { s with
        modu := md
        drop := dr.1
        rng := dr.2
        left := channelNext s.derived s.fs (dry .left) m .left s.left
        right := channelNext s.derived s.fs (dry .right) m .right s.right
        outBuf := out .right r3 (out .left r1 s.outBuf) } := by
  rw [frameStep]
  simp only [channelFrame_eq, dropStep_eq]
  rfl

/-- What no frame writes. -/
structure BlockFrame (s t : State) : Prop where
  ready : t.ready = s.ready
  pvalid : t.pvalid = s.pvalid
  fs : t.fs = s.fs
  blksz : t.blksz = s.blksz
  staged : t.staged = s.staged
  active : t.active = s.active
  derived : t.derived = s.derived
  frame : t.frame = s.frame
  resetPin : t.resetPin = s.resetPin
  port : t.port = s.port
  feeds : t.feeds = s.feeds
  cmdIndex : t.cmdIndex = s.cmdIndex

/-- No frame writes what no frame writes, however many run. -/
theorem frames_frame (k : Nat) (n : Word) (channels : BitVec 8) (s : State) :
    BlockFrame s (frames k n channels s) := by
  induction k generalizing n s with
  | zero => constructor <;> rfl
  | succ k ih =>
    have h := ih (n + 1) (frameStep n channels s)
    rw [frames]
    have e : BlockFrame s (frameStep n channels s) := by
      rw [frameStep_eq]; constructor <;> rfl
    exact ⟨h.ready.trans e.ready, h.pvalid.trans e.pvalid, h.fs.trans e.fs, h.blksz.trans e.blksz,
      h.staged.trans e.staged, h.active.trans e.active, h.derived.trans e.derived, h.frame.trans e.frame,
      h.resetPin.trans e.resetPin, h.port.trans e.port, h.feeds.trans e.feeds, h.cmdIndex.trans e.cmdIndex⟩

/-- The frame loop runs one frame more at its end as well as at its start. -/
theorem frames_add (a b : Nat) (n : Word) (channels : BitVec 8) (s : State) :
    frames (a + b) n channels s = frames b (n + BitVec.ofNat 32 a) channels (frames a n channels s) := by
  induction a generalizing n s with
  | zero => simp [frames]
  | succ a ih =>
    rw [Nat.add_right_comm, frames, ih, frames]
    congr 1
    rw [BitVec.add_assoc]
    congr 1
    rw [BitVec.ofNat_add, BitVec.add_comm]
    rfl

end Sys2Proof.Machine
end

