-- ==== Sys2Proof/Laws/Float.lean ====
section
/-! SUPPORT. The number system: magnitude bits order the values, and rounding never passes a representable value.
Every bound on a rounded result follows from the second. -/

namespace Sys2Proof
namespace F32

/-! ### Magnitudes and units -/

theorem unitsOf_small (m : Nat) (h : m ≤ 2 ^ 24) : unitsOf m = m := by
  unfold unitsOf
  split
  · rfl
  · next hm =>
    rcases Nat.lt_or_ge m (2 ^ 24) with hlt | hge
    · have h1 : m / 2 ^ 23 = 1 := by omega
      have h2 : 2 ^ 23 + m % 2 ^ 23 = m := by omega
      rw [h1, h2]; simp
    · have : m = 2 ^ 24 := le_antisymm h hge
      subst this; decide

/-- The significand `s` at exponent `e` stands for `s * 2^e` units, up to and including the next power of two. -/
theorem unitsOf_sig (e s : Nat) (h1 : 2 ^ 23 ≤ s) (h2 : s ≤ 2 ^ 24) : unitsOf (e * 2 ^ 23 + s) = s * 2 ^ e := by
  unfold unitsOf
  rw [if_neg (by omega)]
  rcases Nat.lt_or_ge s (2 ^ 24) with hlt | hge
  · have hd : (e * 2 ^ 23 + s) / 2 ^ 23 = e + 1 := by omega
    have hm : 2 ^ 23 + (e * 2 ^ 23 + s) % 2 ^ 23 = s := by omega
    rw [hd, hm]; simp
  · have hs : s = 2 ^ 24 := le_antisymm h2 hge
    subst hs
    have hd : (e * 2 ^ 23 + 2 ^ 24) / 2 ^ 23 = e + 2 := by omega
    have hm : (e * 2 ^ 23 + 2 ^ 24) % 2 ^ 23 = 0 := by omega
    rw [hd, hm, show e + 2 - 1 = e + 1 by omega, pow_succ]; ring

/-- Every magnitude above the first binade is a significand at an exponent. -/
theorem exists_sig (m : Nat) (h : 2 ^ 23 ≤ m) : ∃ e s, m = e * 2 ^ 23 + s ∧ 2 ^ 23 ≤ s ∧ s < 2 ^ 24 :=
  ⟨m / 2 ^ 23 - 1, 2 ^ 23 + m % 2 ^ 23, by omega, by omega, by omega⟩

theorem unitsOf_succ_gt (m : Nat) : unitsOf m < unitsOf (m + 1) := by
  rcases Nat.lt_or_ge m (2 ^ 23) with h | h
  · rw [unitsOf_small m (by omega), unitsOf_small (m + 1) (by omega)]; omega
  · obtain ⟨e, s, rfl, h1, h2⟩ := exists_sig m h
    rw [add_assoc, unitsOf_sig e s h1 (by omega), unitsOf_sig e (s + 1) (by omega) (by omega)]
    exact Nat.mul_lt_mul_of_pos_right (Nat.lt_succ_self s) (by positivity)

theorem unitsOf_strictMono : StrictMono unitsOf := strictMono_nat_of_lt_succ unitsOf_succ_gt

theorem unitsOf_le_iff (m n : Nat) : unitsOf m ≤ unitsOf n ↔ m ≤ n := unitsOf_strictMono.le_iff_le

theorem unitsOf_zero : unitsOf 0 = 0 := by decide

/-! ### Rounding -/

theorem roundNearest_ge (n d : Nat) : n / d ≤ roundNearest n d := by
  unfold roundNearest; split
  · exact le_refl _
  · split <;> omega

theorem roundNearest_le_succ (n d : Nat) : roundNearest n d ≤ n / d + 1 := by
  unfold roundNearest; split
  · omega
  · split <;> omega

theorem roundNearest_le (n d k : Nat) (hd : 0 < d) (h : n ≤ k * d) : roundNearest n d ≤ k := by
  rcases Nat.lt_or_ge (n / d) k with hlt | hge
  · exact (roundNearest_le_succ n d).trans hlt
  · have hnk : n = k * d := le_antisymm h ((Nat.le_div_iff_mul_le hd).1 hge)
    subst hnk
    have h1 : k * d % d = 0 := Nat.mul_mod_left k d
    have h2 : k * d / d = k := Nat.mul_div_cancel k hd
    unfold roundNearest
    rw [h1, h2, if_pos (by simpa using hd)]

/-- The exponent `roundMag` takes, and the significand below the exact value. -/
theorem roundMag_cases (n d : Nat) :
    let q := n / d
    let e := Nat.log2 q - 23
    (e = 0 ∧ q < 2 ^ 24) ∨ (1 ≤ e ∧ 2 ^ 23 ≤ q / 2 ^ e ∧ q / 2 ^ e < 2 ^ 24) := by
  intro q e
  rcases Nat.lt_or_ge (Nat.log2 q) 24 with h | h
  · left
    refine ⟨by omega, ?_⟩
    rcases Nat.eq_zero_or_pos q with h0 | h0
    · omega
    · exact (Nat.log2_lt (by omega)).1 h
  · right
    have hq : q ≠ 0 := by rintro h0; rw [h0] at h; simp at h
    have h1 := Nat.log2_self_le hq
    have h2 : q < 2 ^ (Nat.log2 q + 1) := Nat.lt_log2_self
    have hs : Nat.log2 q = e + 23 := by omega
    rw [hs, pow_add] at h1
    rw [hs, show e + 23 + 1 = e + 24 by omega, pow_add] at h2
    have hp : 0 < 2 ^ e := by positivity
    refine ⟨by omega, ?_, ?_⟩
    · rw [Nat.le_div_iff_mul_le hp, mul_comm]; exact h1
    · rw [Nat.div_lt_iff_lt_mul hp, mul_comm]; exact h2

/-- A representable magnitude at or below the exact value is at or below the rounded one. -/
theorem le_roundMag (n d m : Nat) (hm : m ≤ infMag) (h : unitsOf m * d ≤ n) (hd : 0 < d) : m ≤ roundMag n d := by
  unfold roundMag
  refine le_min hm ?_
  have hq : unitsOf m ≤ n / d := (Nat.le_div_iff_mul_le hd).2 h
  rcases roundMag_cases n d with ⟨he, hlt⟩ | ⟨he, hlo, hhi⟩
  · rw [he, zero_mul, zero_add, pow_zero, mul_one]
    have hm24 : m ≤ 2 ^ 24 := by
      rw [← unitsOf_le_iff, unitsOf_small (2 ^ 24) (le_refl _)]; omega
    rw [unitsOf_small m hm24] at hq
    exact hq.trans (roundNearest_ge n d)
  · generalize hE : Nat.log2 (n / d) - 23 = e at *
    have hs : n / d / 2 ^ e = n / (d * 2 ^ e) := Nat.div_div_eq_div_mul ..
    refine le_trans ?_ (Nat.add_le_add_left (roundNearest_ge n (d * 2 ^ e)) _)
    rw [← hs]
    by_contra hc
    have hm1 : e * 2 ^ 23 + (n / d / 2 ^ e + 1) ≤ m := by omega
    have := (unitsOf_le_iff _ _).2 hm1
    rw [unitsOf_sig e _ (by omega) (by omega)] at this
    have h3 : n / d < (n / d / 2 ^ e + 1) * 2 ^ e := by
      have := Nat.lt_div_mul_add (show 0 < 2 ^ e by positivity) (a := n / d)
      rw [add_mul, one_mul]; exact this
    omega

/-- A representable magnitude at or above the exact value is at or above the rounded one. -/
theorem roundMag_le (n d m : Nat) (h : n ≤ unitsOf m * d) (hd : 0 < d) : roundMag n d ≤ m := by
  unfold roundMag
  refine (min_le_right _ _).trans ?_
  rcases roundMag_cases n d with ⟨he, hlt⟩ | ⟨he, hlo, hhi⟩
  · rw [he, zero_mul, zero_add, pow_zero, mul_one]
    rcases Nat.lt_or_ge (2 ^ 24) m with hm | hm
    · exact (roundNearest_le_succ n d).trans (by omega)
    · exact roundNearest_le n d m hd (by rwa [unitsOf_small m hm] at h)
  · generalize hE : Nat.log2 (n / d) - 23 = e at *
    have hs : n / d / 2 ^ e = n / (d * 2 ^ e) := Nat.div_div_eq_div_mul ..
    have hup := roundNearest_le_succ n (d * 2 ^ e)
    rw [← hs] at hup
    rcases Nat.lt_or_ge (e * 2 ^ 23 + 2 ^ 24) m with hbig | hsmall
    · omega
    · have hge : e * 2 ^ 23 + 2 ^ 23 ≤ m := by
        rw [← unitsOf_le_iff, unitsOf_sig e _ (le_refl _) (by omega)]
        have h1 : 2 ^ 23 * 2 ^ e ≤ n / d := (Nat.le_div_iff_mul_le (by positivity)).1 hlo
        have h2 : n / d * d ≤ unitsOf m * d := (Nat.div_mul_le_self n d).trans h
        exact h1.trans (Nat.le_of_mul_le_mul_right h2 hd)
      obtain ⟨s, rfl⟩ : ∃ s, m = e * 2 ^ 23 + s := ⟨m - e * 2 ^ 23, by omega⟩
      refine Nat.add_le_add_left (roundNearest_le _ _ _ (by positivity) ?_) _
      rw [unitsOf_sig e s (by omega) (by omega)] at h
      rw [← mul_assoc, mul_assoc s d, mul_comm d, ← mul_assoc]; simpa [mul_assoc, mul_comm, mul_left_comm] using h

/-- A representable value is its own rounding. -/
theorem roundMag_exact (m d : Nat) (hm : m ≤ infMag) (hd : 0 < d) : roundMag (unitsOf m * d) d = m :=
  le_antisymm (roundMag_le _ _ _ (le_refl _) hd) (le_roundMag _ _ _ hm (le_refl _) hd)

theorem roundMag_le_inf (n d : Nat) : roundMag n d ≤ infMag := min_le_left _ _

/-- Which of two neighbours rounding takes: the nearer, the even one at the midpoint. -/
def nearer (m n lo hi : Nat) : Nat :=
  if 2 * n < lo + hi then m else if lo + hi < 2 * n then m + 1 else m + m % 2

/-- What rounding does, once: the exact value lies between two neighbours and the nearer is taken, but for overflow. -/
theorem roundMag_bracket (n d : Nat) (hd : 0 < d) :
    ∃ m, unitsOf m * d ≤ n ∧ n < unitsOf (m + 1) * d ∧
      roundMag n d = Min.min infMag (nearer m n (unitsOf m * d) (unitsOf (m + 1) * d)) := by
  have key : ∀ e t, unitsOf (e * 2 ^ 23 + t) = t * 2 ^ e → unitsOf (e * 2 ^ 23 + t + 1) = (t + 1) * 2 ^ e →
      t = n / (d * 2 ^ e) → Nat.log2 (n / d) - 23 = e → ∃ m, unitsOf m * d ≤ n ∧ n < unitsOf (m + 1) * d ∧
      roundMag n d = Min.min infMag (nearer m n (unitsOf m * d) (unitsOf (m + 1) * d)) := by
    intro e t h1 h2 ht he
    have hD : 0 < d * 2 ^ e := by positivity
    have hdm := Nat.div_add_mod n (d * 2 ^ e)
    have hr := Nat.mod_lt n hD
    rw [← ht] at hdm
    refine ⟨e * 2 ^ 23 + t, ?_, ?_, ?_⟩
    · rw [h1]; calc t * 2 ^ e * d = d * 2 ^ e * t := by ring
        _ ≤ n := by omega
    · rw [h2]; calc n < d * 2 ^ e * t + d * 2 ^ e := by omega
        _ = (t + 1) * 2 ^ e * d := by ring
    · unfold roundMag
      simp only [he]
      congr 1
      rw [h1, h2, show t * 2 ^ e * d = d * 2 ^ e * t by ring,
        show (t + 1) * 2 ^ e * d = d * 2 ^ e * t + d * 2 ^ e by ring]
      unfold nearer roundNearest
      rw [← ht]
      have hpar : (e * 2 ^ 23 + t) % 2 = t % 2 := by omega
      split_ifs <;> omega
  rcases roundMag_cases n d with ⟨he, hlt⟩ | ⟨he, hlo, hhi⟩
  · refine key 0 (n / d) ?_ ?_ (by simp) he
    · rw [zero_mul, zero_add, unitsOf_small _ (by omega)]; simp
    · rw [zero_mul, zero_add, unitsOf_small _ (by omega)]; simp
  · refine key _ (n / d / 2 ^ (Nat.log2 (n / d) - 23)) (unitsOf_sig _ _ hlo (by omega)) ?_
      (Nat.div_div_eq_div_mul ..) rfl
    rw [add_assoc]; exact unitsOf_sig _ _ (by omega) (by omega)

/-- Rounding is monotone. -/
theorem roundMag_mono (n n' d : Nat) (hd : 0 < d) (h : n ≤ n') : roundMag n d ≤ roundMag n' d := by
  obtain ⟨m, h1, h2, h3⟩ := roundMag_bracket n d hd
  obtain ⟨m', h1', h2', h3'⟩ := roundMag_bracket n' d hd
  have hmm : m < m' + 1 := by
    rw [← unitsOf_strictMono.lt_iff_lt]
    exact Nat.lt_of_mul_lt_mul_right (a := d) (by omega)
  rw [h3, h3']
  refine min_le_min (le_refl _) ?_
  unfold nearer
  rcases Nat.lt_or_ge m m' with hlt | hge
  · split_ifs <;> omega
  · have : m = m' := by omega
    subst this
    split_ifs <;> omega

/-! ### The parts of a value -/

theorem mag_lt (x : F32) : x.mag < 2 ^ 31 := Nat.mod_lt _ (by decide)

theorem mag_pack (s : Bool) (m : Nat) (h : m ≤ infMag) : (pack s m).mag = m := by
  unfold pack mag infMag at *
  cases s <;> simp <;> omega

theorem sign_pack (s : Bool) (m : Nat) (h : m ≤ infMag) : (pack s m).sign = s := by
  unfold pack sign infMag at *
  cases s
  · simp [BitVec.msb_eq_decide]; omega
  · simp [BitVec.msb_eq_decide]; omega

theorem pack_sign_mag (x : F32) : pack x.sign x.mag = x := by
  obtain ⟨b⟩ := x
  unfold pack sign mag
  congr 1
  apply BitVec.eq_of_toNat_eq
  have := b.isLt
  rw [BitVec.msb_eq_decide]
  by_cases h : 2 ^ 31 ≤ b.toNat
  · have h' : 2147483648 ≤ b.toNat := h
    simp [h']; omega
  · have h' : ¬ 2147483648 ≤ b.toNat := h
    simp [h']; omega

/-- Two values with the same sign and magnitude are the same. -/
theorem ext_sign_mag (x y : F32) (hs : x.sign = y.sign) (hm : x.mag = y.mag) : x = y := by
  rw [← pack_sign_mag x, ← pack_sign_mag y, hs, hm]

theorem isNaN_eq_false_iff (x : F32) : x.isNaN = false ↔ x.mag ≤ infMag := by simp [isNaN]

theorem isFinite_iff (x : F32) : x.isFinite = true ↔ x.mag < infMag := by simp [isFinite]

theorem isInf_iff (x : F32) : x.isInf = true ↔ x.mag = infMag := by simp [isInf]

theorem isInf_eq_false_of_isFinite (x : F32) (h : x.isFinite = true) : x.isInf = false := by
  rw [isFinite_iff] at h; simp [isInf]; omega

theorem isZero_iff (x : F32) : x.isZero = true ↔ x.mag = 0 := by simp [isZero]

theorem neg_neg (x : F32) : x.neg.neg = x := by
  apply ext_sign_mag <;> simp

@[simp] theorem isNaN_neg (x : F32) : x.neg.isNaN = x.isNaN := by simp [isNaN]
@[simp] theorem isInf_neg (x : F32) : x.neg.isInf = x.isInf := by simp [isInf]
@[simp] theorem isFinite_neg (x : F32) : x.neg.isFinite = x.isFinite := by simp [isFinite]
@[simp] theorem units_neg (x : F32) : x.neg.units = x.units := by simp [units]

theorem toInt_neg (x : F32) : x.neg.toInt = -x.toInt := by
  unfold toInt; rw [sign_neg, units_neg]; cases x.sign <;> simp

theorem key_neg (x : F32) : x.neg.key = -x.key := by
  unfold key; rw [sign_neg, mag_neg]; cases x.sign <;> simp

theorem natAbs_toInt (x : F32) : x.toInt.natAbs = x.units := by
  unfold toInt; cases x.sign <;> simp

/-! ### Order -/

theorem lt_iff (a b : F32) : a.lt b = true ↔ a.isNaN = false ∧ b.isNaN = false ∧ a.key < b.key := by
  simp [lt, and_assoc]

theorem le_iff (a b : F32) : a.le b = true ↔ a.isNaN = false ∧ b.isNaN = false ∧ a.key ≤ b.key := by
  simp [le, and_assoc]

theorem eq_iff (a b : F32) : a.eq b = true ↔ a.isNaN = false ∧ b.isNaN = false ∧ a.key = b.key := by
  simp [eq, and_assoc]

theorem gt_iff (a b : F32) : a.gt b = true ↔ a.isNaN = false ∧ b.isNaN = false ∧ b.key < a.key := by
  rw [gt, lt_iff]; tauto

theorem ge_iff (a b : F32) : a.ge b = true ↔ a.isNaN = false ∧ b.isNaN = false ∧ b.key ≤ a.key := by
  rw [ge, le_iff]; tauto

theorem le_trans {a b c : F32} (h1 : a.le b = true) (h2 : b.le c = true) : a.le c = true := by
  rw [le_iff] at *; exact ⟨h1.1, h2.2.1, h1.2.2.trans h2.2.2⟩

theorem le_refl {a : F32} (h : a.isNaN = false) : a.le a = true := by rw [le_iff]; exact ⟨h, h, Int.le_refl _⟩

/-- The order of places is the order of values. -/
theorem key_le_iff (a b : F32) : a.key ≤ b.key ↔ a.toInt ≤ b.toInt := by
  have hab := unitsOf_le_iff a.mag b.mag
  have hba := unitsOf_le_iff b.mag a.mag
  have ha0 := unitsOf_le_iff a.mag 0
  have hb0 := unitsOf_le_iff b.mag 0
  rw [unitsOf_zero] at ha0 hb0
  unfold key toInt units
  cases a.sign <;> cases b.sign <;> simp only [Bool.false_eq_true, if_true, if_false] <;> omega

/-- A value between two finite ones is finite. -/
theorem isFinite_of_le {a x b : F32} (ha : a.isFinite = true) (hb : b.isFinite = true) (h1 : a.le x = true)
    (h2 : x.le b = true) : x.isFinite = true := by
  rw [le_iff] at h1 h2
  rw [isFinite_iff] at *
  have hn := (isNaN_eq_false_iff x).1 h1.2.1
  have h1' := h1.2.2
  have h2' := h2.2.2
  unfold key at h1' h2'
  cases hx : x.sign <;> cases hsa : a.sign <;> cases hsb : b.sign <;> simp [hx, hsa, hsb] at h1' h2' <;> omega

/-! ### A rounded result against a representable bound -/

theorem round_notNaN (s : Bool) (n d : Nat) : (round s n d).isNaN = false := by
  rw [isNaN_eq_false_iff, round, mag_pack _ _ (roundMag_le_inf n d)]; exact roundMag_le_inf n d

/-- The signed number `± n`. -/
def signed (s : Bool) (n : Nat) : Int := if s then -(n : Int) else n

theorem key_round (s : Bool) (n d : Nat) : (round s n d).key = signed s (roundMag n d) := by
  unfold key round signed
  rw [sign_pack _ _ (roundMag_le_inf n d), mag_pack _ _ (roundMag_le_inf n d)]

/-- An exact value at or below a finite value rounds at or below it. -/
theorem round_le (s : Bool) (n d : Nat) (c : F32) (hd : 0 < d) (hc : c.isNaN = false)
    (h : signed s n ≤ c.toInt * d) : (round s n d).le c = true := by
  rw [le_iff]
  refine ⟨round_notNaN s n d, hc, ?_⟩
  rw [key_round]
  have hcm := (isNaN_eq_false_iff c).1 hc
  unfold signed toInt units at *
  unfold key
  cases s <;> cases hs : c.sign <;> simp only [hs, Bool.false_eq_true, if_true, if_false] at h ⊢
  · exact_mod_cast roundMag_le n d c.mag (by exact_mod_cast h) hd
  · have hz : (unitsOf c.mag : Int) * d = 0 ∧ n = 0 := by
      constructor
      · nlinarith [Int.natCast_nonneg (unitsOf c.mag * d)]
      · nlinarith [Int.natCast_nonneg (unitsOf c.mag * d)]
    have hu : unitsOf c.mag ≤ unitsOf 0 := by
      rw [unitsOf_zero]
      have : unitsOf c.mag * d = 0 := by exact_mod_cast hz.1
      rcases Nat.mul_eq_zero.1 this with h0 | h0 <;> omega
    have hm0 := (unitsOf_le_iff _ _).1 hu
    have := roundMag_le n d 0 (by rw [hz.2]; simp) hd
    omega
  · omega
  · have : unitsOf c.mag * d ≤ n := by
      have h' : (unitsOf c.mag : Int) * d ≤ n := by linarith
      exact_mod_cast h'
    have := le_roundMag n d c.mag hcm this hd
    omega

theorem neg_round (s : Bool) (n d : Nat) : (round s n d).neg = round (!s) n d := by
  have hi := roundMag_le_inf n d
  apply ext_sign_mag
  · rw [sign_neg, round, round, sign_pack _ _ hi, sign_pack _ _ hi]
  · rw [mag_neg, round, round, mag_pack _ _ hi, mag_pack _ _ hi]

theorem le_neg_neg (a b : F32) : a.neg.le b.neg = b.le a := by
  rw [Bool.eq_iff_iff, le_iff, le_iff, key_neg, key_neg, isNaN_neg, isNaN_neg]
  constructor <;> rintro ⟨h1, h2, h3⟩ <;> exact ⟨h2, h1, by omega⟩

/-- An exact value at or above a finite value rounds at or above it. -/
theorem le_round (s : Bool) (n d : Nat) (c : F32) (hd : 0 < d) (hc : c.isNaN = false)
    (h : c.toInt * d ≤ signed s n) : c.le (round s n d) = true := by
  rw [← le_neg_neg, neg_round]
  refine round_le _ _ _ _ hd (by rwa [isNaN_neg]) ?_
  rw [toInt_neg]
  unfold signed at *
  cases s <;> simp at h ⊢ <;> linarith

/-! ### The operations -/

theorem nan_isNaN (op : FOp) (a b : F32) : (nan op a b).isNaN = true := by
  unfold nan
  by_cases h : (Config.nanResult op a b).isNaN = true
  · simp [h]
  · simp [h]; decide

/-- What the sum of two finite values is. -/
theorem addWith_finite (bad a b : F32) (ha : a.isFinite = true) (hb : b.isFinite = true) :
    addWith bad a b = addFinite a b := by
  simp [addWith, isNaN_of_isFinite a ha, isNaN_of_isFinite b hb, isInf_eq_false_of_isFinite a ha,
    isInf_eq_false_of_isFinite b hb]

theorem pack_zero_eq_round (s : Bool) : pack s 0 = round s 0 1 := by
  cases s <;> decide +kernel

/-- The sum of two finite values is its exact value, rounded. -/
theorem addFinite_eq_round (a b : F32) :
    ∃ s, addFinite a b = round s (a.toInt + b.toInt).natAbs 1 ∧
      signed s (a.toInt + b.toInt).natAbs = a.toInt + b.toInt := by
  unfold addFinite
  by_cases h : a.toInt + b.toInt = 0
  · refine ⟨a.sign && b.sign, ?_, ?_⟩
    · simp only [h, if_true, Int.natAbs_zero]; exact pack_zero_eq_round _
    · rw [h]; cases (a.sign && b.sign) <;> rfl
  · refine ⟨decide (a.toInt + b.toInt < 0), by simp [h], ?_⟩
    unfold signed
    by_cases hn : a.toInt + b.toInt < 0
    · rw [decide_eq_true hn, if_pos rfl]; omega
    · rw [decide_eq_false hn, if_neg (by decide)]; omega

theorem add_finite_eq (a b : F32) (ha : a.isFinite = true) (hb : b.isFinite = true) :
    ∃ s, a.add b = round s (a.toInt + b.toInt).natAbs 1 ∧
      signed s (a.toInt + b.toInt).natAbs = a.toInt + b.toInt := by
  rw [add, addWith_finite _ _ _ ha hb]; exact addFinite_eq_round a b

theorem sub_finite_eq (a b : F32) (ha : a.isFinite = true) (hb : b.isFinite = true) :
    ∃ s, a.sub b = round s (a.toInt - b.toInt).natAbs 1 ∧
      signed s (a.toInt - b.toInt).natAbs = a.toInt - b.toInt := by
  rw [sub, addWith_finite _ _ _ ha (by rwa [isFinite_neg])]
  have := addFinite_eq_round a b.neg
  rwa [toInt_neg, ← sub_eq_add_neg] at this

theorem mul_finite_eq (a b : F32) (ha : a.isFinite = true) (hb : b.isFinite = true) :
    a.mul b = round (a.sign != b.sign) (a.units * b.units) (2 ^ 149) := by
  simp [mul, isNaN_of_isFinite a ha, isNaN_of_isFinite b hb, isInf_eq_false_of_isFinite a ha,
    isInf_eq_false_of_isFinite b hb]

theorem signed_mul (a b : F32) : signed (a.sign != b.sign) (a.units * b.units) = a.toInt * b.toInt := by
  unfold signed toInt
  cases a.sign <;> cases b.sign <;> simp

theorem div_finite_eq (a b : F32) (ha : a.isFinite = true) (hb : b.isFinite = true) (h0 : b.isZero = false) :
    a.div b = round (a.sign != b.sign) (a.units * 2 ^ 149) b.units := by
  simp [div, isNaN_of_isFinite a ha, isNaN_of_isFinite b hb, isInf_eq_false_of_isFinite a ha,
    isInf_eq_false_of_isFinite b hb, h0]

theorem units_pos (b : F32) (h : b.isZero = false) : 0 < b.units := by
  unfold units
  have : unitsOf 0 < unitsOf b.mag := unitsOf_strictMono (by simp [isZero] at h; omega)
  rwa [unitsOf_zero] at this

theorem signed_div (a b : F32) (k : Nat) :
    signed (a.sign != b.sign) (a.units * k) * signed b.sign 1 = a.toInt * k := by
  unfold signed toInt
  cases a.sign <;> cases b.sign <;> simp

/-- A positive value has no sign and is no zero. -/
theorem toInt_pos (b : F32) (h : 0 < b.toInt) : b.sign = false ∧ b.toInt = b.units ∧ b.isZero = false := by
  unfold toInt at *
  cases hs : b.sign
  · simp only [hs, Bool.false_eq_true, if_false] at h ⊢
    refine ⟨trivial, trivial, ?_⟩
    by_contra hz
    have : b.units = 0 := by rw [units, (isZero_iff b).1 (by simpa using hz), unitsOf_zero]
    omega
  · simp only [hs, if_true] at h
    omega

/-- `a + b` of finite values is at or below a value its exact sum is at or below. -/
theorem add_le (a b c : F32) (ha : a.isFinite = true) (hb : b.isFinite = true) (hc : c.isNaN = false)
    (h : a.toInt + b.toInt ≤ c.toInt) : (a.add b).le c = true := by
  obtain ⟨s, h1, h2⟩ := add_finite_eq a b ha hb
  rw [h1]; exact round_le _ _ _ _ (by decide) hc (by rw [h2]; simpa using h)

theorem le_add (a b c : F32) (ha : a.isFinite = true) (hb : b.isFinite = true) (hc : c.isNaN = false)
    (h : c.toInt ≤ a.toInt + b.toInt) : c.le (a.add b) = true := by
  obtain ⟨s, h1, h2⟩ := add_finite_eq a b ha hb
  rw [h1]; exact le_round _ _ _ _ (by decide) hc (by rw [h2]; simpa using h)

theorem sub_le (a b c : F32) (ha : a.isFinite = true) (hb : b.isFinite = true) (hc : c.isNaN = false)
    (h : a.toInt - b.toInt ≤ c.toInt) : (a.sub b).le c = true := by
  obtain ⟨s, h1, h2⟩ := sub_finite_eq a b ha hb
  rw [h1]; exact round_le _ _ _ _ (by decide) hc (by rw [h2]; simpa using h)

theorem le_sub (a b c : F32) (ha : a.isFinite = true) (hb : b.isFinite = true) (hc : c.isNaN = false)
    (h : c.toInt ≤ a.toInt - b.toInt) : c.le (a.sub b) = true := by
  obtain ⟨s, h1, h2⟩ := sub_finite_eq a b ha hb
  rw [h1]; exact le_round _ _ _ _ (by decide) hc (by rw [h2]; simpa using h)

theorem mul_le (a b c : F32) (ha : a.isFinite = true) (hb : b.isFinite = true) (hc : c.isNaN = false)
    (h : a.toInt * b.toInt ≤ c.toInt * 2 ^ 149) : (a.mul b).le c = true := by
  rw [mul_finite_eq a b ha hb]
  exact round_le _ _ _ _ (by positivity) hc (by rw [signed_mul]; exact_mod_cast h)

theorem le_mul (a b c : F32) (ha : a.isFinite = true) (hb : b.isFinite = true) (hc : c.isNaN = false)
    (h : c.toInt * 2 ^ 149 ≤ a.toInt * b.toInt) : c.le (a.mul b) = true := by
  rw [mul_finite_eq a b ha hb]
  exact le_round _ _ _ _ (by positivity) hc (by rw [signed_mul]; exact_mod_cast h)

/-- A quotient by a positive finite value is at or below a value its exact quotient is at or below. -/
theorem div_le (a b c : F32) (ha : a.isFinite = true) (hb : b.isFinite = true) (h0 : 0 < b.toInt)
    (hc : c.isNaN = false) (h : a.toInt * 2 ^ 149 ≤ c.toInt * b.toInt) : (a.div b).le c = true := by
  obtain ⟨hs, hu, hz⟩ := toInt_pos b h0
  rw [div_finite_eq a b ha hb hz]
  refine round_le _ _ _ _ (units_pos b hz) hc ?_
  have := signed_div a b (2 ^ 149)
  rw [hs] at this ⊢
  rw [hu] at h
  simp only [signed, Bool.false_eq_true, if_false, Nat.cast_one, mul_one] at this
  exact (this.trans_le (by exact_mod_cast h))

theorem le_div (a b c : F32) (ha : a.isFinite = true) (hb : b.isFinite = true) (h0 : 0 < b.toInt)
    (hc : c.isNaN = false) (h : c.toInt * b.toInt ≤ a.toInt * 2 ^ 149) : c.le (a.div b) = true := by
  obtain ⟨hs, hu, hz⟩ := toInt_pos b h0
  rw [div_finite_eq a b ha hb hz]
  refine le_round _ _ _ _ (units_pos b hz) hc ?_
  have := signed_div a b (2 ^ 149)
  rw [hs] at this ⊢
  rw [hu] at h
  simp only [signed, Bool.false_eq_true, if_false, Nat.cast_one, mul_one] at this
  exact le_of_le_of_eq (by exact_mod_cast h) this.symm

/-- A representable exact value is its own rounding. -/
theorem round_exact (c : F32) (n d : Nat) (hd : 0 < d) (hc : c.isNaN = false) (h : n = c.units * d) :
    round c.sign n d = c := by
  rw [round, h, units, roundMag_exact _ _ ((isNaN_eq_false_iff c).1 hc) hd, pack_sign_mag]

/-- `i2f` of a natural number. -/
theorem ofInt_nat (k : Nat) : ofInt k = round false (k * 2 ^ 149) 1 := by
  have : decide ((k : Int) < 0) = false := by simp
  rw [ofInt, this, Int.natAbs_natCast]

/-- The sum and the difference of finite values, and a rounded value, are no NaN. -/
theorem add_notNaN (a b : F32) (ha : a.isFinite = true) (hb : b.isFinite = true) : (a.add b).isNaN = false := by
  obtain ⟨s, h1, -⟩ := add_finite_eq a b ha hb; rw [h1]; exact round_notNaN ..

theorem sub_notNaN (a b : F32) (ha : a.isFinite = true) (hb : b.isFinite = true) : (a.sub b).isNaN = false := by
  obtain ⟨s, h1, -⟩ := sub_finite_eq a b ha hb; rw [h1]; exact round_notNaN ..

theorem mul_notNaN (a b : F32) (ha : a.isFinite = true) (hb : b.isFinite = true) : (a.mul b).isNaN = false := by
  rw [mul_finite_eq a b ha hb]; exact round_notNaN ..

theorem div_notNaN (a b : F32) (ha : a.isFinite = true) (hb : b.isFinite = true) (h0 : b.isZero = false) :
    (a.div b).isNaN = false := by
  rw [div_finite_eq a b ha hb h0]; exact round_notNaN ..

/-! ### A NaN operand gives a NaN -/

theorem addWith_isNaN (bad a b : F32) (hb : bad.isNaN = true) (h : a.isNaN = true ∨ b.isNaN = true) :
    (addWith bad a b).isNaN = true := by
  rcases h with h | h <;> simp [addWith, h, hb]

theorem add_isNaN (a b : F32) (h : a.isNaN = true ∨ b.isNaN = true) : (a.add b).isNaN = true :=
  addWith_isNaN _ _ _ (nan_isNaN _ _ _) h

theorem sub_isNaN (a b : F32) (h : a.isNaN = true ∨ b.isNaN = true) : (a.sub b).isNaN = true :=
  addWith_isNaN _ _ _ (nan_isNaN _ _ _) (by simpa using h)

theorem mul_isNaN (a b : F32) (h : a.isNaN = true ∨ b.isNaN = true) : (a.mul b).isNaN = true := by
  rcases h with h | h <;> simp [mul, h, nan_isNaN]

theorem div_isNaN (a b : F32) (h : a.isNaN = true ∨ b.isNaN = true) : (a.div b).isNaN = true := by
  rcases h with h | h <;> simp [div, h, nan_isNaN]

/-! ### The helpers of 00_scope.md R13 -/

/-- What `clamp` answers where its bounds are in order: never a value outside them. -/
theorem clamp_bounds (x lo hi : F32) (hlo : lo.isNaN = false) (h : lo.le hi = true) :
    lo.le (clamp x lo hi) = true ∧ (clamp x lo hi).le hi = true := by
  have hh := (le_iff _ _).1 h
  unfold clamp
  by_cases hx : x.ge lo = true
  · simp only [hx, Bool.not_true, Bool.false_eq_true, if_false]
    have hxl := (ge_iff _ _).1 hx
    by_cases hg : x.gt hi = true
    · simp only [hg, if_true]; exact ⟨h, le_refl hh.2.1⟩
    · simp only [hg, if_false, Bool.false_eq_true]
      refine ⟨by rw [le_iff]; exact ⟨hlo, hxl.1, hxl.2.2⟩, ?_⟩
      rw [le_iff]
      rw [gt_iff] at hg
      refine ⟨hxl.1, hh.2.1, ?_⟩
      by_contra hc
      exact hg ⟨hxl.1, hh.2.1, by omega⟩
  · simp only [hx, Bool.not_false, if_true]
    have hg : ¬ lo.gt hi = true := by
      rw [gt_iff]; rintro ⟨-, -, h3⟩; have := hh.2.2; omega
    simp only [hg, if_false, Bool.false_eq_true]
    exact ⟨le_refl hlo, h⟩

/-- A value within the bounds passes `clamp` unchanged. -/
theorem clamp_within (x lo hi : F32) (h1 : lo.le x = true) (h2 : x.le hi = true) : clamp x lo hi = x := by
  have hx : x.ge lo = true := h1
  have hg : ¬ x.gt hi = true := by
    rw [gt_iff]; rintro ⟨-, -, h3⟩; have := ((le_iff _ _).1 h2).2.2; omega
  simp [clamp, hx, hg]

end F32
end Sys2Proof
end

