-- ==== Sys2Proof/Laws/Literals.lean ====
section
/-! SUPPORT. The constants of the configuration and the named values are the binary32 values nearest to the decimals of
the spec (00_scope.md R8, R9, 10_state.md R23). -/

namespace Sys2Proof

-- One theorem after another: each `decide +kernel` waits for all before it, and waiting threads use up the memory limit.
set_option Elab.async false

theorem literal_zero : F32.literal 0 1 = F32.zero := by decide +kernel
theorem literal_one : F32.literal 1 1 = F32.one := by decide +kernel
theorem literal_two : F32.literal 2 1 = F32.two := by decide +kernel
theorem literal_three : F32.literal 3 1 = F32.three := by decide +kernel
theorem literal_half : F32.literal 1 2 = F32.half := by decide +kernel
theorem literal_twenty : F32.literal 20 1 = F32.twenty := by decide +kernel
theorem literal_forty : F32.literal 40 1 = F32.forty := by decide +kernel
theorem literal_sixty : F32.literal 60 1 = F32.sixty := by decide +kernel
theorem literal_thousand : F32.literal 1000 1 = F32.thousand := by decide +kernel
theorem literal_twoPowMinus23 : F32.literal 1 (2 ^ 23) = F32.twoPowMinus23 := by decide +kernel
theorem literal_minusTwo : (F32.literal 2 1).neg = F32.minusTwo := by decide +kernel

theorem literal_baseMs : F32.literal 5 1 = Config.cfg.baseMs := by decide +kernel
theorem literal_depthMs : F32.literal 5 1 = Config.cfg.depthMs := by decide +kernel
theorem literal_dMin : F32.literal 1 1 = Config.cfg.dMin := by decide +kernel
theorem literal_dMax : F32.literal 4094 1 = Config.cfg.dMax := by decide +kernel
theorem literal_spreadK : F32.literal 1 2 = Config.cfg.spreadK := by decide +kernel
theorem literal_spreadK_decimal : F32.literal 5 10 = Config.cfg.spreadK := by decide +kernel
theorem literal_modScale : F32.literal 1 2 = Config.cfg.modScale := by decide +kernel
theorem literal_jitStep : F32.literal 1 128 = Config.cfg.jitStep := by decide +kernel
theorem literal_jitMax : F32.literal 1 8 = Config.cfg.jitMax := by decide +kernel
theorem literal_tstopK : F32.literal 5 1 = Config.cfg.tstopK := by decide +kernel
theorem literal_tstopRate : F32.literal 1 1 = Config.cfg.tstopRate := by decide +kernel
theorem literal_qLp : F32.literal 5 10 = Config.cfg.qLp := by decide +kernel
theorem literal_fShelf : F32.literal 6000 1 = Config.cfg.fShelf := by decide +kernel
theorem literal_fTilt : F32.literal 1000 1 = Config.cfg.fTilt := by decide +kernel
theorem literal_fLo : F32.literal 1000 1 = Config.cfg.fLo := by decide +kernel
theorem literal_nyqK : F32.literal 45 100 = Config.cfg.nyqK := by decide +kernel
theorem literal_satK : F32.literal 1 2 = Config.cfg.satK := by decide +kernel
theorem literal_satDrive : F32.literal 9 1 = Config.cfg.satDrive := by decide +kernel
theorem literal_envRelax : F32.literal 1 1024 = Config.cfg.envRelax := by decide +kernel
theorem literal_humH2 : F32.literal 3 10 = Config.cfg.humH2 := by decide +kernel
theorem literal_humH3 : F32.literal 15 100 = Config.cfg.humH3 := by decide +kernel
theorem literal_fMains0 : F32.literal 50 1 = Config.cfg.fMains0 := by decide +kernel
theorem literal_fMains1 : F32.literal 60 1 = Config.cfg.fMains1 := by decide +kernel
theorem literal_muteDb : (F32.literal 120 1).neg = Config.cfg.muteDb := by decide +kernel

theorem literal_rate_range : Config.cfg.rate = ⟨F32.literal 0 1, F32.literal 100 1⟩ := by decide +kernel
theorem literal_unit_range : Config.cfg.unit = ⟨F32.literal 0 1, F32.literal 1 1⟩ := by decide +kernel
theorem literal_dropRate_range : Config.cfg.dropRate = ⟨F32.literal 0 1, F32.literal 6000 1⟩ := by decide +kernel
theorem literal_dropDur_range : Config.cfg.dropDur = ⟨F32.literal 0 1, F32.literal 1000 1⟩ := by decide +kernel
theorem literal_level_range : Config.cfg.level = ⟨(F32.literal 120 1).neg, F32.literal 0 1⟩ := by decide +kernel
theorem literal_shelfDb_range : Config.cfg.shelfDb = ⟨(F32.literal 24 1).neg, F32.literal 24 1⟩ := by decide +kernel
theorem literal_tiltDb_range : Config.cfg.tiltDb = ⟨(F32.literal 12 1).neg, F32.literal 12 1⟩ := by decide +kernel
theorem literal_outDb_range : Config.cfg.outDb = ⟨(F32.literal 120 1).neg, F32.literal 24 1⟩ := by decide +kernel

end Sys2Proof
end

