-- ==== Sys2Proof/Laws/PerInstr.lean ====
section
/-! SUPPORT. A family of statements about each instruction as syntax: its encoding has the shape of its row of the
opcode map or of the stage table. -/

namespace Sys2Proof.Laws

/-- A command's encoding starts with a word that selects a row of the opcode map (30_encoding.md R86), and has as many
words as the row says (R88); a stage's identifier has one of the thirteen stage codes (R91). -/
def EncodingRow.Statement (i : Instr) : Prop :=
  match encode i with
  | .command ws => ∃ w t r, ws = w :: t ∧ opcodeRow w = some r ∧ r.words = ws.length
  | .stage id => stageCode id ≤ 0xC

theorem EncodingRow.reset (sampleRate blockSize : Word) : EncodingRow.Statement (.reset sampleRate blockSize) :=
  ⟨_, _, ⟨.reset, 0x01000000#32, 0xFFFFFFFF#32, 3⟩, rfl, by decide, rfl⟩

theorem EncodingRow.setparams (v : ParamWords) : EncodingRow.Statement (.setparams v) :=
  ⟨_, _, ⟨.setparams, 0x02000000#32, 0xFFFFFFFF#32, 19⟩, rfl, by decide, rfl⟩

/-- A PROCESS word selects the PROCESS row, whatever its channel count. -/
theorem opcodeRow_process (channels : BitVec 8) :
    opcodeRow (commandWord 0x03#8 channels) = some ⟨.process, 0x03000000#32, 0xFFFFFF00#32, 2⟩ := by
  revert channels; decide +kernel

theorem EncodingRow.process (channelCount : BitVec 8) (frameCount : Word) :
    EncodingRow.Statement (.process channelCount frameCount) :=
  ⟨_, _, _, rfl, opcodeRow_process channelCount, rfl⟩

theorem EncodingRow.fetch : EncodingRow.Statement .fetch := by
  simp only [EncodingRow.Statement, encode]; decide
theorem EncodingRow.mod : EncodingRow.Statement .mod := by
  simp only [EncodingRow.Statement, encode]; decide
theorem EncodingRow.hum : EncodingRow.Statement .hum := by
  simp only [EncodingRow.Statement, encode]; decide
theorem EncodingRow.genv : EncodingRow.Statement .genv := by
  simp only [EncodingRow.Statement, encode]; decide
theorem EncodingRow.dlyrd (c : Channel) : EncodingRow.Statement (.dlyrd c) := by
  simp only [EncodingRow.Statement, encode]; cases c <;> decide
theorem EncodingRow.flt (c : Channel) : EncodingRow.Statement (.flt c) := by
  simp only [EncodingRow.Statement, encode]; cases c <;> decide
theorem EncodingRow.sat (c : Channel) : EncodingRow.Statement (.sat c) := by
  simp only [EncodingRow.Statement, encode]; cases c <;> decide
theorem EncodingRow.envsc (c : Channel) : EncodingRow.Statement (.envsc c) := by
  simp only [EncodingRow.Statement, encode]; cases c <;> decide
theorem EncodingRow.noise (c : Channel) : EncodingRow.Statement (.noise c) := by
  simp only [EncodingRow.Statement, encode]; cases c <;> decide
theorem EncodingRow.mix (c : Channel) : EncodingRow.Statement (.mix c) := by
  simp only [EncodingRow.Statement, encode]; cases c <;> decide
theorem EncodingRow.outwr (c : Channel) : EncodingRow.Statement (.outwr c) := by
  simp only [EncodingRow.Statement, encode]; cases c <;> decide
theorem EncodingRow.dlywr (c : Channel) : EncodingRow.Statement (.dlywr c) := by
  simp only [EncodingRow.Statement, encode]; cases c <;> decide
theorem EncodingRow.drop : EncodingRow.Statement .drop := by
  simp only [EncodingRow.Statement, encode]; decide

end Sys2Proof.Laws
end

