-- ==== Sys2Proof/Laws/Run.lean ====
section
/-! SUPPORT. What a unit of a run and a run of a command stream can do, said once. -/

namespace Sys2Proof.Machine

/-! ### The stages left -/

@[simp] theorem stagesLeft_idle : FrameCtx.idle.stagesLeft = 0 := rfl

theorem stagesLeft_none (f : FrameCtx) (h : f.stage = none) : f.stagesLeft = 0 := by rw [FrameCtx.stagesLeft, h]

/-- A PROCESS has twenty-one stages to run for each of its frames. -/
theorem stagesLeft_start (channels : BitVec 8) (frameCount : Word) :
    (FrameCtx.start channels frameCount).stagesLeft = 21 * frameCount.toNat := by
  rw [FrameCtx.start]
  split
  · next h =>
    have h0 : 0 < frameCount.toNat := h
    show (21 - 0) + 21 * (frameCount.toNat - 0 - 1) = _
    omega
  · next h =>
    have h0 : ¬ 0 < frameCount.toNat := h
    rw [stagesLeft_idle]; omega

/-- The frame context stands at a stage of the sequence, in a frame of the block, or at a boundary. -/
def FrameCtx.legal (f : FrameCtx) : Prop := ∀ id, f.stage = some id → id ∈ frameSequence ∧ f.n < f.frameCount

theorem legal_start (channels : BitVec 8) (frameCount : Word) : (FrameCtx.start channels frameCount).legal := by
  intro id h
  rw [FrameCtx.start] at h ⊢
  split at h
  · next hc => rw [if_pos hc]; cases h; exact ⟨by decide, hc⟩
  · cases h

/-- What follows a stage of the sequence: the stage at the next place, or nothing after the last. -/
theorem following_frameSequence (id : BitVec 5) (h : id ∈ frameSequence) :
    (∃ j ∈ frameSequence, following id frameSequence = some j ∧
      frameSequence.idxOf j = frameSequence.idxOf id + 1) ∨
    (following id frameSequence = none ∧ frameSequence.idxOf id = 20) := by
  revert h; revert id; decide

theorem stagesLeft_some (f : FrameCtx) (id : BitVec 5) (h : f.stage = some id) :
    f.stagesLeft = (21 - frameSequence.idxOf id) + 21 * (f.frameCount.toNat - f.n.toNat - 1) := by
  rw [FrameCtx.stagesLeft, h]; rfl

/-- Moving on keeps the context legal and leaves one stage fewer. -/
theorem advance_stagesLeft (f : FrameCtx) (id : BitVec 5) (hs : f.stage = some id) (hl : f.legal) :
    f.advance.legal ∧ f.advance.stagesLeft + 1 = f.stagesLeft := by
  obtain ⟨hm, hn⟩ := hl id hs
  have hn' : f.n.toNat < f.frameCount.toNat := hn
  have hb := f.frameCount.isLt
  rw [stagesLeft_some f id hs]
  rcases following_frameSequence id hm with ⟨j, hj, he, hi⟩ | ⟨he, hi⟩
  · have ha : f.advance = { f with stage := some j } := by rw [FrameCtx.advance, hs]; simp only [he]
    have h2 : frameSequence.idxOf j < 21 := List.idxOf_lt_length_of_mem hj
    rw [ha, stagesLeft_some _ j rfl]
    refine ⟨fun k hk => ?_, ?_⟩
    · cases hk; exact ⟨hj, hn⟩
    · show (21 - frameSequence.idxOf j) + 21 * (f.frameCount.toNat - f.n.toNat - 1) + 1 = _
      omega
  · have h1 : (f.n + 1).toNat = f.n.toNat + 1 := by
      rw [BitVec.toNat_add, Nat.mod_eq_of_lt] <;> simp; omega
    by_cases hc : f.n + 1 < f.frameCount
    · have ha : f.advance = { f with stage := some 0#5, n := f.n + 1 } := by
        rw [FrameCtx.advance, hs]; simp only [he, if_pos hc]; rfl
      have hc' : (f.n + 1).toNat < f.frameCount.toNat := hc
      rw [ha, stagesLeft_some _ 0#5 rfl]
      refine ⟨fun k hk => ?_, ?_⟩
      · cases hk; exact ⟨by decide, hc⟩
      · show (21 - 0) + 21 * (f.frameCount.toNat - (f.n + 1).toNat - 1) + 1 = _
        omega
    · have ha : f.advance = FrameCtx.idle := by
        rw [FrameCtx.advance, hs]; simp only [he, if_neg hc]
      have hc' : ¬ (f.n + 1).toNat < f.frameCount.toNat := hc
      rw [ha, stagesLeft_idle]
      exact ⟨fun k hk => by simp [FrameCtx.idle] at hk, by omega⟩

/-- After the stages left the command is complete: the engine is at a boundary, and no word has left the port. -/
theorem run_stagesLeft (k : Nat) (s t : State) (hk : s.frame.stagesLeft = k) (hl : s.frame.legal)
    (hp : s.resetPin = false) (h : run k s = .next t) : t.atBoundary = true ∧ t.port = s.port := by
  induction k generalizing s with
  | zero =>
    obtain rfl : s = t := by simpa using h
    rcases hs : s.frame.stage with _ | id
    · exact ⟨by simp [State.atBoundary, hs, hp], rfl⟩
    · have := (advance_stagesLeft _ id hs hl).2
      omega
  | succ k ih =>
    rw [run] at h
    split at h
    · next u hu =>
      rcases step_cases s u hu with ⟨hr, -⟩ | ⟨id, i, v, -, hs, hd, he, rfl⟩ | ⟨i, rest, v, -, hs, -⟩ | ⟨-, hs, -⟩
      · rw [hp] at hr; cases hr
      · obtain ⟨v', he', fr⟩ := exec_stage id i s hd
        rw [he] at he'; cases he'
        obtain ⟨ha, hb⟩ := advance_stagesLeft s.frame id hs hl
        have hv : (afterStage v).frame = v.frame.advance := rfl
        have hsl : v.frame.advance.stagesLeft = s.frame.advance.stagesLeft ∧ v.frame.advance.legal := by
          have e1 := fr.stage; have e2 := fr.n; have e3 := fr.frameCount
          have hlv : v.frame.legal := by
            intro j hj; rw [e1] at hj; rw [e2, e3]; exact hl j hj
          have hsv : v.frame.stage = some id := by rw [e1, hs]
          obtain ⟨h1, h2⟩ := advance_stagesLeft v.frame id hsv hlv
          refine ⟨?_, h1⟩
          have : v.frame.stagesLeft = s.frame.stagesLeft := by
            simp only [FrameCtx.stagesLeft, e1, e2, e3]
          omega
        obtain ⟨h1, h2⟩ := ih (afterStage v) (by rw [hv, hsl.1]; omega) (by rw [hv]; exact hsl.2)
          (by show v.resetPin = false; rw [fr.resetPin, hp]) h
        exact ⟨h1, h2.trans fr.port⟩
      · rw [stagesLeft_none _ hs] at hk; omega
      · rw [stagesLeft_none _ hs] at hk; omega
    · cases h
    · cases h

/-! ### The verdict on a state -/

/-- A further command can be taken up exactly where the stream is neither at its end nor inside a command. -/
theorem halted_eq_none (s : State) : s.halted = none ↔ s.ended = false ∧ s.stuck = false := by
  unfold State.halted
  cases s.ended <;> cases s.stuck <;> simp

/-- The verdict is a normal end or stuck, never that the fuel is spent. -/
theorem halted_ne_outOfFuel (s u : State) : s.halted ≠ some (.outOfFuel u) := by
  unfold State.halted
  cases s.ended <;> cases s.stuck <;> simp

/-! ### One command -/

/-- A unit is one step and the stages it leaves to run. -/
theorem runCommand_of_step (s t : State) (h : step s = .next t) : runCommand s = run t.frame.stagesLeft t := by
  rw [runCommand, h]

/-- A command that begins no frame is one step. -/
theorem runCommand_of_boundary (s t : State) (h : step s = .next t) (ht : t.frame.stage = none) :
    runCommand s = .next t := by
  rw [runCommand_of_step s t h, stagesLeft_none _ ht, run_zero]

/-- A unit is as many steps as it needs: one, and the stages left after it. -/
theorem runCommand_eq_run (s t : State) (h : step s = .next t) : runCommand s = run (1 + t.frame.stagesLeft) s := by
  rw [runCommand_of_step s t h, Nat.add_comm, run_next _ _ _ h]

/-- The words of a command leave the stream. -/
theorem decodeCommand_length (ws rest : List Word) (i : Instr) (h : decodeCommand ws = .command i rest) :
    rest.length < ws.length := by
  unfold decodeCommand at h
  split at h
  · cases h
  · split at h
    · unfold decodeOperands at h
      split at h
      · split at h <;> simp at h; obtain ⟨-, rfl⟩ := h; simp; omega
      · split at h
        · next hv =>
          simp at h; obtain ⟨-, rfl⟩ := h
          unfold takeParams at hv
          split at hv <;> simp at hv
          obtain ⟨-, rfl⟩ := hv; simp; omega
        · cases h
      · split at h <;> simp at h; obtain ⟨-, rfl⟩ := h; simp
    · cases h

/-- A command that leads on leads to a boundary, with at least its command word gone from the port. -/
theorem runCommand_boundary (s t : State) (hs : s.atBoundary = true) (hh : s.halted = none)
    (h : runCommand s = .next t) : t.atBoundary = true ∧ t.port.length < s.port.length := by
  have hb : s.frame.stage = none ∧ s.resetPin = false := by
    simpa [State.atBoundary] using hs
  unfold runCommand at h
  split at h
  · next u hu =>
    rcases step_cases s u hu with ⟨hr, -⟩ | ⟨id, i, v, -, hst, -⟩ | ⟨i, rest, v, -, -, hd, he, rfl⟩ | ⟨-, -, hw, -⟩
    · rw [hb.2] at hr; cases hr
    · rw [hb.1] at hst; cases hst
    · have hlen := decodeCommand_length _ _ _ hd
      rcases command_cases _ _ _ _ _ hd he with ⟨fs, block, -, -, rfl⟩ | ⟨w, p, -, -, rfl⟩ | ⟨ch, f, -, -, -, rfl⟩
      · have h0 : (afterCommand ((s.consume rest).reinitialise ⟨fs⟩ block)).frame.stage = none := hb.1
        rw [stagesLeft_none _ h0] at h; cases h
        exact ⟨hs, hlen⟩
      · have h0 : (afterCommand { s.consume rest with pvalid := true, staged := p }).frame.stage = none := hb.1
        rw [stagesLeft_none _ h0] at h; cases h
        exact ⟨hs, hlen⟩
      · have hport : ∀ x : State, x.takeFeed.port = x.port ∧ x.takeFeed.resetPin = x.resetPin := by
          intro x; unfold State.takeFeed; split <;> exact ⟨rfl, rfl⟩
        have hr : (afterCommand ((latch (s.consume rest).takeFeed).setFrame (FrameCtx.start ch f))).resetPin = false :=
          (hport (s.consume rest)).2.trans hb.2
        obtain ⟨h1, h2⟩ := run_stagesLeft _ _ t rfl (legal_start ch f) hr h
        refine ⟨h1, ?_⟩
        rw [h2]
        exact ((congrArg List.length (hport (s.consume rest)).1).trans_lt hlen)
    · exfalso
      have he : s.ended = true ∨ s.stuck = true := by
        rcases hp : s.port with _ | ⟨w, ws⟩
        · left; simp [State.ended, hs, hp]
        · right; rw [hp] at hw; simp [State.stuck, hs, hp, hw]
      rw [halted_eq_none] at hh
      rcases he with he | he
      · rw [hh.1] at he; cases he
      · rw [hh.2] at he; cases he
  · cases h
  · cases h

/-! ### A command stream -/

/-- A run that can take up no further command stops there, whatever fuel is left. -/
theorem runStream_halted (k : Nat) (s : State) (e : RunEnd) (h : s.halted = some e) : runStream k s = ⟨[], e⟩ := by
  cases k <;> rw [runStream, h]
  rfl

/-- The stream is exhausted: a normal end (R296). -/
theorem runStream_ended (k : Nat) (s : State) (h : s.ended = true) : runStream k s = ⟨[], .ended s⟩ :=
  runStream_halted k s _ (by rw [State.halted, if_pos h])

/-- The stream ends inside a command: stuck (R296, R88). -/
theorem runStream_stuck (k : Nat) (s : State) (h : s.stuck = true) : runStream k s = ⟨[], .stuck s⟩ := by
  refine runStream_halted k s _ ?_
  have he : s.ended = false := by
    rcases hp : s.port with _ | _ <;> simp_all [State.stuck, State.ended]
  rw [State.halted, if_neg (by simp [he]), if_pos h]

/-- A command that leads on adds what it writes to the outputs of the rest of the run. -/
theorem runStream_next (k : Nat) (s t : State) (hh : s.halted = none) (h : runCommand s = .next t) :
    runStream (k + 1) s = ⟨unitOutputs s t ++ (runStream k t).outputs, (runStream k t).last⟩ := by
  rw [runStream, hh]; simp only [h]

/-- The first command that faults ends the run (R296). -/
theorem runStream_fault (k : Nat) (s : State) (f : Fault) (hh : s.halted = none) (h : runCommand s = .fault f) :
    runStream (k + 1) s = ⟨[], .fault f⟩ := by
  rw [runStream, hh]; simp only [h]

/-- From a boundary, as much fuel as the stream has words is enough. -/
theorem runStream_fuel (k : Nat) (s u : State) (hs : s.atBoundary = true) (hk : s.port.length ≤ k) :
    (runStream k s).last ≠ .outOfFuel u := by
  induction k generalizing s with
  | zero =>
    have he : s.ended = true := by
      have : s.port = [] := List.length_eq_zero_iff.1 (by omega)
      simp [State.ended, hs, this]
    rw [runStream_ended _ _ he]; simp
  | succ k ih =>
    rcases hh : s.halted with _ | e
    · rw [runStream, hh]
      simp only
      split
      · next t ht =>
        obtain ⟨h1, h2⟩ := runCommand_boundary s t hs hh ht
        exact ih t h1 (by omega)
      · simp
      · simp
    · rw [runStream_halted _ _ _ hh]; rintro rfl; exact halted_ne_outOfFuel s u hh

/-- A run from power-on never runs out of fuel. -/
theorem runFromPowerOn_fuel (stream : List Word) (inputs : List Mem) (u : State) :
    (runFromPowerOn stream inputs).last ≠ .outOfFuel u :=
  runStream_fuel _ _ u rfl (Nat.le_refl _)

end Sys2Proof.Machine
end

