-- ==== Sys2Proof/Laws/Stage.lean ====
section
/-! SUPPORT. The step that runs each stage of a frame: the state `s` with the frame context at that stage goes to the
state after the stage's operation, with the context at the next stage and the wire driven. -/

namespace Sys2Proof.Machine

/-- The frame context at a stage of frame `n`. -/
def FrameCtx.atStage (id : BitVec 5) (n frameCount : Word) (channels : BitVec 8) (w : Wires) : FrameCtx :=
  ⟨some id, n, frameCount, channels, w⟩

@[simp] theorem setChannel_resetPin (s : State) (c : Channel) (v : ChannelState) :
    (s.setChannel c v).resetPin = s.resetPin := by cases c <;> rfl

@[simp] theorem filter_resetPin (s : State) (c : Channel) (x : F32) : (filter s c x).2.resetPin = s.resetPin := by
  rw [filter_spec, setChannel_resetPin]

@[simp] theorem saturate_resetPin (s : State) (c : Channel) (x : F32) :
    (saturate s c x).2.resetPin = s.resetPin := by rw [saturate_spec, setChannel_resetPin]

@[simp] theorem noise_resetPin (s : State) : (noise s).2.resetPin = s.resetPin := rfl

@[simp] theorem outWrite_resetPin (s : State) (c : Channel) (n : Word) (o : F32) (channels : BitVec 8) :
    (outWrite s c n o channels).resetPin = s.resetPin := by rw [outWrite_spec]

@[simp] theorem modulate_resetPin (s : State) : (modulate s).2.resetPin = s.resetPin := rfl

@[simp] theorem channelFrame_resetPin (n : Word) (channels : BitVec 8) (dry m hum genv : F32) (c : Channel)
    (s : State) : (channelFrame n channels dry m hum genv c s).resetPin = s.resetPin := by
  rw [channelFrame_eq]; exact setChannel_resetPin _ _ _

/-- DROP does not depend on the frame context. -/
theorem dropStep_setFrame (s : State) (f : FrameCtx) : dropStep (s.setFrame f) = (dropStep s).setFrame f := by
  rw [dropStep_eq, dropStep_eq]; rfl

/-- The output write does not depend on the frame context. -/
theorem outWrite_setFrame (s : State) (f : FrameCtx) (c : Channel) (n : Word) (o : F32) (channels : BitVec 8) :
    outWrite (s.setFrame f) c n o channels = (outWrite s c n o channels).setFrame f := by
  simp only [outWrite_spec]; rfl

/-- A stage that gives a next state steps to it with the sequence moved on. -/
theorem step_atStage (s u : State) (id : BitVec 5) (i : Instr) (f : FrameCtx) (hf : f.stage = some id)
    (hr : s.resetPin = false) (hd : decodeStage id = some i) (hu : exec i (s.setFrame f) = .next u) :
    step (s.setFrame f) = .next (afterStage u) := by
  have hs : (s.setFrame f).frame.stage = some id := hf
  have hp : (s.setFrame f).resetPin = false := hr
  rw [step, stepOnce, hp]
  simp only [Bool.false_eq_true, if_false, hs]
  rw [stepStage, hd]
  simp only [hu]
  rfl

section
variable (s : State) (n frameCount : Word) (channels : BitVec 8) (w : Wires) (hr : s.resetPin = false)
include hr

theorem step_fetch :
    step (s.setFrame (.atStage 0x00#5 n frameCount channels w)) =
      .next (s.setFrame (.atStage 0x01#5 n frameCount channels
        { w with dry0 := dryInput s.inBuf n channels .left, dry1 := dryInput s.inBuf n channels .right })) :=
  step_atStage s _ 0x00#5 .fetch _ rfl hr rfl rfl

theorem step_mod :
    step (s.setFrame (.atStage 0x01#5 n frameCount channels w)) =
      .next ((modulate s).2.setFrame (.atStage 0x02#5 n frameCount channels { w with m := (modulate s).1 })) :=
  step_atStage s _ 0x01#5 .mod _ rfl hr rfl rfl

theorem step_hum :
    step (s.setFrame (.atStage 0x02#5 n frameCount channels w)) =
      .next (s.setFrame (.atStage 0x03#5 n frameCount channels { w with hum := humNow s })) :=
  step_atStage s _ 0x02#5 .hum _ rfl hr rfl rfl

theorem step_genv :
    step (s.setFrame (.atStage 0x03#5 n frameCount channels w)) =
      .next (s.setFrame (.atStage (stageId .left 4#4) n frameCount channels { w with genv := envelope s })) :=
  step_atStage s _ 0x03#5 .genv _ rfl hr rfl rfl

theorem step_dlyrd (c : Channel) :
    step (s.setFrame (.atStage (stageId c 4#4) n frameCount channels w)) =
      .next (s.setFrame (.atStage (stageId c 5#4) n frameCount channels { w with x := delayTap s c w.m })) := by
  cases c
  · exact step_atStage s _ (stageId .left 4#4) (.dlyrd .left) _ rfl hr rfl rfl
  · exact step_atStage s _ (stageId .right 4#4) (.dlyrd .right) _ rfl hr rfl rfl

theorem step_flt (c : Channel) :
    step (s.setFrame (.atStage (stageId c 5#4) n frameCount channels w)) =
      .next ((filter s c w.x).2.setFrame
        (.atStage (stageId c 6#4) n frameCount channels { w with x := (filter s c w.x).1 })) := by
  cases c
  · exact step_atStage s _ (stageId .left 5#4) (.flt .left) _ rfl hr rfl rfl
  · exact step_atStage s _ (stageId .right 5#4) (.flt .right) _ rfl hr rfl rfl

theorem step_sat (c : Channel) :
    step (s.setFrame (.atStage (stageId c 6#4) n frameCount channels w)) =
      .next ((saturate s c w.x).2.setFrame
        (.atStage (stageId c 7#4) n frameCount channels { w with x := (saturate s c w.x).1 })) := by
  cases c
  · exact step_atStage s _ (stageId .left 6#4) (.sat .left) _ rfl hr rfl rfl
  · exact step_atStage s _ (stageId .right 6#4) (.sat .right) _ rfl hr rfl rfl

theorem step_envsc (c : Channel) :
    step (s.setFrame (.atStage (stageId c 7#4) n frameCount channels w)) =
      .next (s.setFrame
        (.atStage (stageId c 8#4) n frameCount channels { w with x := scaleEnvelope w.x w.genv })) := by
  cases c
  · exact step_atStage s _ (stageId .left 7#4) (.envsc .left) _ rfl hr rfl rfl
  · exact step_atStage s _ (stageId .right 7#4) (.envsc .right) _ rfl hr rfl rfl

theorem step_noise (c : Channel) :
    step (s.setFrame (.atStage (stageId c 8#4) n frameCount channels w)) =
      .next ((noise s).2.setFrame
        (.atStage (stageId c 9#4) n frameCount channels { w with nz := (noise s).1 })) := by
  cases c
  · exact step_atStage s _ (stageId .left 8#4) (.noise .left) _ rfl hr rfl rfl
  · exact step_atStage s _ (stageId .right 8#4) (.noise .right) _ rfl hr rfl rfl

theorem step_mix (c : Channel) :
    step (s.setFrame (.atStage (stageId c 9#4) n frameCount channels w)) =
      .next (s.setFrame
        (.atStage (stageId c 10#4) n frameCount channels { w with o := mixOut s (w.dry c) w.x w.nz w.hum })) := by
  cases c
  · exact step_atStage s _ (stageId .left 9#4) (.mix .left) _ rfl hr rfl rfl
  · exact step_atStage s _ (stageId .right 9#4) (.mix .right) _ rfl hr rfl rfl

theorem step_outwr (c : Channel) :
    step (s.setFrame (.atStage (stageId c 10#4) n frameCount channels w)) =
      .next ((outWrite s c n w.o channels).setFrame (.atStage (stageId c 11#4) n frameCount channels w)) := by
  have h : exec (.outwr c) (s.setFrame (.atStage (stageId c 10#4) n frameCount channels w)) =
      .next ((outWrite s c n w.o channels).setFrame (.atStage (stageId c 10#4) n frameCount channels w)) := by
    rw [exec, execOutwr, outWrite_setFrame]; rfl
  cases c
  · exact step_atStage s _ (stageId .left 10#4) (.outwr .left) _ rfl hr rfl h
  · exact step_atStage s _ (stageId .right 10#4) (.outwr .right) _ rfl hr rfl h

theorem step_dlywr_left :
    step (s.setFrame (.atStage (stageId .left 11#4) n frameCount channels w)) =
      .next ((delayWrite s .left w.dry0).setFrame (.atStage (stageId .right 4#4) n frameCount channels w)) :=
  step_atStage s _ (stageId .left 11#4) (.dlywr .left) _ rfl hr rfl rfl

theorem step_dlywr_right :
    step (s.setFrame (.atStage (stageId .right 11#4) n frameCount channels w)) =
      .next ((delayWrite s .right w.dry1).setFrame (.atStage 0x0C#5 n frameCount channels w)) :=
  step_atStage s _ (stageId .right 11#4) (.dlywr .right) _ rfl hr rfl rfl

theorem step_drop :
    step (s.setFrame (.atStage 0x0C#5 n frameCount channels w)) =
      .next ((dropStep s).setFrame
        (if n + 1 < frameCount then .atStage 0x00#5 (n + 1) frameCount channels w else FrameCtx.idle)) := by
  have h : exec .drop (s.setFrame (.atStage 0x0C#5 n frameCount channels w)) =
      .next ((dropStep s).setFrame (.atStage 0x0C#5 n frameCount channels w)) := by
    rw [exec, execDrop, dropStep_setFrame]
  refine (step_atStage s _ 0x0C#5 .drop _ rfl hr rfl h).trans ?_
  have e : following 0x0C#5 frameSequence = none := by decide
  rw [afterStage, State.setFrame_frame, FrameCtx.advance]
  simp only [FrameCtx.atStage, e]
  rfl

end

end Sys2Proof.Machine
end

