-- ==== Sys2Proof/Tests/Slice0.lean ====
section
/-! SUPPORT. Tests. Expected values are the derived vectors of 95_test_vectors.md (V30 to V60), quoted by number, or the
encodings of 30_encoding.md written out by hand. Then one witness for the hypotheses of every statement that has any. -/

namespace Sys2Proof.Tests

-- One theorem after another: each `decide +kernel` waits for all before it, and waiting threads use up the memory limit.
set_option Elab.async false

open Sys2Proof.Machine

/-! ### WellFormed: each check refuses an ill-formed term -/

/-- Eighteen operand words with the two booleans given and every other word zero. -/
def params (mains tstop : Word) : ParamWords :=
  ⟨0, 0, 0, 0, 0, 0, 0, 0, 0, 0, mains, 0, 0, 0, 0, 0, 0, tstop⟩

theorem test_wellFormed_accepts_booleans : (Instr.setparams (params 1 0)).wellFormed = true := by decide
/-- V30.10. -/
theorem test_wellFormed_refuses_mains_2 : (Instr.setparams (params 2 0)).wellFormed = false := by decide
/-- V30.11: 1.0 as a float in a boolean's place. -/
theorem test_wellFormed_refuses_tstop_float : (Instr.setparams (params 0 0x3F800000)).wellFormed = false := by decide

/-! ### Decoding: words written out from 30_encoding.md -/

/-- V30.1. -/
theorem test_decode_reset :
    decodeCommand [0b00000001000000000000000000000000#32, 0x473B8000#32, 0x00000200#32] =
      .command (.reset 0x473B8000#32 512#32) [] := by decide

/-- The words of V30.5, the neutral set. -/
def neutralWords : List Word :=
  [0b00000010000000000000000000000000#32, 0, 0, 0, 0, 0, 0, 0, 0, 0xC2F00000#32, 0xC2F00000#32, 0, 0x469C4000#32, 0, 0, 0,
    0x3F800000#32, 0, 0]

/-- V30.5: noise and hum at -120, cutoff 20000, mix 1. -/
theorem test_decode_setparams :
    decodeCommand neutralWords =
      .command (.setparams
        ⟨0, 0, 0, 0, 0, 0, 0, 0, 0xC2F00000#32, 0xC2F00000#32, 0, 0x469C4000#32, 0, 0, 0, 0x3F800000#32, 0, 0⟩) [] := by
  decide

/-- V30.4. -/
theorem test_decode_process :
    decodeCommand [0b00000011000000000000000011111111#32, 0#32] = .command (.process 255#8 0#32) [] := by decide

/-- V30.12: eighteen words of nineteen. -/
theorem test_decode_truncated : decodeCommand (0x02000000#32 :: List.replicate 17 0#32) = .waiting := by decide

/-- V30.6 to V30.9. -/
theorem test_decode_illegal :
    [0x00000000#32, 0x04000000#32, 0x01000001#32, 0x03000102#32].map opcodeRow = [none, none, none, none] := by decide

theorem test_decode_fetch : decodeStage 0b00000#5 = some .fetch := by decide
theorem test_decode_mod : decodeStage 0b00001#5 = some .mod := by decide
theorem test_decode_hum : decodeStage 0b00010#5 = some .hum := by decide
theorem test_decode_genv : decodeStage 0b00011#5 = some .genv := by decide
theorem test_decode_dlyrd : decodeStage 0b10100#5 = some (.dlyrd .right) := by decide
theorem test_decode_flt : decodeStage 0b00101#5 = some (.flt .left) := by decide
theorem test_decode_sat : decodeStage 0b10110#5 = some (.sat .right) := by decide
theorem test_decode_envsc : decodeStage 0b00111#5 = some (.envsc .left) := by decide
theorem test_decode_noise : decodeStage 0b11000#5 = some (.noise .right) := by decide
theorem test_decode_mix : decodeStage 0b01001#5 = some (.mix .left) := by decide
theorem test_decode_outwr : decodeStage 0b11010#5 = some (.outwr .right) := by decide
theorem test_decode_dlywr : decodeStage 0b01011#5 = some (.dlywr .left) := by decide
theorem test_decode_drop : decodeStage 0b01100#5 = some .drop := by decide

/-- R91: the right channel's identifier of a stage that runs once per frame, and the codes 13 to 15, are unused. -/
theorem test_decode_unused : [0b10000#5, 0b11100#5, 0b01101#5, 0b11111#5].map decodeStage = [none, none, none, none] := by
  decide

theorem test_tableWord_command : decodeTableWord 32 0x03000002 = some (.process 2#8 0#32) := by decide
theorem test_tableWord_stage : decodeTableWord 8 0x14 = some (.dlyrd .right) := by decide

/-! ### One instruction on a small state -/

/-- 48000.0. -/
def rate48k : F32 := ⟨0x473B8000#32⟩

/-- A state after a `RESET` at 48 kHz and a `SETPARAMS`, with the words given on the port. -/
def ready (ws : List Word) : State :=
  { State.reset with
    ready := true, pvalid := true, fs := rate48k, rng := 0x12345678#32, drop := Dropout.rearmed, port := ws }

/-- A state in frame 0 of a `PROCESS` of one frame and two channels, at the stage given. -/
def inFrame (id : BitVec 5) : State :=
  { ready [] with
    derived := { Derived.initial with half := F32.half, dur := 1 }
    frame := ⟨some id, 0, 1, 2, Wires.idle⟩ }

/-- What a field of the next state is, where there is one. -/
def nextOf {α : Type} (r : Result) (f : State → α) : Option α :=
  match r with
  | .next s => some (f s)
  | .fault _ => none
  | .refused _ => none

/-- The code and the left state's READY of a fault. -/
def faultOf (r : Result) : Option (Nat × Bool) :=
  match r with
  | .next _ => none
  | .fault f => some (f.code, f.report.left.ready)
  | .refused _ => none

theorem test_withFetchWord_command :
    nextOf (step ((ready []).withFetchWord 32 0x03000002)) (·.frame.stage) = some none := by decide

theorem test_withFetchWord_stage :
    nextOf (step (State.reset.withFetchWord 8 0x0B)) (·.left.w) = some 1#12 := by decide

/-- V40.7: RESET rearms the scheduler and seeds the generator, and PVALID is 0. -/
theorem test_reset :
    nextOf (exec (.reset 0x473B8000#32 512#32) (ready [])) (fun t => (t.rng, t.drop.count, t.pvalid, t.ready)) =
      some (0x12345678#32, -1#48, false, true) := by decide +kernel

/-- V60.4 to V60.6. -/
theorem test_reset_bad_rates :
    [0x00000000#32, 0xC72C4400#32, 0x7FC00000#32, 0x7F800000#32, 0x80000000#32].map
      (fun fs => faultOf (exec (.reset fs 512#32) (ready []))) = List.replicate 5 (some (2, false)) := by decide +kernel

/-- V60.9. -/
theorem test_setparams_reserved : faultOf (exec (.setparams (params 3 0)) (ready [])) = some (5, true) := by decide

/-- V60.1, V60.7, V60.2. -/
theorem test_process_checks :
    faultOf (exec (.process 2#8 1#32) State.reset) = some (1, false) ∧
      faultOf (exec (.process 2#8 1#32) { ready [] with pvalid := false }) = some (3, true) := by decide

/-- The staged values of V40.1. -/
def staged401 : Params where
  wowRate := ⟨0x43480000#32⟩
  wowDepth := ⟨0x40000000#32⟩
  flutRate := ⟨0xC0A00000#32⟩
  flutDepth := ⟨0x7FC00000#32⟩
  dropRate := ⟨0x45DAC000#32⟩
  dropDepth := ⟨0xBF800000#32⟩
  dropDur := ⟨0x44FA0000#32⟩
  satAmt := ⟨0x3FC00000#32⟩
  noiseDb := ⟨0xC3480000#32⟩
  humDb := ⟨0x40A00000#32⟩
  mainsSel := true
  lpCutoff := ⟨0x46EA6000#32⟩
  shelfDb := ⟨0x41F00000#32⟩
  tiltDb := ⟨0xC1F00000#32⟩
  spread := ⟨0x7F800000#32⟩
  mix := ⟨0xFF800000#32⟩
  outDb := ⟨0x42C80000#32⟩
  tstop := false

/-- V40.1. -/
theorem test_latch_clamps :
    latchParams rate48k staged401 =
      ⟨F32.literal 100 1, F32.one, F32.zero, F32.zero, F32.literal 6000 1, F32.zero, F32.thousand, F32.one,
        (F32.literal 120 1).neg, F32.zero, true, F32.literal 21600 1, F32.literal 24 1, (F32.literal 12 1).neg, F32.one,
        F32.zero, F32.literal 24 1, false⟩ := by decide +kernel

/-- V40.3 and V40.5: `DUR` and the cutoff's upper bound. -/
theorem test_latch_duration :
    durationFrames ⟨0x472C4400#32⟩ (F32.literal 10 1) = 441#32 ∧ durationFrames rate48k F32.zero = 1#32 ∧
      durationFrames rate48k (F32.literal 1 16) = 3#32 ∧ nyquistBound ⟨0x472C4400#32⟩ = ⟨0x469B0A00#32⟩ := by
  decide +kernel

/-- FETCH: channel 1 is +0.0 where the host supplied one channel (V40.9). -/
theorem test_fetch :
    let s : State := { inFrame 0 with inBuf := (memWrite (memWrite [] 0 0 F32.one) 1 0 F32.two) }
    nextOf (exec .fetch { s with frame := { s.frame with channelCount := 1 } })
      (fun t => (t.frame.wires.dry0, t.frame.wires.dry1)) = some (F32.one, F32.zero) := by decide

/-- OUTWR: `OUT[1]` is never written with one channel (V40.9), its word is little-endian (R63). -/
theorem test_outwr :
    let s : State := { inFrame 0x0A with frame := ⟨some 0x0A#5, 1, 2, 1, { Wires.idle with o := F32.one }⟩ }
    nextOf (exec (.outwr .left) s) (·.outBuf) = some [(6, 0x80#8), (7, 0x3F#8)] ∧
      nextOf (exec (.outwr .right) s) (·.outBuf) = some [] := by decide

/-- V42.1, frame 0: the hum phases and the jitter. -/
theorem test_mod_phases :
    humPhaseNext Config.cfg.fMains0 rate48k F32.zero = ⟨0x3A888889#32⟩ ∧
      humPhaseNext Config.cfg.fMains1 rate48k F32.zero = ⟨0x3AA3D70A#32⟩ ∧
      jitNext (uniform 0x87985AA5#32) F32.zero = ⟨0x39730B40#32⟩ ∧
      phaseNext F32.one F32.one rate48k F32.zero = ⟨0x37AEC33E#32⟩ := by decide +kernel

/-- V42.4: the ramp of the first three frames. -/
theorem test_mod_ramp :
    rampNext true rate48k F32.zero = ⟨0x37AEC33E#32⟩ ∧
      rampNext true rate48k ⟨0x37AEC33E#32⟩ = ⟨0x382EC33E#32⟩ ∧
      rampNext true rate48k ⟨0x382EC33E#32⟩ = ⟨0x3883126E#32⟩ ∧
      rampNext false rate48k ⟨0x382EC33E#32⟩ = F32.zero := by decide +kernel

/-- V41.1 and V41.2: the first draws. -/
theorem test_draws :
    rngNext 0x12345678#32 = 0x87985AA5#32 ∧ rngNext 0x87985AA5#32 = 0x155B24A3#32 ∧
      rngNext^[15] 0x12345678#32 = 0x8CC6CEC6#32 ∧ uniform 0x87985AA5#32 = F32.literal 4443181 8388608 := by
  decide +kernel

/-- V43.1: the target delays of channel 1 at `spread` = 1, the last clamped. -/
theorem test_dlyrd_delay :
    [0x00000000#32, 0x3F000000#32, 0xBF000000#32, 0x3F880000#32, 0xBF880000#32].map
      (fun m => delaySamples ⟨m⟩ (F32.literal 3 2) rate48k) =
      [F32.literal 240 1, F32.literal 420 1, F32.literal 60 1, F32.literal 1245 2, F32.one] := by decide +kernel

/-- V43.2: the two taps and the interpolation. -/
theorem test_dlyrd_taps :
    delayRead { ChannelState.cleared with w := 10, dly := Mem.writeWord [] 3739 0x3F800000#32 } (F32.literal 735 2) =
      F32.half := by decide +kernel

/-- V43.3: the cursor advances and wraps. -/
theorem test_dlywr :
    let s : State :=
      { inFrame 0x0B with
        left := { ChannelState.cleared with w := 4095 }
        frame := ⟨some 0x0B#5, 0, 1, 2, { Wires.idle with dry0 := F32.half }⟩ }
    nextOf (exec (.dlywr .left) s) (fun t => (t.left.w, dlyRead t.left 4095, t.right.w)) =
      some (0#12, F32.half, 0#12) := by decide

/-- V44.3: a section with b0 = 1, b1 = a1, b2 = a2 and registers at rest passes its input. -/
theorem test_flt_passes :
    let q : Coef := ⟨F32.one, ⟨0xBF715BEF#32⟩, ⟨0x3EAAAAAB#32⟩, ⟨0xBF715BEF#32⟩, ⟨0x3EAAAAAB#32⟩⟩
    sectionStep q Section.rest F32.half = (F32.half, Section.rest) := by decide +kernel

/-- V44.1: the first three samples of the low-pass's impulse response, the first being b0. -/
theorem test_flt_impulse :
    let q : Coef := ⟨⟨0x3F1F3BF4#32⟩, ⟨0x3F9F3BF4#32⟩, ⟨0x3F1F3BF4#32⟩, ⟨0x3F93CD3D#32⟩, ⟨0x3EAAAAB0#32⟩⟩
    let r0 := sectionStep q Section.rest F32.one
    let r1 := sectionStep q r0.2 F32.zero
    r0.1 = ⟨0x3F1F3BF4#32⟩ ∧ r1.1 = F32.literal 5257833003997803 (10 ^ 16) := by decide +kernel

/-- V45.1, first step: the pre-emphasised sample of 0.5 is 0.75. -/
theorem test_sat_preEmphasis : preEmphasis F32.half F32.zero = F32.literal 3 4 := by decide +kernel

/-- V45.4: silence stays silence. -/
theorem test_sat_silence : saturated F32.one F32.zero F32.zero F32.zero = F32.zero := by
  have h : F32.one.mul (preEmphasis F32.zero F32.zero) = F32.zero := by decide +kernel
  rw [saturated, h, Config.library.tanh_zero.1]
  decide +kernel

/-- V46.6. -/
theorem test_genv :
    envelopeGain F32.half F32.half = F32.literal 3 4 ∧ envelopeGain F32.one F32.zero = F32.zero ∧
      envelopeGain F32.zero F32.zero = F32.one := by decide +kernel

theorem test_envsc :
    let s : State := { inFrame 0x07 with frame := ⟨some 0x07#5, 0, 1, 2, { Wires.idle with x := F32.half, genv := F32.half }⟩ }
    nextOf (exec (.envsc .left) s) (·.frame.wires.x) = some (F32.literal 1 4) := by decide +kernel

/-- V46.5. -/
theorem test_drop_disabled :
    let s : State := { inFrame 0x0C with drop := ⟨.dippingDown, 33, 7, F32.half⟩ }
    nextOf (exec .drop s) (fun t => (t.drop, t.rng)) =
      some (⟨.waiting, -1, 0, ⟨0x3F004000#32⟩⟩, 0x12345678#32) := by decide +kernel

/-- V46.3: the two steps of a falling event of `DUR` = 3, at a rate of 10 a second. -/
theorem test_drop_event :
    let g : Derived := { Derived.initial with lambda := F32.literal 10 1, half := F32.literal 3 2, dur := 3 }
    let s : State := { inFrame 0x0C with derived := g, drop := ⟨.dippingDown, 0, 0, F32.one⟩ }
    dropStep s = s.setDrop ⟨.dippingDown, 0, 1, ⟨0x3EAAAAAA#32⟩⟩ ∧
      dropStep (dropStep s) = s.setDrop ⟨.dippingUp, 0, 2, F32.zero⟩ := by decide +kernel

/-- V47.1: draws 2 and 3. -/
theorem test_noise :
    noiseValue F32.one (uniform 0x155B24A3#32) (uniform 0x4820F4C4#32) = ⟨0xBF2283E8#32⟩ := by decide +kernel

/-- V47.4, V47.5: the selector, and the sum under an amplitude of zero at phase zero. -/
theorem test_hum_selects :
    selectedPhase true { Modulation.cleared with ph60 := F32.half } = F32.half ∧
      selectedPhase false { Modulation.cleared with ph60 := F32.half } = F32.zero := by decide

/-- V48.1, V48.2, V48.3, V48.5. -/
theorem test_mix :
    blend (F32.literal 1 4) F32.one F32.one F32.half = F32.literal 7 8 ∧
      blend F32.one F32.one F32.one F32.half = F32.half ∧
      blend F32.zero F32.two F32.half ⟨0x7FC00000#32⟩ = F32.one ∧
      blend ⟨0x3E99999A#32⟩ F32.half F32.one F32.one.neg = ⟨0x3E4CCCCC#32⟩ := by decide +kernel

/-- V48.7: a non-finite dry sample poisons the output even at mix = 1. -/
theorem test_mix_poison : (blend F32.one F32.one F32.inf F32.zero).isNaN = true := by
  have h1 : F32.one.eq F32.zero = false := by decide
  have h2 : (F32.inf.mul (F32.one.sub F32.one)).isNaN = true := by
    have h : F32.one.sub F32.one = F32.zero := by decide +kernel
    rw [h]
    exact F32.nan_isNaN .mul F32.inf F32.zero
  rw [blend, h1, if_neg (by decide)]
  exact F32.mul_isNaN _ _ (.inl (F32.add_isNaN _ _ (.inl h2)))

/-! ### Runs of a command stream (R296) -/

/-- How a run stands, by a number: ended 0, a fault its code, stuck 10, refused 11, out of fuel 12. -/
def standing (r : Run) : Nat :=
  match r.last with
  | .ended _ => 0
  | .fault f => f.code
  | .stuck _ => 10
  | .refused _ => 11
  | .outOfFuel _ => 12

/-- The channel and the index of each word a run writes. -/
def writes (r : Run) : List (List (Channel × Word)) := r.outputs.map (·.map (fun o => (o.channel, o.n)))

/-- `RESET` at 48 kHz. -/
def resetWords : List Word := [0x01000000#32, 0x473B8000#32, 512#32]

/-- Two commands ended; the second cut short, stuck; an illegal word, fault 4; one unit of fuel for two commands. -/
theorem test_run_ends :
    standing (runFromPowerOn (resetWords ++ resetWords) []) = 0 ∧
      standing (runFromPowerOn (resetWords ++ neutralWords.dropLast) []) = 10 ∧
      standing (runFromPowerOn (resetWords ++ [0x04000000#32]) []) = 4 ∧
      standing (runStream 1 { State.reset with port := resetWords ++ resetWords }) = 12 := by decide +kernel

/-- A unit is a whole command: two blocks, of one frame on two channels and two frames on one, are four units with the
commands before them; each frame writes channel 0 first. -/
theorem test_run_writes :
    let r := runStream 4
      { State.reset with
        port := resetWords ++ neutralWords ++ [0x03000002#32, 1#32, 0x03000001#32, 2#32] }
    standing r = 0 ∧ writes r = [[(.left, 0), (.right, 0)], [(.left, 0), (.left, 1)]] := by decide +kernel

/-! ### Witnesses: a state and operands that meet the hypotheses of each statement, for each clause -/

theorem witness_CommandDecodesAtHeadOfStream :
    portWords (.reset 0#32 0#32) ≠ [] ∧ portWords (.setparams (params 0 0)) ≠ [] ∧ portWords (.process 0#8 0#32) ≠ [] := by
  decide

theorem witness_AtMostOneRowMatches :
    (⟨.process, 0x03000000#32, 0xFFFFFF00#32, 2⟩ : OpcodeRow) ∈ opcodeMap ∧
      0x030000FF#32 &&& 0xFFFFFF00#32 = 0x03000000#32 := by decide

theorem witness_IllegalWordRaisesIllegalCmd :
    (ready [0x04000000#32]).atBoundary = true ∧ opcodeRow 0x04000000#32 = none ∧ opcodeRow 0x01000001#32 = none := by decide

theorem witness_StreamEndsWait :
    (ready []).atBoundary = true ∧ (ready [0x030000FF#32]).atBoundary = true ∧
      0x030000FF#32 &&& 0xFFFFFF00#32 = 0x03000000#32 ∧ [0x01000000#32, 0#32].length < 3 ∧
      (0x02000000#32 :: List.replicate 17 0#32).length < 19 := by decide

theorem witness_StepRunsTheNextInstruction :
    (ready neutralWords).atBoundary = true ∧
      decodeCommand (ready [0x03000002#32, 1#32]).port = .command (.process 2#8 1#32) [] ∧
      (inFrame 0x14).resetPin = false ∧ (inFrame 0x14).frame.stage = some 0x14#5 ∧
      decodeStage 0x14#5 = some (.dlyrd .right) := by decide

theorem witness_ResetInputAbandonsTheCommand : { inFrame 0x14 with resetPin := true }.resetPin = true := by decide

/-- The least and the greatest positive finite rate. -/
theorem witness_ResetReinitialisesTheEngine :
    ((F32.mk 0x00000001#32).isFinite = true ∧ (F32.mk 0x00000001#32).sign = false ∧
      (F32.mk 0x00000001#32).isZero = false) ∧
    (F32.mk 0x7F7FFFFF#32).isFinite = true ∧ (F32.mk 0x7F7FFFFF#32).sign = false ∧
      (F32.mk 0x7F7FFFFF#32).isZero = false := by decide

theorem witness_BadSampleRateFaults :
    (F32.mk 0x7F800001#32).isNaN = true ∧ (F32.mk 0x7F800000#32).isInf = true ∧ (F32.mk 0x80000000#32).isZero = true ∧
      (F32.mk 0x80000001#32).sign = true := by decide

theorem witness_SetparamsStagesAllOrNone :
    ((params 1 0).mainsSel.toNat < 2 ∧ (params 0 1).tstop.toNat < 2) ∧ 2 ≤ (params 2 0).mainsSel.toNat ∧
      2 ≤ (params 0 0xFFFFFFFF).tstop.toNat := by decide

theorem witness_ProcessChecksReadyThenParams :
    State.reset.ready = false ∧ { ready [] with pvalid := false }.ready = true ∧
      { ready [] with pvalid := false }.pvalid = false := by decide

/-- For the latch, the derived constants and the filter designs. -/
theorem witness_ProcessLatches : (ready []).ready = true ∧ (ready []).pvalid = true := by decide

/-- For the block and, with the staged dropout rates below, for its draws. -/
theorem witness_ProcessRunsEveryFrame :
    (ready [0x03000002#32, 3#32]).atBoundary = true ∧ (ready [0x03000002#32, 3#32]).ready = true ∧
      (ready [0x03000002#32, 3#32]).pvalid = true ∧
      decodeCommand (ready [0x03000002#32, 3#32]).port = .command (.process 2#8 3#32) [] := by decide

theorem witness_FiveDrawsPerFrameAtRateZero :
    (ready []).staged.dropRate.isZero = true ∧ (F32.mk 0x7FC00000#32).isNaN = true ∧
      (F32.mk 0xFF800000#32).sign = true := by decide

/-- The halves of a block of two frames, the second's input being the first's from frame 1 on. -/
theorem witness_SplittingABlockChangesNothing :
    (ready []).feeds = [] ∧ (ready []).outBuf.wf = true ∧ (1#32).toNat + (1#32).toNat < 2 ^ 32 ∧
      ∀ (c : Nat) (k : Word), c < 2 → k < 1#32 →
        memRead (memWrite [] 0 0 F32.one) c k = memRead (memWrite [] 0 1 F32.one) c (1#32 + k) := by
  refine ⟨by decide, by decide, by decide, fun c k hc hk => ?_⟩
  have h0 : k = 0 := by
    have : k.toNat < 1 := hk
    exact BitVec.eq_of_toNat_eq (by simp; omega)
  subst h0
  have : c = 0 ∨ c = 1 := by omega
  rcases this with rfl | rfl <;> decide

/-- The cutoff's range is not empty at 48000 Hz and is empty at 2000 Hz (V40.4). -/
theorem witness_LatchedParametersInRange :
    (rate48k.isFinite = true ∧ rate48k.gt F32.zero = true ∧
      (F32.literal 1000 1).le ((F32.literal 45 100).mul rate48k) = true) ∧
    (F32.literal 2000 1).isFinite = true ∧ (F32.literal 2000 1).gt F32.zero = true ∧
      ((F32.literal 45 100).mul (F32.literal 2000 1)).lt (F32.literal 1000 1) = true := by decide +kernel

theorem witness_OutwrStoresOneSample :
    (inFrame 0x1A).outBuf.wf = true ∧ Channel.right.index < (inFrame 0x1A).frame.channelCount.toNat ∧
      (0#8).toNat ≤ Channel.left.index := by decide

theorem witness_DlywrStoresAndAdvances :
    ((inFrame 0x0B).channel .left).dly.wf = true ∧
      (Mem.writeWord [] 4095 0xFFFFFFFF#32).wf = true := by decide

theorem witness_DropDisabledAtRateZero : (inFrame 0x0C).derived.lambda.gt F32.zero = false := by decide

/-- A positive rate, in each of the three modes. -/
theorem witness_DropAtPositiveRate :
    let s := fun m => { inFrame 0x0C with
      derived := { Derived.initial with lambda := ⟨0x00000001#32⟩ }, drop := ⟨m, -1, 0, F32.one⟩ }
    (s .waiting).derived.lambda.gt F32.zero = true ∧ (s .waiting).drop.mode = .waiting ∧
      (s .dippingDown).drop.mode = .dippingDown ∧ (s .dippingUp).drop.mode = .dippingUp := by decide

/-- A NaN target: a NaN modulation value gives one. -/
theorem witness_DelayTapsAreStoredHistory (scale fs : F32) :
    (targetDelay ⟨0x7FC00000#32⟩ scale fs).isNaN = true :=
  F32.div_isNaN _ _ (.inl (F32.mul_isNaN _ _ (.inl (F32.add_isNaN _ _ (.inr (F32.mul_isNaN _ _ (.inr
    (F32.mul_isNaN _ _ (.inl (by decide))))))))))

theorem witness_DelayLineHoldsTheDryHistory : ((ready []).channel .right).dly = [] ∧ 4097 ≤ 2 ^ 32 := by decide

theorem witness_BaseDelayIs240At48k :
    F32.zero.neg.isZero = true ∧ (F32.mk 0xFF7FFFFF#32).isFinite = true := by decide

/-- One second at 48 kHz, after a RESET, with OUT_GAIN and DRIVE at 1. -/
theorem witness_SilenceAfterReset :
    let s : State := { ready [] with derived := { Derived.initial with outGain := F32.one, drive := F32.one } }
    s.left = ChannelState.cleared ∧ s.right = ChannelState.cleared ∧ s.modu = Modulation.cleared ∧
      s.drop.env = F32.literal 1 1 ∧ s.outBuf.wf = true ∧ s.fs.isFinite = true ∧ (F32.literal 1 1).le s.fs = true ∧
      (∀ (c : Channel) (n : Word), (memRead s.inBuf c.index n).isZero = true) ∧
      s.derived.noiseAmp.isZero = true ∧ s.derived.humAmp.isZero = true ∧ s.derived.lambda.gt F32.zero = false ∧
      bankFinite s.derived.coef = true ∧ s.derived.drive.isFinite = true ∧ s.derived.outGain.isFinite = true ∧
      s.active.mix.isFinite = true ∧ s.active.dropDepth.isFinite = true ∧ 48000 ≤ 2 ^ 32 := by
  have h : ∀ (c : Channel) (n : Word), (memRead [] c.index n).isZero = true := fun c n => by
    rw [memRead, Mem.readWord_nil]; decide
  exact ⟨rfl, rfl, rfl, by decide +kernel, by decide, by decide, by decide +kernel, h, by decide +kernel⟩

theorem witness_EnvelopePinnedAtRateZero :
    (ready []).derived.lambda.gt F32.zero = false ∧ (ready []).drop.env = F32.literal 1 1 := by decide +kernel

theorem witness_DepthZeroGivesUnityGain :
    (ready []).active.dropDepth.isZero = true ∧ F32.zero.le (ready []).drop.env = true ∧
      (ready []).drop.env.le (F32.literal 1 1) = true := by decide +kernel

theorem witness_ZeroNoiseAmplitudeGivesZero : (ready []).derived.noiseAmp.isZero = true := by decide

theorem witness_TapeStopSpeedNeverRises :
    rate48k.isFinite = true ∧ rate48k.gt F32.zero = true ∧ F32.zero.le F32.zero = true ∧ F32.zero.le F32.inf = true := by
  decide

theorem witness_MixZeroIsTheDrySignal : (ready []).active.mix.eq F32.zero = true := by decide

/-- For every invariant at once: a frame in progress, and the step that runs its first stage. -/
theorem witness_StepKeeps :
    ((inFrame 0).memoryOk = true ∧ (inFrame 0).sequenceOk = true ∧ (inFrame 0).cursorsOk = true ∧
      (inFrame 0).randomOk = true ∧ (inFrame 0).sampleRateOk = true ∧ (inFrame 0).jitterOk = true ∧
      (inFrame 0).envelopeOk = true ∧ (inFrame 0).frame.stage ≠ none) ∧
    ∃ t, step (inFrame 0) = .next t := by
  refine ⟨by decide, afterStage ((inFrame 0).setWires { Wires.idle with dry0 := F32.zero, dry1 := F32.zero }), ?_⟩
  rfl

theorem witness_RegistersHaveTheirWriters (c : Channel) (s : State) :
    ∃ t, exec (.dlyrd c) s = .next t ∧ (Instr.dlyrd c) ≠ .mod ∧ (Instr.dlyrd c) ≠ .drop ∧
      ∀ d, (Instr.dlyrd c) ≠ .noise d ∧ (Instr.dlyrd c) ≠ .flt d ∧ (Instr.dlyrd c) ≠ .sat d ∧ (Instr.dlyrd c) ≠ .dlywr d :=
  ⟨_, rfl, by simp, by simp, by simp⟩

/-- Two states that differ in the right channel alone agree on what the left one depends on. -/
theorem witness_ChannelsAreIsolated :
    (ready []).outBuf.wf = true ∧
      agreeOn .left (ready []) { ready [] with right := { ChannelState.cleared with yp := F32.one } } ∧
      ready [] ≠ { ready [] with right := { ChannelState.cleared with yp := F32.one } } :=
  ⟨by decide, ⟨rfl, rfl, rfl, rfl, rfl, rfl, rfl, fun _ => rfl, fun _ => rfl⟩, by decide⟩

/-- Two contents of IN that differ in channel 2 and in no channel below it. -/
theorem witness_ExtraChannelsAreUntouched :
    (∀ (c : Nat) (j : Word), c < 2 → memRead (memWrite [] 2 0 F32.one) c j = memRead State.reset.inBuf c j) ∧
      memRead (memWrite [] 2 0 F32.one) 2 0 ≠ memRead State.reset.inBuf 2 0 ∧
      2 ≤ (255#8).toNat ∧ 2 ≤ (2#8).toNat :=
  ⟨fun c _ h => memRead_memWrite_other _ _ _ _ _ _ (.inl (by omega)), by decide, by decide, by decide⟩

/-- Two engines with different histories and the same stream. -/
theorem witness_RunsFromResetAreIdentical :
    let ws := portWords (.reset 0x473B8000#32 512#32) ++ portWords (.setparams (params 1 1)) ++
      portWords (.process 2#8 4#32) ++ []
    (ready ws).atBoundary = true ∧ { State.reset with port := ws }.atBoundary = true ∧ (ready ws).port = ws ∧
      (F32.mk 0x473B8000#32).isFinite = true ∧ (F32.mk 0x473B8000#32).gt F32.zero = true ∧
      (params 1 1).mainsOk = true ∧ (params 1 1).tstopOk = true ∧ (ready ws).rng ≠ State.reset.rng := by decide

theorem witness_OperationsAreCorrectlyRounded :
    F32.one.isFinite = true ∧ (F32.mk 0x80000001#32).isFinite = true ∧ (F32.mk 0x80000001#32).isZero = false ∧
      0 ≤ F32.zero.toInt ∧ (F32.mk 0x80000001#32).toInt < 0 ∧ integral F32.one ∧ integral F32.zero ∧
      F32.zero.toInt ≤ F32.half.toInt ∧ (-1 : Int) ≤ 2 ^ 47 - 1 ∧ F32.inf.isInf = true := by
  refine ⟨by decide, by decide, by decide, by decide, by decide, ⟨by decide, by decide⟩, ⟨by decide, by decide⟩, ?_⟩
  decide

/-- R10 by hand: floors of a negative half and of 2.5, roots of 4 and of the least subnormal, 2^24 + 1
converted to the even neighbour, and saturations. -/
theorem test_rounded_operations :
    F32.half.neg.floor = F32.one.neg ∧ (F32.literal 5 2).floor = F32.two ∧ (F32.literal 4 1).sqrt = F32.two ∧
      (F32.mk 1#32).sqrt = ⟨0x1A3504F3#32⟩ ∧ F32.ofInt 16777217 = F32.literal 16777216 1 ∧
      F32.f2i 0 4095 (F32.literal 5000 1) = 4095 ∧ F32.f2i (-1) 7 F32.inf.neg = -1 := by decide +kernel

/-- A value inside, below, not a number and above. -/
theorem witness_ClampForcesIntoRange :
    F32.zero.le F32.one = true ∧ F32.one.le F32.one = true ∧ F32.one.neg.lt F32.zero = true ∧
      (F32.mk 0x7FC00000#32).isNaN = true ∧ F32.one.lt F32.inf = true := by decide

theorem witness_BufferReadAfterWrite :
    (memWrite [] 1 0xFFFFFFFF#32 F32.one).wf = true ∧ ((1 : Nat) ≠ 0 ∨ (0#32) ≠ 0#32) := by decide

end Sys2Proof.Tests
end

/-! PROOFS. The number system of 00_scope.md R9, R10 and R13: correct rounding (O58), `clamp` (O59). The distance of a
rounded value to the exact one is measured in the reals, in units of 2^-149, for the five operations alike. -/

namespace Sys2Proof.Rounding

open Sys2Proof.Machine
open Sys2Proof.F32 (unitsOf unitsOf_le_iff unitsOf_strictMono unitsOf_small unitsOf_sig unitsOf_zero exists_sig infMag
  roundMag roundMag_bracket roundMag_le roundMag_exact roundMag_le_inf nearer signed mag_pack sign_pack)

/-! ### Nearest magnitudes -/

/-- No magnitude is nearer to `x` units than `R`, and `R` is even where another is as near. -/
def NearestMag (R : Nat) (x : ℝ) : Prop :=
  ∀ k : Nat, |(unitsOf R : ℝ) - x| ≤ |(unitsOf k : ℝ) - x| ∧
    (|(unitsOf R : ℝ) - x| = |(unitsOf k : ℝ) - x| → k ≠ R → R % 2 = 0)

/-- `R` is the choice `nearer` makes between the neighbours `lo` and `hi` of `x`, said of a real `x`. -/
structure Chosen (m R : Nat) (x lo hi : ℝ) : Prop where
  below : 2 * x < lo + hi → R = m
  above : lo + hi < 2 * x → R = m + 1
  tie : 2 * x = lo + hi → R = m + m % 2

theorem chosen_nearer (m n d : Nat) (hd : 0 < d) :
    Chosen m (nearer m n (unitsOf m * d) (unitsOf (m + 1) * d)) (n / d : ℝ) (unitsOf m) (unitsOf (m + 1)) := by
  have hd' : (0 : ℝ) < d := by exact_mod_cast hd
  have hx : 2 * (n / d : ℝ) * d = ((2 * n : Nat) : ℝ) := by field_simp; push_cast; ring
  have hs : ((unitsOf m : ℝ) + unitsOf (m + 1)) * d = ((unitsOf m * d + unitsOf (m + 1) * d : Nat) : ℝ) := by
    push_cast; ring
  unfold nearer
  constructor <;> intro h
  · rw [← mul_lt_mul_iff_left₀ hd', hx, hs, Nat.cast_lt] at h
    exact if_pos h
  · rw [← mul_lt_mul_iff_left₀ hd', hx, hs, Nat.cast_lt] at h
    rw [if_neg (by omega), if_pos h]
  · have h' := congrArg (· * (d : ℝ)) h
    simp only [hx, hs, Nat.cast_inj] at h'
    rw [if_neg (by omega), if_neg (by omega)]

/-- The chosen neighbour is nearest: every other magnitude lies at or beyond one of the two neighbours. -/
theorem Chosen.nearestMag {m R : Nat} {x : ℝ} (h : Chosen m R x (unitsOf m) (unitsOf (m + 1)))
    (hlo : (unitsOf m : ℝ) ≤ x) (hhi : x ≤ unitsOf (m + 1)) : NearestMag R x := by
  intro k
  have dlo : |(unitsOf m : ℝ) - x| = x - unitsOf m := by rw [abs_sub_comm]; exact abs_of_nonneg (by linarith)
  have dhi : |(unitsOf (m + 1) : ℝ) - x| = unitsOf (m + 1) - x := abs_of_nonneg (by linarith)
  have side : (k ≤ m ∧ |(unitsOf k : ℝ) - x| = x - unitsOf k ∧ (unitsOf k : ℝ) ≤ unitsOf m) ∨
      (m + 1 ≤ k ∧ |(unitsOf k : ℝ) - x| = unitsOf k - x ∧ (unitsOf (m + 1) : ℝ) ≤ unitsOf k) := by
    rcases Nat.lt_or_ge m k with hk | hk
    · have hu : (unitsOf (m + 1) : ℝ) ≤ unitsOf k := by exact_mod_cast (unitsOf_le_iff _ _).2 hk
      exact .inr ⟨hk, abs_of_nonneg (by linarith), hu⟩
    · have hu : (unitsOf k : ℝ) ≤ unitsOf m := by exact_mod_cast (unitsOf_le_iff _ _).2 hk
      exact .inl ⟨hk, by rw [abs_sub_comm]; exact abs_of_nonneg (by linarith), hu⟩
  have strict : ∀ j, k ≠ j → (unitsOf k : ℝ) ≠ unitsOf j := fun j hj e =>
    hj (unitsOf_strictMono.injective (by exact_mod_cast e))
  rcases lt_trichotomy (2 * x) (unitsOf m + unitsOf (m + 1)) with hx | hx | hx
  · obtain rfl := h.below hx
    rw [dlo]
    rcases side with ⟨-, hk, hu⟩ | ⟨-, hk, hu⟩ <;> rw [hk]
    · exact ⟨by linarith, fun e hne => absurd (by linarith) (strict _ hne)⟩
    · exact ⟨by linarith, fun e _ => by linarith⟩
  · have hR := h.tie hx
    have dR : |(unitsOf R : ℝ) - x| = x - unitsOf m := by
      rcases Nat.mod_two_eq_zero_or_one m with hm | hm <;> rw [hR, hm]
      · exact dlo
      · rw [dhi]; linarith
    rw [dR]
    rcases side with ⟨-, hk, hu⟩ | ⟨-, hk, hu⟩ <;> rw [hk] <;> exact ⟨by linarith, fun _ _ => by omega⟩
  · obtain rfl := h.above hx
    rw [dhi]
    rcases side with ⟨-, hk, hu⟩ | ⟨-, hk, hu⟩ <;> rw [hk]
    · exact ⟨by linarith, fun e _ => by linarith⟩
    · exact ⟨by linarith, fun e hne => absurd (by linarith) (strict _ hne)⟩

/-- Rounding that does not overflow takes a nearest magnitude. -/
theorem nearestMag_roundMag (n d : Nat) (hd : 0 < d) (hfin : roundMag n d < infMag) :
    NearestMag (roundMag n d) (n / d : ℝ) := by
  obtain ⟨m, hlo, hhi, hR⟩ := roundMag_bracket n d hd
  have hd' : (0 : ℝ) < d := by exact_mod_cast hd
  have hnear : roundMag n d = nearer m n (unitsOf m * d) (unitsOf (m + 1) * d) := by omega
  rw [hnear]
  refine (chosen_nearer m n d hd).nearestMag ?_ ?_
  · rw [le_div_iff₀ hd']; exact_mod_cast hlo
  · rw [div_le_iff₀ hd']; exact_mod_cast hhi.le

/-! ### Overflow -/

theorem unitsOf_infMag : unitsOf infMag = 2 ^ 277 := by decide +kernel

/-- The greatest finite magnitude. -/
theorem unitsOf_maxFinite : unitsOf (infMag - 1) = (2 ^ 24 - 1) * 2 ^ 253 := by decide +kernel

/-- A rounding overflows from the midpoint between the greatest finite value and 2^128 on: there the tie goes to the
infinity, as the greatest finite magnitude is odd. -/
theorem roundMag_lt_infMag_iff (n d : Nat) (hd : 0 < d) :
    roundMag n d < infMag ↔ n < (2 ^ 25 - 1) * 2 ^ 252 * d := by
  obtain ⟨m, hlo, hhi, hR⟩ := roundMag_bracket n d hd
  rw [hR]
  have hm : infMag - 1 + 1 = infMag := by decide
  have hodd : (infMag - 1) % 2 = 1 := by decide
  rcases lt_trichotomy m (infMag - 1) with hlt | rfl | hgt
  · have hu : unitsOf (m + 1) * d ≤ (2 ^ 24 - 1) * 2 ^ 253 * d := by
      rw [← unitsOf_maxFinite]
      exact Nat.mul_le_mul_right d ((unitsOf_le_iff _ _).2 (by omega))
    have hn : nearer m n (unitsOf m * d) (unitsOf (m + 1) * d) ≤ m + 1 := by unfold nearer; split_ifs <;> omega
    constructor <;> intro <;> omega
  · rw [hm, unitsOf_infMag, unitsOf_maxFinite]
    unfold nearer
    split_ifs <;> omega
  · have hu : 2 ^ 277 * d ≤ unitsOf m * d := by
      rw [← unitsOf_infMag]
      exact Nat.mul_le_mul_right d ((unitsOf_le_iff _ _).2 (by omega))
    have hn : m ≤ nearer m n (unitsOf m * d) (unitsOf (m + 1) * d) := by unfold nearer; split_ifs <;> omega
    constructor <;> intro <;> omega

/-! ### Nearest values -/

/-- No finite value is nearer to `x` units than `r`, and `r` is even where another is as near. -/
def NearestTo (r : F32) (x : ℝ) : Prop :=
  ∀ z : F32, z.isFinite = true →
    |(r.toInt : ℝ) - x| ≤ |(z.toInt : ℝ) - x| ∧
      (|(r.toInt : ℝ) - x| = |(z.toInt : ℝ) - x| → z.toInt ≠ r.toInt → r.mag % 2 = 0)

/-- `-1` or `1`. -/
def unitSign (s : Bool) : ℝ := if s then -1 else 1

theorem toInt_eq_unitSign_mul (z : F32) : (z.toInt : ℝ) = unitSign z.sign * unitsOf z.mag := by
  unfold F32.toInt F32.units unitSign
  cases z.sign <;> simp

theorem signed_eq_unitSign_mul (s : Bool) (n : Nat) : (signed s n : ℝ) = unitSign s * n := by
  unfold signed unitSign
  cases s <;> simp

/-- A common sign does not change a distance; an opposite sign adds the magnitudes. -/
theorem abs_unitSign_mul_sub (s t : Bool) {u x : ℝ} (hu : 0 ≤ u) (hx : 0 ≤ x) :
    |unitSign t * u - unitSign s * x| = if t = s then |u - x| else u + x := by
  unfold unitSign
  cases s <;> cases t <;> simp only [reduceCtorEq, if_true, if_false, one_mul, neg_mul, Bool.false_eq_true]
  · rw [← neg_add', abs_neg, abs_of_nonneg (by linarith)]
  · rw [sub_neg_eq_add, abs_of_nonneg (by linarith)]
  · rw [neg_sub_neg, abs_sub_comm]

/-- A nearest magnitude with the sign of the exact value is a nearest value: a value of the other sign is no nearer
than zero. -/
theorem NearestMag.nearestTo {r : F32} {x : ℝ} (h : NearestMag r.mag x) (hx : 0 ≤ x) :
    NearestTo r (unitSign r.sign * x) := by
  intro z _
  rw [toInt_eq_unitSign_mul, toInt_eq_unitSign_mul z, abs_unitSign_mul_sub _ _ (Nat.cast_nonneg _) hx,
    abs_unitSign_mul_sub _ _ (Nat.cast_nonneg _) hx, if_pos rfl]
  split
  · next hs =>
    refine ⟨(h z.mag).1, fun e hne => (h z.mag).2 e fun hm => hne ?_⟩
    rw [F32.ext_sign_mag z r hs hm]
  · obtain ⟨hle, htie⟩ := h 0
    have hu : (0 : ℝ) ≤ unitsOf z.mag := Nat.cast_nonneg _
    rw [unitsOf_zero, Nat.cast_zero, zero_sub, abs_neg, abs_of_nonneg hx] at hle htie
    refine ⟨by linarith, fun e _ => ?_⟩
    by_cases hr : r.mag = 0
    · rw [hr]
    · exact htie (by linarith) (Ne.symm hr)

theorem mag_round (s : Bool) (n d : Nat) : (F32.round s n d).mag = roundMag n d := by
  rw [F32.round, mag_pack _ _ (roundMag_le_inf n d)]

theorem sign_round (s : Bool) (n d : Nat) : (F32.round s n d).sign = s := by
  rw [F32.round, sign_pack _ _ (roundMag_le_inf n d)]

theorem NearestMag.nearestTo_round {n d : Nat} {x : ℝ} (h : NearestMag (roundMag n d) x) (s : Bool) (hx : 0 ≤ x) :
    NearestTo (F32.round s n d) (unitSign s * x) := by
  have := NearestMag.nearestTo (r := F32.round s n d) (by rwa [mag_round]) hx
  rwa [sign_round] at this

theorem correctlyRoundedRoot_iff (r : F32) (k : ℤ) :
    correctlyRoundedRoot r k ↔ r.isFinite = true ∧ NearestTo r √(k : ℝ) := Iff.rfl

/-- A distance to a quotient, multiplied out. -/
theorem abs_mul_sub_eq (z p q : ℤ) (hq : q ≠ 0) : ((|z * q - p| : ℤ) : ℝ) = |(z : ℝ) - p / q| * |(q : ℝ)| := by
  have hq' : (q : ℝ) ≠ 0 := by exact_mod_cast hq
  rw [← abs_mul, sub_mul, div_mul_cancel₀ _ hq']
  push_cast; rfl

/-- The model's integer form of nearness to `p / q` is nearness to the real quotient, scaled by `q`. -/
theorem NearestTo.scaled {r : F32} {p q : ℤ} (hq : q ≠ 0) (h : NearestTo r (p / q)) (z : F32)
    (hz : z.isFinite = true) :
    |r.toInt * q - p| ≤ |z.toInt * q - p| ∧
      (|r.toInt * q - p| = |z.toInt * q - p| → z.toInt ≠ r.toInt → r.mag % 2 = 0) := by
  have hq0 : 0 < |(q : ℝ)| := abs_pos.2 (by exact_mod_cast hq)
  obtain ⟨hle, htie⟩ := h z hz
  refine ⟨?_, fun e => htie ?_⟩
  · rw [← @Int.cast_le ℝ, abs_mul_sub_eq _ _ _ hq, abs_mul_sub_eq _ _ _ hq]
    exact mul_le_mul_of_nonneg_right hle hq0.le
  · rw [← @Int.cast_inj ℝ, abs_mul_sub_eq _ _ _ hq, abs_mul_sub_eq _ _ _ hq] at e
    exact mul_right_cancel₀ hq0.ne' e

/-- Where `± n / d = p / q`, the bound below which a rounding is finite, said of `n / d` and of `p / q`. -/
theorem lt_mul_iff_of_ratio (s : Bool) (n d K : Nat) (p q : ℤ) (hd : 0 < d) (hq : q ≠ 0)
    (h : p * d = signed s n * q) : n < K * d ↔ |p| < K * |q| := by
  have habs : |p| * d = n * |q| := by
    have := congrArg abs h
    rw [abs_mul, abs_mul, Nat.abs_cast] at this
    rw [this]
    unfold signed
    cases s <;> simp
  have hd0 : (0 : ℤ) < d := by exact_mod_cast hd
  calc n < K * d
      ↔ (n : ℤ) < K * d := by exact_mod_cast Iff.rfl
    _ ↔ (n : ℤ) * |q| < K * d * |q| := (mul_lt_mul_iff_left₀ (abs_pos.2 hq)).symm
    _ ↔ |p| * d < K * |q| * d := by rw [habs, mul_right_comm _ (d : ℤ)]
    _ ↔ |p| < K * |q| := mul_lt_mul_iff_left₀ hd0

/-- What a rounding of `± n / d` is, said of the exact value `p / q`. -/
theorem correctlyRounded_round (s : Bool) (n d : Nat) (p q : ℤ) (hd : 0 < d) (hq : q ≠ 0)
    (h : p * d = signed s n * q) : correctlyRounded (F32.round s n d) p q := by
  have hd' : (d : ℝ) ≠ 0 := by exact_mod_cast hd.ne'
  have hq' : (q : ℝ) ≠ 0 := by exact_mod_cast hq
  have hpq : (p : ℝ) / q = unitSign s * (n / d : ℝ) := by
    rw [← mul_div_assoc, ← signed_eq_unitSign_mul, div_eq_div_iff hq' hd']
    exact_mod_cast h
  have hfinite : (F32.round s n d).isFinite = true ↔ roundMag n d < infMag := by rw [F32.isFinite_iff, mag_round]
  refine ⟨F32.round_notNaN s n d, ?_, fun hfin => NearestTo.scaled hq ?_⟩
  · rw [hfinite, roundMag_lt_infMag_iff n d hd, lt_mul_iff_of_ratio s n d _ p q hd hq h]
    norm_num
  · rw [hpq]
    exact (nearestMag_roundMag n d hd (hfinite.1 hfin)).nearestTo_round s (by positivity)

/-! ### The rational operations -/

theorem add_correctlyRounded (a b : F32) (ha : a.isFinite = true) (hb : b.isFinite = true) :
    correctlyRounded (a.add b) (a.toInt + b.toInt) 1 := by
  obtain ⟨s, he, hs⟩ := F32.add_finite_eq a b ha hb
  rw [he]
  exact correctlyRounded_round _ _ _ _ _ one_pos one_ne_zero (by rw [hs, Nat.cast_one])

theorem sub_correctlyRounded (a b : F32) (ha : a.isFinite = true) (hb : b.isFinite = true) :
    correctlyRounded (a.sub b) (a.toInt - b.toInt) 1 := by
  obtain ⟨s, he, hs⟩ := F32.sub_finite_eq a b ha hb
  rw [he]
  exact correctlyRounded_round _ _ _ _ _ one_pos one_ne_zero (by rw [hs, Nat.cast_one])

theorem mul_correctlyRounded (a b : F32) (ha : a.isFinite = true) (hb : b.isFinite = true) :
    correctlyRounded (a.mul b) (a.toInt * b.toInt) (2 ^ 149) := by
  rw [F32.mul_finite_eq a b ha hb]
  exact correctlyRounded_round _ _ _ _ _ (by positivity) (by positivity)
    (by rw [F32.signed_mul, Nat.cast_pow, Nat.cast_ofNat])

theorem toInt_ne_zero (b : F32) (h : b.isZero = false) : b.toInt ≠ 0 := by
  have := F32.units_pos b h
  have := F32.natAbs_toInt b
  omega

theorem div_correctlyRounded (a b : F32) (ha : a.isFinite = true) (hb : b.isFinite = true) (h0 : b.isZero = false) :
    correctlyRounded (a.div b) (a.toInt * 2 ^ 149) b.toInt := by
  rw [F32.div_finite_eq a b ha hb h0]
  refine correctlyRounded_round _ _ _ _ _ (F32.units_pos b h0) (toInt_ne_zero b h0) ?_
  have hsb : b.toInt = signed b.sign 1 * b.units := by
    unfold F32.toInt signed; cases b.sign <;> simp
  rw [hsb, ← mul_assoc, F32.signed_div, Nat.cast_pow, Nat.cast_ofNat]

theorem ofInt_correctlyRounded (k : ℤ) : correctlyRounded (F32.ofInt k) (k * 2 ^ 149) 1 := by
  refine correctlyRounded_round _ _ _ _ _ one_pos one_ne_zero ?_
  unfold signed
  by_cases hk : k < 0
  · rw [decide_eq_true hk, if_pos rfl]; push_cast; rw [abs_of_neg hk]; ring
  · rw [decide_eq_false hk, if_neg (by decide)]; push_cast; rw [abs_of_nonneg (by omega)]

/-! ### The square root -/

theorem isqrtFrom_spec (k n r : Nat) (hlo : r * r ≤ n) (hhi : n < (r + 2 ^ k) * (r + 2 ^ k)) :
    F32.isqrtFrom k n r = Nat.sqrt n := by
  induction k generalizing r with
  | zero => exact Nat.eq_sqrt.2 ⟨hlo, hhi⟩
  | succ k ih =>
    rw [F32.isqrtFrom]
    split
    · next h => exact ih _ h (by rwa [add_assoc, ← two_mul, ← pow_succ'])
    · next h => exact ih _ hlo (by omega)

theorem isqrt_eq_sqrt (n : Nat) (h : n < 2 ^ 214 * 2 ^ 214) : F32.isqrt n = Nat.sqrt n :=
  isqrtFrom_spec 214 n 0 (by omega) (by rwa [zero_add])

/-- Above 2^24 units the magnitudes are even numbers of units. -/
theorem two_dvd_unitsOf (m : Nat) (h : 2 ^ 24 ≤ m) : 2 ∣ unitsOf m := by
  obtain ⟨e, s, rfl, hlo, hhi⟩ := exists_sig m (by omega)
  rw [unitsOf_sig e s hlo (by omega)]
  exact Dvd.dvd.mul_left (dvd_pow_self 2 (by omega)) s

/-- The integer that `sqrt` rounds, in halves of a unit: twice the integer root, and one more for a remainder. -/
def rootHalves (n : Nat) : Nat := 2 * Nat.sqrt n + if Nat.sqrt n * Nat.sqrt n < n then 1 else 0

theorem rootHalves_bounds (n : Nat) : 2 * Nat.sqrt n ≤ rootHalves n ∧ rootHalves n ≤ 2 * Nat.sqrt n + 1 := by
  unfold rootHalves; split <;> omega

/-- Against a whole number the halves compare as the root itself does. -/
theorem rootHalves_lt (n c : Nat) (h : √(n : ℝ) < c) : rootHalves n < 2 * c := by
  have hn : n < c * c := by
    rw [Real.sqrt_lt' (lt_of_le_of_lt (Real.sqrt_nonneg _) h), pow_two] at h; exact_mod_cast h
  have := Nat.sqrt_lt.2 hn
  have := (rootHalves_bounds n).2
  omega

theorem lt_rootHalves (n c : Nat) (h : (c : ℝ) < √(n : ℝ)) : 2 * c < rootHalves n := by
  have hn : c * c < n := by rw [Real.lt_sqrt (Nat.cast_nonneg c), pow_two] at h; exact_mod_cast h
  have hc := Nat.le_sqrt.2 hn.le
  unfold rootHalves
  rcases hc.eq_or_lt with rfl | hlt
  · rw [if_pos hn]; omega
  · omega

theorem rootHalves_eq (n c : Nat) (h : √(n : ℝ) = c) : rootHalves n = 2 * c := by
  have hn : n = c * c := by
    rw [Real.sqrt_eq_iff_mul_self_eq (Nat.cast_nonneg n) (Nat.cast_nonneg c)] at h; exact_mod_cast h
  rw [rootHalves, hn, Nat.sqrt_eq, if_neg (lt_irrefl _), add_zero]

/-- Where the midpoint of two neighbours is a whole number of units, rounding the halves chooses between them as the
root itself does. -/
theorem chosen_rootHalves (m n : Nat) (heven : 2 ∣ unitsOf m + unitsOf (m + 1)) :
    Chosen m (nearer m (rootHalves n) (unitsOf m * 2) (unitsOf (m + 1) * 2)) (√(n : ℝ)) (unitsOf m)
      (unitsOf (m + 1)) := by
  obtain ⟨c, hc⟩ := heven
  have hc' : (unitsOf m : ℝ) + unitsOf (m + 1) = 2 * c := by exact_mod_cast hc
  unfold nearer
  constructor <;> intro h <;> rw [hc'] at h
  · have := rootHalves_lt n c (by linarith)
    exact if_pos (by omega)
  · have := lt_rootHalves n c (by linarith)
    rw [if_neg (by omega), if_pos (by omega)]
  · have := rootHalves_eq n c (by linarith)
    rw [if_neg (by omega), if_neg (by omega)]

/-- The rounded halves are nearest to the root of a number so large that its neighbours are even. -/
theorem nearestMag_root (n : Nat) (hn : 2 ^ 149 ≤ n) (hfin : roundMag (rootHalves n) 2 < infMag) :
    NearestMag (roundMag (rootHalves n) 2) √(n : ℝ) := by
  obtain ⟨m, hlo, hhi, hR⟩ := roundMag_bracket (rootHalves n) 2 two_pos
  obtain ⟨hb, hb'⟩ := rootHalves_bounds n
  have hlo' : unitsOf m ≤ Nat.sqrt n := by omega
  have hhi' : Nat.sqrt n < unitsOf (m + 1) := by omega
  have hbig : 2 ^ 24 ≤ Nat.sqrt n := Nat.le_sqrt.2 (by omega)
  have hm : 2 ^ 24 ≤ m := by
    have : unitsOf (2 ^ 24) < unitsOf (m + 1) := by rw [unitsOf_small _ le_rfl]; omega
    exact Nat.lt_succ_iff.1 (unitsOf_strictMono.lt_iff_lt.1 this)
  have heven := Nat.dvd_add (two_dvd_unitsOf m hm) (two_dvd_unitsOf (m + 1) (by omega))
  have hnear : roundMag (rootHalves n) 2 = nearer m (rootHalves n) (unitsOf m * 2) (unitsOf (m + 1) * 2) := by omega
  rw [hnear]
  refine (chosen_rootHalves m n heven).nearestMag ?_ ?_
  · exact le_trans (by exact_mod_cast hlo') Real.nat_sqrt_le_real_sqrt
  · exact Real.real_sqrt_le_nat_sqrt_succ.trans (by exact_mod_cast hhi')

theorem units_lt (a : F32) (h : a.isFinite = true) : a.units < 2 ^ 277 := by
  rw [← unitsOf_infMag]; exact unitsOf_strictMono ((F32.isFinite_iff a).1 h)

/-- The root of a positive finite value: its integer root with a remainder carried, rounded. -/
theorem sqrt_pos_eq (a : F32) (ha : a.isFinite = true) (h0 : a.isZero = false) (hs : a.sign = false) :
    a.sqrt = F32.round false (rootHalves (a.units * 2 ^ 149)) 2 := by
  have hu := units_lt a ha
  have hr := isqrt_eq_sqrt (a.units * 2 ^ 149) (by omega)
  simp only [F32.sqrt, F32.isNaN_of_isFinite a ha, F32.isInf_eq_false_of_isFinite a ha, h0, hs, hr, Bool.false_eq_true,
    if_false, rootHalves]

/-- No root of a finite value overflows: it is below 2^213 units, 2^64. -/
theorem roundMag_rootHalves_lt (n : Nat) (hn : n < 2 ^ 213 * 2 ^ 213) : roundMag (rootHalves n) 2 < infMag := by
  have hr : Nat.sqrt n < 2 ^ 213 := Nat.sqrt_lt.2 hn
  have := (rootHalves_bounds n).2
  rw [roundMag_lt_infMag_iff _ _ two_pos]
  omega

theorem sqrt_correctlyRounded (a : F32) (ha : a.isFinite = true) (h : 0 ≤ a.toInt) :
    correctlyRoundedRoot a.sqrt (a.toInt * 2 ^ 149) := by
  rcases hz : a.isZero with _ | _
  · have hpos := F32.units_pos a hz
    have hs : a.sign = false := by
      by_contra hs
      rw [F32.toInt, if_pos (by simpa using hs)] at h
      omega
    have hn : ((a.toInt * 2 ^ 149 : ℤ) : ℝ) = (a.units * 2 ^ 149 : ℕ) := by simp [F32.toInt, hs]
    have hu := units_lt a ha
    have hfin := roundMag_rootHalves_lt (a.units * 2 ^ 149) (by omega)
    rw [sqrt_pos_eq a ha hz hs, correctlyRoundedRoot_iff]
    refine ⟨by rwa [F32.isFinite_iff, mag_round], ?_⟩
    have := (nearestMag_root (a.units * 2 ^ 149) (by omega) hfin).nearestTo_round false (Real.sqrt_nonneg _)
    rwa [← hn, unitSign, if_neg (by decide), one_mul] at this
  · have ha0 : a.toInt = 0 := by
      rw [← Int.natAbs_eq_zero, F32.natAbs_toInt, F32.units, (F32.isZero_iff a).1 hz, unitsOf_zero]
    have hsq : a.sqrt = a := by simp [F32.sqrt, F32.isNaN_of_isFinite a ha, hz]
    rw [hsq]
    refine ⟨ha, fun z _ => ?_⟩
    simp [ha0, (F32.isZero_iff a).1 hz]

/-- The root of a negative value is a NaN. -/
theorem sqrt_neg_isNaN (a : F32) (ha : a.isFinite = true) (h : a.toInt < 0) : a.sqrt.isNaN = true := by
  have hs : a.sign = true := by
    by_contra hs
    rw [F32.toInt, if_neg hs] at h
    omega
  have hz : a.isZero = false := by
    by_contra hz
    have := F32.natAbs_toInt a
    rw [F32.units, (F32.isZero_iff a).1 (by simpa using hz), unitsOf_zero] at this
    omega
  simp [F32.sqrt, F32.isNaN_of_isFinite a ha, hz, hs, F32.nan_isNaN]

/-! ### `floor` and `f2i` -/

/-- A whole number below 2^24 has a magnitude: twenty-four significant bits hold it. -/
theorem exists_mag_of_lt (k : Nat) (hk : k < 2 ^ 24) : ∃ m, m < infMag ∧ unitsOf m = k * 2 ^ 149 := by
  rcases Nat.eq_zero_or_pos k with rfl | hpos
  · exact ⟨0, by decide, by rw [unitsOf_zero, zero_mul]⟩
  · have hl : Nat.log2 k ≤ 23 := Nat.lt_succ_iff.1 ((Nat.log2_lt hpos.ne').2 hk)
    have hlo := Nat.log2_self_le hpos.ne'
    have hhi : k < 2 ^ (Nat.log2 k + 1) := Nat.lt_log2_self
    obtain ⟨j, hj⟩ : ∃ j, Nat.log2 k + j = 23 := ⟨_, Nat.add_sub_cancel' hl⟩
    have h23 : 2 ^ Nat.log2 k * 2 ^ j = 2 ^ 23 := by rw [← pow_add, hj]
    have hs1 : 2 ^ 23 ≤ k * 2 ^ j := h23 ▸ Nat.mul_le_mul_right _ hlo
    have hs2 : k * 2 ^ j ≤ 2 ^ 24 := by
      calc k * 2 ^ j ≤ 2 ^ (Nat.log2 k + 1) * 2 ^ j := Nat.mul_le_mul_right _ hhi.le
        _ = 2 ^ 24 := by rw [pow_succ, mul_right_comm, h23, ← pow_succ]
    refine ⟨(149 - j) * 2 ^ 23 + k * 2 ^ j, by unfold infMag; omega, ?_⟩
    rw [unitsOf_sig _ _ hs1 hs2, mul_assoc, ← pow_add]
    congr 2
    omega

/-- The floor of a finite value is representable: a value with bits below the point is under 2^23, any other is its own
floor. -/
theorem exists_mag_floorInt (a : F32) (ha : a.isFinite = true) :
    ∃ m, m < infMag ∧ unitsOf m = a.floorInt.natAbs * 2 ^ 149 := by
  have hmag := (F32.isFinite_iff a).1 ha
  have habs := F32.natAbs_toInt a
  by_cases hsmall : a.units < 2 ^ 24 * 2 ^ 148
  · refine exists_mag_of_lt _ ?_
    unfold F32.floorInt
    omega
  · have hdvd : 2 ^ 149 ∣ a.units := by
      have h24 : ¬ a.mag < 2 ^ 23 := fun h => hsmall (by rw [F32.units, unitsOf_small _ (by omega)]; omega)
      obtain ⟨e, s, hm, hlo, hhi⟩ := exists_sig a.mag (by omega)
      rw [F32.units, hm, unitsOf_sig e s hlo hhi.le] at hsmall ⊢
      have he : 149 ≤ e := by
        by_contra he
        exact hsmall (Nat.mul_lt_mul_of_lt_of_le hhi (Nat.pow_le_pow_right two_pos (by omega)) (by positivity))
      exact (pow_dvd_pow 2 he).mul_left s
    refine ⟨a.mag, hmag, ?_⟩
    change a.units = _
    unfold F32.floorInt
    omega

/-- The sign of a finite value is a sign of its floor. -/
theorem signed_floorInt (a : F32) : signed a.sign a.floorInt.natAbs = a.floorInt := by
  unfold signed F32.floorInt F32.toInt
  cases a.sign
  · rw [if_neg (by decide), if_neg (by decide)]; omega
  · rw [if_pos rfl, if_pos rfl]; omega

/-- `floor` of a finite value is finite and stands for `floorInt`, with no rounding. -/
theorem floor_spec (a : F32) (ha : a.isFinite = true) :
    a.floor.isFinite = true ∧ a.floor.toInt = a.floorInt * 2 ^ 149 := by
  obtain ⟨m, hm, hu⟩ := exists_mag_floorInt a ha
  have he : a.floor = F32.round a.sign (unitsOf m * 1) 1 := by
    simp [F32.floor, F32.isNaN_of_isFinite a ha, F32.isInf_eq_false_of_isFinite a ha, hu]
  have hmag : a.floor.mag = m := by rw [he, mag_round, roundMag_exact m 1 hm.le one_pos]
  have hsign : a.floor.sign = a.sign := by rw [he, sign_round]
  refine ⟨by rwa [F32.isFinite_iff, hmag], ?_⟩
  rw [F32.toInt, F32.units, hsign, hmag, hu]
  conv_rhs => rw [← signed_floorInt a]
  unfold signed
  cases a.sign <;> simp

theorem floor_integral (a : F32) (ha : a.isFinite = true) : integral a.floor := by
  obtain ⟨hfin, hval⟩ := floor_spec a ha
  exact ⟨hfin, by rw [hval]; exact dvd_mul_left _ _⟩

theorem floor_le (a : F32) (ha : a.isFinite = true) : a.floor.toInt ≤ a.toInt := by
  rw [(floor_spec a ha).2]
  exact Int.ediv_mul_le _ (by positivity)

theorem le_floor (a z : F32) (ha : a.isFinite = true) (hz : integral z) (h : z.toInt ≤ a.toInt) :
    z.toInt ≤ a.floor.toInt := by
  obtain ⟨-, c, hc⟩ := hz
  rw [(floor_spec a ha).2, hc, mul_comm]
  rw [hc, mul_comm] at h
  exact mul_le_mul_of_nonneg_right ((Int.le_ediv_iff_mul_le (by positivity)).2 h) (by positivity)

theorem f2i_finite (lo hi : ℤ) (a : F32) (ha : a.isFinite = true) :
    F32.f2i lo hi a = Max.max lo (Min.min hi (a.toInt / 2 ^ 149)) := by
  simp [F32.f2i, F32.isNaN_of_isFinite a ha, F32.isInf_eq_false_of_isFinite a ha, F32.saturate, F32.floorInt]

theorem f2i_inf (lo hi : ℤ) (a : F32) (ha : a.isInf = true) : F32.f2i lo hi a = if a.sign then lo else hi := by
  have hn : a.isNaN = false := (F32.isNaN_eq_false_iff a).2 ((F32.isInf_iff a).1 ha).le
  simp [F32.f2i, hn, ha]

/-! ### `clamp` -/

theorem clamp_of_not_ge {x lo hi : F32} (hb : lo.le hi = true) (hx : x.ge lo = false) : F32.clamp x lo hi = lo := by
  have hg : lo.gt hi = false := by
    obtain ⟨-, -, hk⟩ := (F32.le_iff _ _).1 hb
    rw [← Bool.not_eq_true, F32.gt_iff]
    rintro ⟨-, -, hk'⟩
    omega
  simp [F32.clamp, hx, hg]

theorem clamp_of_lt {x lo hi : F32} (hb : lo.le hi = true) (hx : hi.lt x = true) : F32.clamp x lo hi = hi := by
  have hge : x.ge lo = true := by
    obtain ⟨hlo, -, hk⟩ := (F32.le_iff _ _).1 hb
    obtain ⟨-, hxn, hk'⟩ := (F32.lt_iff _ _).1 hx
    exact (F32.ge_iff _ _).2 ⟨hxn, hlo, by omega⟩
  have hg : x.gt hi = true := hx
  simp [F32.clamp, hge, hg]

theorem not_ge_of_lt {x lo : F32} (h : x.lt lo = true) : x.ge lo = false := by
  obtain ⟨-, -, hk⟩ := (F32.lt_iff _ _).1 h
  rw [← Bool.not_eq_true, F32.ge_iff]
  rintro ⟨-, -, hk'⟩
  omega

theorem not_ge_of_isNaN {x lo : F32} (h : x.isNaN = true) : x.ge lo = false := by
  rw [← Bool.not_eq_true, F32.ge_iff]
  rintro ⟨hx, -, -⟩
  rw [h] at hx
  cases hx

/-! ### The obligations -/

/-- Settles O58: each operation is one rounding of its exact value, and `floor` is representable, so its rounding does
nothing. -/
theorem operationsAreCorrectlyRounded : Obligations.OperationsAreCorrectlyRounded :=
  ⟨fun a b ha hb => ⟨add_correctlyRounded a b ha hb, sub_correctlyRounded a b ha hb, mul_correctlyRounded a b ha hb,
      div_correctlyRounded a b ha hb⟩,
    fun a ha => ⟨sqrt_correctlyRounded a ha, sqrt_neg_isNaN a ha⟩,
    ofInt_correctlyRounded,
    fun a ha => ⟨floor_integral a ha, floor_le a ha, fun z => le_floor a z ha⟩,
    fun lo hi a _ => ⟨fun h => f2i_finite lo hi a h.1, f2i_inf lo hi a⟩⟩

/-- Settles O59: a value that is not at or above `lo`, a NaN among them, becomes `lo`, which the upper bound leaves. -/
theorem clampForcesIntoRange : Obligations.ClampForcesIntoRange := fun x lo hi hb =>
  ⟨F32.clamp_within x lo hi, fun h => clamp_of_not_ge hb (not_ge_of_lt h),
    fun h => clamp_of_not_ge hb (not_ge_of_isNaN h), clamp_of_lt hb⟩

end Sys2Proof.Rounding

/-! PROOFS. The second part of the latch (40_host_commands.md R107): the derived registers of a block (O15). -/

namespace Sys2Proof.Latch

open Sys2Proof.Machine

/-- PROCESS with its preconditions met: the latch, and the frame context at its start. -/
theorem exec_process_eq (channels : BitVec 8) (frameCount : Word) (s : State) (hr : s.ready = true)
    (hp : s.pvalid = true) :
    exec (.process channels frameCount) s =
      .next ((latch s.takeFeed).setFrame (FrameCtx.start channels frameCount)) := by
  simp [exec, execProcess, hr, hp, operandU]

/-- The latch after the host's IN is taken: the derived registers from the active ones and FS. -/
theorem latch_takeFeed_derived (s : State) :
    (latch s.takeFeed).derived = latchDerived s.fs (latch s.takeFeed).active := by
  rw [takeFeed_spec, latch_spec]

theorem f2i_bounds (lo hi : ℤ) (a : F32) (h : lo ≤ hi) : lo ≤ F32.f2i lo hi a ∧ F32.f2i lo hi a ≤ hi := by
  unfold F32.f2i F32.saturate
  split_ifs <;> omega

/-- The duration register holds the duration: nothing is cut off, whatever `f2i` answers. -/
theorem toNat_durationFrames (fs ms : F32) :
    ((durationFrames fs ms).toNat : ℤ) =
      Max.max 1 (F32.f2i 0 (2 ^ 32 - 1) ((ms.mul fs).div F32.thousand).floor) := by
  obtain ⟨hlo, hhi⟩ := f2i_bounds 0 (2 ^ 32 - 1) ((ms.mul fs).div F32.thousand).floor (by norm_num)
  rw [durationFrames, BitVec.toNat_ofInt]
  omega

theorem db2lin_eq (g : F32) : db2lin g = Config.library.pow10 (g.div (F32.literal 20 1)) := by
  rw [literal_twenty, db2lin]

theorem lvl2amp_eq (g : F32) :
    lvl2amp g = if g.le (F32.literal 120 1).neg then F32.zero
      else Config.library.pow10 (g.div (F32.literal 20 1)) := by
  rw [literal_muteDb, lvl2amp, db2lin_eq]

/-- Settles O15: the latch's second part, its constants read as the decimals of R107. -/
theorem processDerivesTheConstants : Obligations.ProcessDerivesTheConstants := by
  intro channels frameCount s hr hp
  refine ⟨_, exec_process_eq channels frameCount s hr hp, ?_⟩
  rw [State.setFrame_derived, State.setFrame_active, latch_takeFeed_derived, literal_one, literal_two, literal_sixty,
    literal_thousand, literal_satDrive, literal_spreadK_decimal]
  exact ⟨lvl2amp_eq _, lvl2amp_eq _, db2lin_eq _, rfl, toNat_durationFrames _ _, rfl, rfl, rfl, rfl⟩

end Sys2Proof.Latch

/-! PROOFS. The registers of 10_state.md: who writes each of them (O54), and what every step keeps (O47 to O50). What an
instruction can write is said once, as the relation `Writes`; each register's writers and each invariant are read from
its cases. -/

namespace Sys2Proof.Registers

open Sys2Proof.Machine

/-! ### What an instruction writes -/

/-- The stages that write nothing but wires of the frame. -/
def wiresOnly : Instr → Bool
  | .fetch | .hum | .genv | .dlyrd _ | .envsc _ | .mix _ => true
  | _ => false

/-- `Writes s i t`: the instruction `i` takes `s` to `t`. The samples that a stage computes are left
open: on the wires, in OUT, in the delay RAM and in the filter and saturator registers. -/
inductive Writes (s : State) : Instr → State → Prop
  | reset (fs block : Word) (hb : badSampleRate ⟨fs⟩ = false) :
      Writes s (.reset fs block) (s.reinitialise ⟨fs⟩ block)
  | setparams (v : ParamWords) (p : Params) (hv : operandParams v = some p) :
      Writes s (.setparams v) { s with pvalid := true, staged := p }
  | process (channels : BitVec 8) (frameCount : Word) (hr : s.ready = true) (hp : s.pvalid = true) :
      Writes s (.process channels frameCount)
        { s with
          active := latchParams s.fs s.staged
          derived := latchDerived s.fs (latchParams s.fs s.staged)
          inBuf := s.feeds.headD s.inBuf
          feeds := s.feeds.tail
          frame := FrameCtx.start channels frameCount }
  | wires (i : Instr) (w : Wires) (hi : wiresOnly i = true) : Writes s i (s.setWires w)
  | mod (w : Wires) :
      Writes s .mod
        (State.setWires
          { s with
            rng := rngNext s.rng
            modu := modulationNext s.active s.fs (uniform (rngNext s.rng)) s.modu } w)
  | noise (c : Channel) (w : Wires) :
      Writes s (.noise c) (State.setWires { s with rng := rngNext (rngNext s.rng) } w)
  | flt (c : Channel) (z : Four Section) (w : Wires) :
      Writes s (.flt c) ((s.setChannel c { s.channel c with z := z }).setWires w)
  | sat (c : Channel) (x y : F32) (w : Wires) :
      Writes s (.sat c) ((s.setChannel c { s.channel c with xp := x, yp := y }).setWires w)
  | outwr (c : Channel) (out : Mem) : Writes s (.outwr c) (s.setOut out)
  | dlywr (c : Channel) (x : F32) : Writes s (.dlywr c) (s.setChannel c (delayPush (s.channel c) x))
  | drop :
      Writes s .drop
        { s with
          drop := (dropResult s.derived s.fs s.drop s.rng).1
          rng := (dropResult s.derived s.fs s.drop s.rng).2 }

theorem exec_reset_writes {fs block : Word} {s t : State} (h : exec (.reset fs block) s = .next t) :
    Writes s (.reset fs block) t := by
  rw [exec, execReset] at h
  split at h
  · exact absurd h (raise_ne_next _ _ _ _)
  · next hb => cases h; exact .reset fs block (Bool.eq_false_iff.2 hb)

theorem exec_setparams_writes {v : ParamWords} {s t : State} (h : exec (.setparams v) s = .next t) :
    Writes s (.setparams v) t := by
  rw [exec, execSetparams] at h
  split at h
  · next p hv => cases h; exact .setparams v p hv
  · exact absurd h (raise_ne_next _ _ _ _)

theorem exec_process_writes {channels : BitVec 8} {frameCount : Word} {s t : State}
    (h : exec (.process channels frameCount) s = .next t) : Writes s (.process channels frameCount) t := by
  rw [exec, execProcess] at h
  split at h
  · exact absurd h (raise_ne_next _ _ _ _)
  · split at h
    · exact absurd h (raise_ne_next _ _ _ _)
    · next hr hp =>
      cases h
      rw [takeFeed_spec, latch_spec]
      exact .process channels frameCount (by simpa using hr) (by simpa using hp)

/-- Every next state that an instruction gives is one of the cases of `Writes`. -/
theorem exec_writes {i : Instr} {s t : State} (h : exec i s = .next t) : Writes s i t := by
  cases i with
  | reset => exact exec_reset_writes h
  | setparams => exact exec_setparams_writes h
  | process => exact exec_process_writes h
  | mod => cases h; exact .mod _
  | noise c => cases h; exact .noise c _
  | flt c => cases h; exact .flt c _ _
  | sat c => cases h; exact .sat c _ _ _
  | outwr c =>
    cases h
    rw [outWrite_spec]
    exact .outwr c _
  | dlywr c => cases h; exact .dlywr c _
  | drop =>
    cases h
    rw [dropStep_eq]
    exact .drop
  | _ => cases h; exact .wires _ _ rfl

/-! ### The writers of each register (O54) -/

section
variable {i : Instr} {s t : State} (hw : Writes s i t)
include hw

theorem Writes.status_of_not_reset (hi : ∀ fs block, i ≠ .reset fs block) :
    t.ready = s.ready ∧ t.fs = s.fs ∧ t.blksz = s.blksz := by
  cases hw with
  | reset fs block => exact absurd rfl (hi fs block)
  | _ => simp

theorem Writes.pvalid_of_not_writer (hi : ∀ fs block, i ≠ .reset fs block) (hs : ∀ v, i ≠ .setparams v) :
    t.pvalid = s.pvalid := by
  cases hw with
  | reset fs block => exact absurd rfl (hi fs block)
  | setparams v => exact absurd rfl (hs v)
  | _ => simp

theorem Writes.staged_of_not_setparams (hs : ∀ v, i ≠ .setparams v) : t.staged = s.staged := by
  cases hw with
  | setparams v => exact absurd rfl (hs v)
  | reset => rfl
  | _ => simp

theorem Writes.latched_of_not_process (hp : ∀ ch f, i ≠ .process ch f) :
    t.active = s.active ∧ t.derived = s.derived ∧ t.inBuf = s.inBuf := by
  cases hw with
  | process ch f => exact absurd rfl (hp ch f)
  | reset => exact ⟨rfl, rfl, rfl⟩
  | _ => simp

theorem Writes.rng_of_not_writer (hi : ∀ fs block, i ≠ .reset fs block) (hm : i ≠ .mod) (hn : ∀ c, i ≠ .noise c)
    (hd : i ≠ .drop) : t.rng = s.rng := by
  cases hw with
  | reset fs block => exact absurd rfl (hi fs block)
  | mod => exact absurd rfl hm
  | noise c => exact absurd rfl (hn c)
  | drop => exact absurd rfl hd
  | _ => simp

theorem Writes.drop_of_not_writer (hi : ∀ fs block, i ≠ .reset fs block) (hd : i ≠ .drop) : t.drop = s.drop := by
  cases hw with
  | reset fs block => exact absurd rfl (hi fs block)
  | drop => exact absurd rfl hd
  | _ => simp

theorem Writes.modu_of_not_writer (hi : ∀ fs block, i ≠ .reset fs block) (hm : i ≠ .mod) : t.modu = s.modu := by
  cases hw with
  | reset fs block => exact absurd rfl (hi fs block)
  | mod => exact absurd rfl hm
  | _ => simp

theorem Writes.outBuf_of_not_outwr (ho : ∀ c, i ≠ .outwr c) : t.outBuf = s.outBuf := by
  cases hw with
  | outwr c => exact absurd rfl (ho c)
  | reset => rfl
  | _ => simp

end

/-- A register of both channels that a write to one channel leaves as it was. -/
theorem setChannel_keeps {α : Type} (f : ChannelState → α) (s : State) (c : Channel) (v : ChannelState)
    (hv : f v = f (s.channel c)) (d : Channel) : f ((s.setChannel c v).channel d) = f (s.channel d) := by
  by_cases hd : d = c
  · rw [hd, State.setChannel_same, hv]
  · rw [State.setChannel_other s c d v hd]

/-- An instruction other than RESET that writes a channel leaves a register of both channels alone, unless it is the
register's own stage. -/
theorem Writes.channel_keeps {i : Instr} {s t : State} (hw : Writes s i t) {α : Type} (f : ChannelState → α)
    (hi : ∀ fs block, i ≠ .reset fs block)
    (hflt : (∀ c, i ≠ .flt c) ∨ ∀ ch z, f { ch with z := z } = f ch)
    (hsat : (∀ c, i ≠ .sat c) ∨ ∀ ch x y, f { ch with xp := x, yp := y } = f ch)
    (hdlywr : (∀ c, i ≠ .dlywr c) ∨ ∀ ch x, f (delayPush ch x) = f ch) (d : Channel) :
    f (t.channel d) = f (s.channel d) := by
  cases hw with
  | reset fs block => exact absurd rfl (hi fs block)
  | flt c z w =>
    obtain hflt | hflt := hflt
    · exact absurd rfl (hflt c)
    · exact setChannel_keeps f s c _ (hflt _ z) d
  | sat c x y w =>
    obtain hsat | hsat := hsat
    · exact absurd rfl (hsat c)
    · exact setChannel_keeps f s c _ (hsat _ x y) d
  | dlywr c x =>
    obtain hdlywr | hdlywr := hdlywr
    · exact absurd rfl (hdlywr c)
    · exact setChannel_keeps f s c _ (hdlywr _ x) d
  | _ => cases d <;> rfl

/-- Settles O54: each clause is the frame lemma of its registers. -/
theorem registersHaveTheirWriters : Obligations.RegistersHaveTheirWriters := by
  intro i s t h
  have hw := exec_writes h
  refine ⟨hw.status_of_not_reset, hw.pvalid_of_not_writer, hw.staged_of_not_setparams, hw.latched_of_not_process,
    hw.rng_of_not_writer, hw.drop_of_not_writer, hw.modu_of_not_writer, fun hi hd => ?_, fun hi hf => ?_,
    fun hi hs => ?_, hw.outBuf_of_not_outwr⟩
  · have dly := hw.channel_keeps (·.dly) hi (.inr fun _ _ => rfl) (.inr fun _ _ _ => rfl) (.inl hd)
    have cursor := hw.channel_keeps (·.w) hi (.inr fun _ _ => rfl) (.inr fun _ _ _ => rfl) (.inl hd)
    exact ⟨dly .left, cursor .left, dly .right, cursor .right⟩
  · have z := hw.channel_keeps (·.z) hi (.inl hf) (.inr fun _ _ _ => rfl) (.inr fun _ _ => rfl)
    exact ⟨z .left, z .right⟩
  · have xp := hw.channel_keeps (·.xp) hi (.inr fun _ _ => rfl) (.inl hs) (.inr fun _ _ => rfl)
    have yp := hw.channel_keeps (·.yp) hi (.inr fun _ _ => rfl) (.inl hs) (.inr fun _ _ => rfl)
    exact ⟨xp .left, yp .left, xp .right, yp .right⟩

/-! ### What every step keeps of the registers (O49, O50) -/

/-- A property that power-on has, that every instruction keeps, and that says nothing of the frame, the port or the
command count, is kept by every step. -/
theorem step_keeps {P : State → Prop} (hon : ∀ s : State, P s.powerOn) (hexec : ∀ i s t, Writes s i t → P s → P t)
    (hframe : ∀ (s : State) f, P s → P (s.setFrame f)) (hport : ∀ (s : State) rest, P s → P (s.consume rest))
    (hcount : ∀ s, P s → P (afterCommand s)) {s t : State} (hs : P s) (h : step s = .next t) : P t := by
  obtain ⟨-, rfl⟩ | ⟨-, i, u, -, -, -, hu, rfl⟩ | ⟨i, rest, u, -, -, -, hu, rfl⟩ | ⟨-, -, -, rfl⟩ := step_cases s t h
  · exact hon s
  · exact hframe u _ (hexec i s u (exec_writes hu) hs)
  · exact hcount u (hexec i _ u (exec_writes hu) (hport s rest hs))
  · exact hs

theorem randomOk_iff (s : State) : s.randomOk = true ↔ (s.ready = true → s.rng ≠ 0) := by
  cases hr : s.ready <;> simp [State.randomOk, hr]

theorem sampleRateOk_iff (s : State) :
    s.sampleRateOk = true ↔ (s.ready = true → s.fs.isFinite = true ∧ s.fs.gt F32.zero = true) := by
  cases hr : s.ready <;> simp [State.sampleRateOk, hr]

theorem jitterOk_iff (s : State) :
    s.jitterOk = true ↔ Config.cfg.jitMax.neg.le s.modu.jit = true ∧ s.modu.jit.le Config.cfg.jitMax = true := by
  simp [State.jitterOk, F32.ge]

/-- DROP draws at most once, and no draw gives zero. -/
theorem dropResult_rng_ne_zero (g : Derived) (fs : F32) (d : Dropout) (r : Word) (h : r ≠ 0) :
    (dropResult g fs d r).2 ≠ 0 := by
  obtain he | he := dropResult_rng g fs d r <;> rw [he]
  · exact h
  · exact rngNext_ne_zero r h

/-- RESET puts the seed in RNG, and a draw never gives zero. -/
theorem Writes.randomOk {i : Instr} {s t : State} (hw : Writes s i t) (h : s.randomOk = true) : t.randomOk = true := by
  rw [randomOk_iff] at h ⊢
  intro hr
  cases hw with
  | reset => exact (by decide : Config.cfg.seed ≠ 0)
  | mod => exact rngNext_ne_zero _ (h hr)
  | noise => exact rngNext_ne_zero _ (rngNext_ne_zero _ (h hr))
  | drop => exact dropResult_rng_ne_zero _ _ _ _ (h hr)
  | _ => simp_all

/-- A rate RESET accepts is finite and strictly positive (40_host_commands.md R101). -/
theorem finite_pos_of_not_badSampleRate (fs : F32) (h : badSampleRate fs = false) :
    fs.isFinite = true ∧ fs.gt F32.zero = true := by
  simp only [badSampleRate, Bool.or_eq_false_iff, Bool.not_eq_false'] at h
  obtain ⟨hpos, hinf⟩ := h
  obtain ⟨hnan, -, hkey⟩ := (F32.gt_iff _ _).1 hpos
  have hle : fs.mag ≤ F32.infMag := (F32.isNaN_eq_false_iff fs).1 hnan
  have hs : fs.sign = false := by
    by_contra hneg
    have hk : fs.key = -(fs.mag : Int) := if_pos (by simpa using hneg)
    have hz : F32.zero.key = 0 := by decide
    omega
  have hne : fs.key ≠ F32.inf.key := fun he =>
    absurd ((F32.eq_iff _ _).2 ⟨hnan, by decide, he⟩) (by simp [hinf])
  have hk : fs.key = fs.mag := if_neg (by simp [hs])
  have hi : F32.inf.key = F32.infMag := by decide
  exact ⟨(F32.isFinite_iff fs).2 (by omega), hpos⟩

theorem Writes.sampleRateOk {i : Instr} {s t : State} (hw : Writes s i t) (h : s.sampleRateOk = true) :
    t.sampleRateOk = true := by
  rw [sampleRateOk_iff] at h ⊢
  intro hr
  cases hw with
  | reset fs block hb => exact finite_pos_of_not_badSampleRate ⟨fs⟩ hb
  | _ => simp_all

/-- Settles O49: power-on clears READY, and every instruction keeps both properties. -/
theorem stepKeepsWhatResetEstablishes : Obligations.StepKeepsWhatResetEstablishes := fun _ _ h =>
  ⟨fun hs => step_keeps (P := fun s => s.randomOk = true) (fun _ => rfl) (fun _ _ _ hw => hw.randomOk)
      (fun _ _ => id) (fun _ _ => id) (fun _ => id) hs h,
    fun hs => step_keeps (P := fun s => s.sampleRateOk = true) (fun _ => rfl) (fun _ _ _ hw => hw.sampleRateOk)
      (fun _ _ => id) (fun _ _ => id) (fun _ => id) hs h⟩

theorem jitterOk_of_cleared {s : State} (h : s.modu = Modulation.cleared) : s.jitterOk = true := by
  rw [State.jitterOk, h]
  decide

/-- The jitter of a frame is clamped (42_modulation.md R144). -/
theorem jitNext_bounds (u jit : F32) :
    Config.cfg.jitMax.neg.le (jitNext u jit) = true ∧ (jitNext u jit).le Config.cfg.jitMax = true :=
  F32.clamp_bounds _ _ _ (by decide) (by decide)

theorem Writes.jitterOk {i : Instr} {s t : State} (hw : Writes s i t) (h : s.jitterOk = true) : t.jitterOk = true := by
  cases hw with
  | reset => exact jitterOk_of_cleared rfl
  | mod => exact (jitterOk_iff _).2 (jitNext_bounds _ _)
  | _ => simpa [State.jitterOk] using h

/-- Settles O50: RESET and power-on clear JIT, and MOD clamps it. -/
theorem stepKeepsTheJitterBounded : Obligations.StepKeepsTheJitterBounded := fun _ _ =>
  step_keeps (P := fun s => s.jitterOk = true) (fun _ => jitterOk_of_cleared rfl) (fun _ _ _ hw => hw.jitterOk)
    (fun _ _ => id) (fun _ _ => id) (fun _ => id)

/-! ### The sequence of a block (O47) -/

/-- A frame context at a command boundary, or at a stage of the sequence with its index below the frame count
(10_state.md R27). -/
def LegalFrame (f : FrameCtx) : Prop := ∀ id, f.stage = some id → id ∈ frameSequence ∧ f.n < f.frameCount

/-- While a frame is in progress READY and PVALID are 1 (40_host_commands.md R105). -/
def PreconditionsHold (s : State) : Prop := s.frame.stage ≠ none → s.ready = true ∧ s.pvalid = true

theorem sequenceOk_iff (s : State) : s.sequenceOk = true ↔ LegalFrame s.frame ∧ PreconditionsHold s := by
  unfold State.sequenceOk LegalFrame PreconditionsHold
  split <;> simp_all [and_assoc]

theorem sequenceOk_of_boundary {s : State} (h : s.frame.stage = none) : s.sequenceOk = true := by
  simp [State.sequenceOk, h]

theorem legalFrame_idle : LegalFrame FrameCtx.idle := by simp [LegalFrame, FrameCtx.idle]

theorem legalFrame_start (channels : BitVec 8) (frameCount : Word) :
    LegalFrame (FrameCtx.start channels frameCount) := by
  obtain ⟨-, he⟩ | ⟨hpos, he⟩ := start_cases channels frameCount <;> rw [he]
  · exact legalFrame_idle
  · rintro id ⟨⟩
    exact ⟨by decide, hpos⟩

theorem legalFrame_advance {f : FrameCtx} (h : LegalFrame f) : LegalFrame f.advance := by
  obtain ⟨-, he⟩ | ⟨id, next, hs, hnext, he⟩ | ⟨id, -, -, hn, he⟩ | ⟨id, -, -, -, he⟩ := advance_cases f <;> rw [he]
  · exact h
  · rintro _ ⟨⟩
    exact ⟨following_mem id _ next hnext, (h id hs).2⟩
  · rintro _ ⟨⟩
    exact ⟨by decide, hn⟩
  · exact legalFrame_idle

/-- A next state of a stage has what no stage writes. -/
theorem stageFrame_of_exec {id : BitVec 5} {i : Instr} {s u : State} (hd : decodeStage id = some i)
    (hu : exec i s = .next u) : StageFrame s u := by
  obtain ⟨v, hv, hf⟩ := exec_stage id i s hd
  obtain rfl : v = u := by simpa [hv] using hu
  exact hf

/-- A stage of a frame in progress leads to the next stage, to the next frame or to the end of the command. -/
theorem sequenceOk_afterStage {s u : State} (hf : StageFrame s u) (hstage : s.frame.stage ≠ none)
    (h : s.sequenceOk = true) : (afterStage u).sequenceOk = true := by
  obtain ⟨hlegal, hpre⟩ := (sequenceOk_iff s).1 h
  obtain ⟨hr, hp⟩ := hpre hstage
  have hu : LegalFrame u.frame := by
    unfold LegalFrame
    rw [hf.stage, hf.n, hf.frameCount]
    exact hlegal
  exact (sequenceOk_iff _).2 ⟨legalFrame_advance hu, fun _ => ⟨hf.ready.trans hr, hf.pvalid.trans hp⟩⟩

/-- PROCESS alone begins a frame, and only after its checks. -/
theorem sequenceOk_afterCommand {ws rest : List Word} {i : Instr} {s u : State}
    (hd : decodeCommand ws = .command i rest) (hu : exec i s = .next u) (hstage : s.frame.stage = none) :
    (afterCommand u).sequenceOk = true := by
  obtain ⟨fs, block, -, -, rfl⟩ | ⟨v, p, -, -, rfl⟩ | ⟨channels, frameCount, -, hr, hp, rfl⟩ :=
    command_cases ws rest i s u hd hu
  · exact sequenceOk_of_boundary hstage
  · exact sequenceOk_of_boundary hstage
  · rw [takeFeed_spec, latch_spec]
    exact (sequenceOk_iff _).2 ⟨legalFrame_start channels frameCount, fun _ => ⟨hr, hp⟩⟩

/-- Settles O47: the invariant is split into the frame's own part and PROCESS's preconditions. -/
theorem stepKeepsTheSequenceLegal : Obligations.StepKeepsTheSequenceLegal := by
  intro s t hs h
  obtain ⟨-, rfl⟩ | ⟨id, i, u, -, hid, hd, hu, rfl⟩ | ⟨i, rest, u, -, hid, hd, hu, rfl⟩ | ⟨-, -, -, rfl⟩ :=
    step_cases s t h
  · exact sequenceOk_of_boundary rfl
  · exact sequenceOk_afterStage (stageFrame_of_exec hd hu) (by simp [hid]) hs
  · exact sequenceOk_afterCommand hd hu hid
  · exact hs

/-! ### The two write cursors (O48) -/

/-- How far channel 0's cursor is ahead of channel 1's where the stage given runs next. -/
def cursorLead (stage : Option (BitVec 5)) : BitVec 12 := if stage.any betweenCursors then 1 else 0

/-- How far an instruction other than RESET moves the cursor of channel `c`. -/
def cursorMove (c : Channel) (i : Instr) : BitVec 12 := if i = .dlywr c then 1 else 0

theorem cursorsOk_iff (s : State) :
    s.cursorsOk = true ↔
      (∀ id, s.frame.stage = some id → id ∈ frameSequence) ∧ s.left.w = s.right.w + cursorLead s.frame.stage := by
  unfold State.cursorsOk cursorLead
  rcases s.frame.stage with _ | id
  · simp
  · cases hb : betweenCursors id <;> simp [hb]

theorem Writes.cursor {i : Instr} {s t : State} (hw : Writes s i t) (hi : ∀ fs block, i ≠ .reset fs block)
    (d : Channel) : (t.channel d).w = (s.channel d).w + cursorMove d i := by
  by_cases hd : ∀ c, i ≠ .dlywr c
  · have keep := hw.channel_keeps (·.w) hi (.inr fun _ _ => rfl) (.inr fun _ _ _ => rfl) (.inl hd) d
    rw [keep, cursorMove, if_neg (hd d), add_zero]
  · obtain ⟨c, rfl⟩ := not_forall_not.1 hd
    cases hw with
    | wires _ _ hwire => exact absurd hwire (by simp [wiresOnly])
    | dlywr _ x =>
      by_cases hc : d = c
      · rw [hc, State.setChannel_same, delayPush_w, cursorMove, if_pos rfl]
      · rw [State.setChannel_other _ _ _ _ hc, cursorMove, if_neg (by simpa using Ne.symm hc), add_zero]

/-- At every stage of the sequence the lead it finds and the moves of the two cursors make up the lead of the stage
after it (40_host_commands.md R110); after the last stage there is none. -/
theorem cursorLead_following (id : BitVec 5) (i : Instr) (hid : id ∈ frameSequence) (hd : decodeStage id = some i) :
    cursorLead (some id) + cursorMove .left i = cursorLead (following id frameSequence) + cursorMove .right i := by
  have table : ∀ id ∈ frameSequence, ∀ i ∈ decodeStage id,
      cursorLead (some id) + cursorMove .left i = cursorLead (following id frameSequence) + cursorMove .right i := by
    decide
  exact table id hid i hd

/-- A frame's first stage has no lead, as a command boundary has none: only the next stage of the same frame counts. -/
theorem cursorLead_advance (f : FrameCtx) :
    cursorLead f.advance.stage = cursorLead (f.stage.bind (following · frameSequence)) := by
  obtain ⟨hs, he⟩ | ⟨id, next, hs, hnext, he⟩ | ⟨id, hs, hnext, -, he⟩ | ⟨id, hs, hnext, -, he⟩ := advance_cases f
  · rw [he, hs]; rfl
  · rw [he, hs, Option.bind_some, hnext]
  · rw [he, hs, Option.bind_some, hnext]; rfl
  · rw [he, hs, Option.bind_some, hnext]; rfl

theorem cursorLead_start (channels : BitVec 8) (frameCount : Word) :
    cursorLead (FrameCtx.start channels frameCount).stage = 0 := by
  obtain ⟨-, he⟩ | ⟨-, he⟩ := start_cases channels frameCount <;> rw [he] <;> rfl

/-- A stage is followed by a stage of the sequence, or by none. -/
theorem mem_frameSequence_of_advance {f : FrameCtx} {id : BitVec 5} (h : f.stage ≠ none)
    (ha : f.advance.stage = some id) : id ∈ frameSequence := by
  obtain ⟨hs, -⟩ | ⟨id', next, -, hnext, he⟩ | ⟨_, -, -, -, he⟩ | ⟨_, -, -, -, he⟩ := advance_cases f
  · exact absurd hs h
  all_goals
    rw [he] at ha
    cases ha
  · exact following_mem id' _ _ hnext
  · decide

theorem ne_reset_of_decodeStage {id : BitVec 5} {i : Instr} (hd : decodeStage id = some i) (fs block : Word) :
    i ≠ .reset fs block := by
  rintro rfl
  simpa [portWords, encode] using decodeStage_stage id _ hd

/-- A stage moves the cursors by what takes the lead from its own to that of the next stage. -/
theorem cursorsOk_afterStage {s u : State} {id : BitVec 5} {i : Instr} (hid : s.frame.stage = some id)
    (hd : decodeStage id = some i) (hu : exec i s = .next u) (h : s.cursorsOk = true) :
    (afterStage u).cursorsOk = true := by
  obtain ⟨hmem, hlead⟩ := (cursorsOk_iff s).1 h
  have hstage : u.frame.stage = some id := (stageFrame_of_exec hd hu).stage.trans hid
  have move := (exec_writes hu).cursor (ne_reset_of_decodeStage hd)
  have hl : u.left.w = s.left.w + cursorMove .left i := move .left
  have hr : u.right.w = s.right.w + cursorMove .right i := move .right
  refine (cursorsOk_iff _).2 ⟨fun _ => mem_frameSequence_of_advance (by simp [hstage]), ?_⟩
  calc u.left.w
      = s.right.w + (cursorLead (some id) + cursorMove .left i) := by rw [hl, hlead, hid, add_assoc]
    _ = s.right.w + cursorMove .right i + cursorLead (following id frameSequence) := by
        rw [cursorLead_following id i (hmem id hid) hd, add_comm (cursorLead _), add_assoc]
    _ = u.right.w + cursorLead u.frame.advance.stage := by
        rw [hr, cursorLead_advance, hstage, Option.bind_some]

theorem cursorsOk_of_boundary {s : State} (hs : s.frame.stage = none) (hw : s.left.w = s.right.w) :
    s.cursorsOk = true := by
  simp [State.cursorsOk, hs, hw]

/-- RESET clears both cursors, and a block begins at a stage before both advances. -/
theorem cursorsOk_afterCommand {ws rest : List Word} {i : Instr} {s u : State} (hd : decodeCommand ws = .command i rest)
    (hu : exec i s = .next u) (hstage : s.frame.stage = none) (hw : s.left.w = s.right.w) :
    (afterCommand u).cursorsOk = true := by
  obtain ⟨fs, block, -, -, rfl⟩ | ⟨v, p, -, -, rfl⟩ | ⟨channels, frameCount, -, -, -, rfl⟩ :=
    command_cases ws rest i s u hd hu
  · exact cursorsOk_of_boundary hstage rfl
  · exact cursorsOk_of_boundary hstage hw
  · rw [takeFeed_spec, latch_spec, cursorsOk_iff, afterCommand_frame, State.setFrame_frame, cursorLead_start, add_zero]
    exact ⟨fun id hid => (legalFrame_start channels frameCount id hid).1, hw⟩

/-- Settles O48: the lead of channel 0's cursor is a function of the stage, and every stage keeps it. -/
theorem stepKeepsTheCursorsEqual : Obligations.StepKeepsTheCursorsEqual := by
  intro s t hs h
  obtain ⟨-, rfl⟩ | ⟨id, i, u, -, hid, hd, hu, rfl⟩ | ⟨i, rest, u, -, hid, hd, hu, rfl⟩ | ⟨-, -, -, rfl⟩ :=
    step_cases s t h
  · exact cursorsOk_of_boundary rfl rfl
  · exact cursorsOk_afterStage hid hd hu hs
  · have hw : s.left.w = s.right.w := by simpa [State.cursorsOk, hid] using hs
    exact cursorsOk_afterCommand hd hu hid hw
  · exact hs

end Sys2Proof.Registers

/-! PROOFS. The memory of 20_memory.md: a store in a buffer read back (O60), the form of the memories that every step
keeps (O46), and the channels of the buffers that no frame touches (O56). -/

namespace Sys2Proof.Memory

open Sys2Proof.Machine Sys2Proof.Registers

/-! ### A word of a buffer (O60) -/

/-- The lowest byte of a word is at its lowest address (20_memory.md R63). -/
theorem readByte_writeWord_lowest (m : Mem) (k : Nat) (v : Word) (h : m.wf = true) :
    (m.writeWord k v).readByte (4 * k) = v.extractLsb' 0 8 := by
  unfold Mem.writeWord
  rw [Mem.readByte_writeByte_other _ _ _ _ (by omega), Mem.readByte_writeByte_other _ _ _ _ (by omega),
    Mem.readByte_writeByte_other _ _ _ _ (by omega), Mem.readByte_writeByte_same _ _ _ h]

/-- Settles O60: distinct samples have distinct words, and the word's first byte is the sample's lowest. -/
theorem bufferReadAfterWrite : Obligations.BufferReadAfterWrite := fun m c d j k v h =>
  ⟨memWrite_wf m c k v h, memRead_memWrite_same m c k v h, readByte_writeWord_lowest m (bufferIndex c k) v.bits h,
    memRead_memWrite_other m c d j k v⟩

/-! ### The form of the memories (O46) -/

/-- The delay RAMs of both channels are in form. -/
def RamsOk (s : State) : Prop := ∀ c, ramOk (s.channel c).dly = true

/-- The host's contents of IN, those it holds now and those to come, are in form. -/
def InputOk (s : State) : Prop := s.inBuf.wf = true ∧ ∀ m ∈ s.feeds, m.wf = true

theorem memoryOk_iff (s : State) : s.memoryOk = true ↔ RamsOk s ∧ InputOk s ∧ s.outBuf.wf = true := by
  have rams : RamsOk s ↔ ramOk s.left.dly = true ∧ ramOk s.right.dly = true :=
    ⟨fun h => ⟨h .left, h .right⟩, fun h c => by cases c; exacts [h.1, h.2]⟩
  simp only [State.memoryOk, rams, InputOk, Bool.and_eq_true, List.all_eq_true]
  tauto

theorem ramsOk_setChannel {s : State} {c : Channel} {v : ChannelState} (h : RamsOk s) (hv : ramOk v.dly = true) :
    RamsOk (s.setChannel c v) := by
  intro d
  by_cases hd : d = c
  · rwa [hd, State.setChannel_same]
  · rw [State.setChannel_other s c d v hd]
    exact h d

theorem ramsOk_of_cleared {s : State} (h : ∀ c, s.channel c = ChannelState.cleared) : RamsOk s := fun c => by
  rw [h c]
  rfl

/-- RESET clears the delay RAMs, and DLYWR stores at a cursor of twelve bits (20_memory.md R61). -/
theorem ramsOk_of_writes {i : Instr} {s t : State} (hw : Writes s i t) (h : RamsOk s) : RamsOk t := by
  cases hw with
  | reset => exact ramsOk_of_cleared fun c => by cases c <;> rfl
  | flt c z => exact ramsOk_setChannel (v := { s.channel c with z := z }) h (h c)
  | sat c x y => exact ramsOk_setChannel (v := { s.channel c with xp := x, yp := y }) h (h c)
  | dlywr c x => exact ramsOk_setChannel h (ramOk_writeWord _ _ x.bits (h c))
  | _ => exact h

/-- PROCESS moves the next contents into IN; nothing else touches them (20_memory.md R65). -/
theorem inputOk_of_writes {i : Instr} {s t : State} (hw : Writes s i t) (h : InputOk s) : InputOk t := by
  cases hw with
  | process =>
    obtain ⟨hin, hfeeds⟩ := h
    refine ⟨?_, fun m hm => hfeeds m (List.mem_of_mem_tail hm)⟩
    show (s.feeds.headD s.inBuf).wf = true
    rcases hf : s.feeds with _ | ⟨m, rest⟩
    · exact hin
    · exact hfeeds m (hf ▸ List.mem_cons_self)
  | flt c => cases c <;> exact h
  | sat c => cases c <;> exact h
  | dlywr c => cases c <;> exact h
  | _ => exact h

/-- OUTWR alone writes OUT, and stores one sample there or none. -/
theorem outBuf_wf_of_exec {i : Instr} {s t : State} (he : exec i s = .next t) (h : s.outBuf.wf = true) :
    t.outBuf.wf = true := by
  by_cases ho : ∀ c, i ≠ .outwr c
  · rwa [(exec_writes he).outBuf_of_not_outwr ho]
  · obtain ⟨c, rfl⟩ := not_forall_not.1 ho
    cases he
    rw [outWrite_spec]
    dsimp only
    split
    · exact memWrite_wf _ _ _ _ h
    · exact h

theorem memoryOk_of_exec {i : Instr} {s t : State} (he : exec i s = .next t) (h : s.memoryOk = true) :
    t.memoryOk = true := by
  rw [memoryOk_iff] at h ⊢
  obtain ⟨hrams, hinput, hout⟩ := h
  exact ⟨ramsOk_of_writes (exec_writes he) hrams, inputOk_of_writes (exec_writes he) hinput, outBuf_wf_of_exec he hout⟩

/-- The reset input keeps the host's buffers (70_reset_and_hazards.md R280). -/
theorem memoryOk_powerOn {s : State} (h : s.memoryOk = true) : s.powerOn.memoryOk = true := by
  rw [memoryOk_iff] at h ⊢
  obtain ⟨-, hinput, hout⟩ := h
  exact ⟨ramsOk_of_cleared fun c => by cases c <;> rfl, hinput, hout⟩

/-- Settles O46: every instruction keeps the form, and moving the sequence, the port or the command count on touches no
memory. -/
theorem stepKeepsMemoryCanonical : Obligations.StepKeepsMemoryCanonical := by
  intro s t hs h
  obtain ⟨-, rfl⟩ | ⟨-, i, u, -, -, -, hu, rfl⟩ | ⟨i, rest, u, -, -, -, hu, rfl⟩ | ⟨-, -, -, rfl⟩ := step_cases s t h
  · exact memoryOk_powerOn hs
  · exact show u.memoryOk = true from memoryOk_of_exec hu hs
  · exact show u.memoryOk = true from memoryOk_of_exec (s := s.consume rest) hu hs
  · exact hs

/-! ### The channels beyond the first two (O56) -/

theorem channel_index_lt_two (c : Channel) : c.index < 2 := by cases c <;> decide

/-- What every frame keeps, any number of frames keeps. -/
theorem frames_keeps {α : Type} (f : State → α) (channels : BitVec 8)
    (h : ∀ n s, f (frameStep n channels s) = f s) (k : Nat) (n : Word) (s : State) :
    f (frames k n channels s) = f s := by
  induction k generalizing n s with
  | zero => rfl
  | succ k ih => rw [frames, ih, h]

theorem frameStep_inBuf (n : Word) (channels : BitVec 8) (s : State) : (frameStep n channels s).inBuf = s.inBuf := by
  rw [frameStep_eq]

/-- FETCH reads the first two channels of IN alone (40_host_commands.md R108). -/
theorem dryInput_congr {input input' : Mem} (h : ∀ (c : Nat) (j : Word), c < 2 → memRead input c j = memRead input' c j)
    (n : Word) (channels : BitVec 8) (c : Channel) : dryInput input n channels c = dryInput input' n channels c := by
  unfold dryInput
  rw [h c.index n (channel_index_lt_two c)]

theorem frameStep_setInput {input : Mem} {s : State}
    (h : ∀ (c : Nat) (j : Word), c < 2 → memRead input c j = memRead s.inBuf c j) (n : Word) (channels : BitVec 8) :
    frameStep n channels { s with inBuf := input } = { frameStep n channels s with inBuf := input } := by
  rw [frameStep_eq, frameStep_eq]
  simp only [dryInput_congr h]
  rfl

theorem frames_setInput (k : Nat) {input : Mem} {s : State}
    (h : ∀ (c : Nat) (j : Word), c < 2 → memRead input c j = memRead s.inBuf c j) (n : Word) (channels : BitVec 8) :
    frames k n channels { s with inBuf := input } = { frames k n channels s with inBuf := input } := by
  induction k generalizing n s with
  | zero => rfl
  | succ k ih =>
    rw [frames, frames, frameStep_setInput h, ih]
    rwa [frameStep_inBuf]

/-- A frame stores in the first two channels of OUT alone (40_host_commands.md R111). -/
theorem memRead_frameStep_outBuf {c : Nat} (hc : 2 ≤ c) (j n : Word) (channels : BitVec 8) (s : State) :
    memRead (frameStep n channels s).outBuf c j = memRead s.outBuf c j := by
  have store : ∀ (d : Channel) (o : Mem) (v : F32),
      memRead (if d.index < channels.toNat then memWrite o d.index n v else o) c j = memRead o c j := by
    intro d o v
    have hd := channel_index_lt_two d
    split
    · exact memRead_memWrite_other o d.index c j n v (.inl (by omega))
    · rfl
  rw [frameStep_eq]
  exact (store .right _ _).trans (store .left _ _)

/-- Any channel count of two or more asks for both channels. -/
theorem frameStep_of_two_le {channels : BitVec 8} (h : 2 ≤ channels.toNat) (n : Word) (s : State) :
    frameStep n channels s = frameStep n 2#8 s := by
  have asked : ∀ c : Channel, c.index < channels.toNat := fun c => (channel_index_lt_two c).trans_le h
  have asked2 : ∀ c : Channel, c.index < (2#8).toNat := channel_index_lt_two
  rw [frameStep_eq, frameStep_eq]
  simp only [dryInput, if_pos (asked _), if_pos (asked2 _)]

theorem frames_of_two_le {channels : BitVec 8} (h : 2 ≤ channels.toNat) (k : Nat) (n : Word) (s : State) :
    frames k n channels s = frames k n 2#8 s := by
  induction k generalizing n s with
  | zero => rfl
  | succ k ih => rw [frames, frames, frameStep_of_two_le h, ih]

/-- Settles O56: by induction over the frames, each of which touches the first two channels alone. -/
theorem extraChannelsAreUntouched : Obligations.ExtraChannelsAreUntouched := fun k n channels s =>
  ⟨frames_keeps (·.inBuf) channels (frameStep_inBuf · channels) k n s,
    fun _ h => frames_setInput k h n channels,
    fun c j hc => frames_keeps (memRead ·.outBuf c j) channels (memRead_frameStep_outBuf hc j · channels) k n s,
    fun h => frames_of_two_le h k n s⟩

end Sys2Proof.Memory

/-! PROOFS. The encoding of 30_encoding.md: the opcode map (O3, O4), a command at the head of a stream (O2), the round
trip of every instruction (O1), and what a step makes of what the decoder finds (O5 to O8). That a word selects one row
at most is proved first; which row each word selects, and what is left of the stream, is read from it. -/

namespace Sys2Proof.Decoding

open Sys2Proof.Machine

/-! ### The opcode map -/

/-- Settles O3: two rows that match one word agree on the bits that both masks keep, and no two rows of the map do. -/
theorem atMostOneRowMatches : Obligations.AtMostOneRowMatches := by
  intro w r r' hr hr' hw hw'
  have apart : ∀ r ∈ opcodeMap, ∀ r' ∈ opcodeMap, r.pattern &&& r'.mask = r'.pattern &&& r.mask → r = r' := by decide
  refine apart r hr r' hr' ?_
  rw [← hw, ← hw', BitVec.and_assoc, BitVec.and_assoc, BitVec.and_comm r.mask]

@[simp] theorem selects_iff (r : OpcodeRow) (w : Word) : r.selects w = true ↔ w &&& r.mask = r.pattern :=
  decide_eq_true_iff

/-- The row a word selects is a row of the map, and the word matches it (30_encoding.md R86). -/
theorem opcodeRow_sound {w : Word} {r : OpcodeRow} (h : opcodeRow w = some r) :
    r ∈ opcodeMap ∧ w &&& r.mask = r.pattern := by
  rw [opcodeRow] at h
  exact ⟨List.mem_of_find?_eq_some h, by simpa using List.find?_some h⟩

theorem opcodeRow_eq_none_iff (w : Word) : opcodeRow w = none ↔ ∀ r ∈ opcodeMap, w &&& r.mask ≠ r.pattern := by
  simp only [opcodeRow, List.find?_eq_none, selects_iff, ne_eq]

theorem opcodeRow_eq_some_iff (w : Word) (r : OpcodeRow) :
    opcodeRow w = some r ↔ r ∈ opcodeMap ∧ w &&& r.mask = r.pattern := by
  refine ⟨opcodeRow_sound, fun ⟨hr, hw⟩ => ?_⟩
  rcases h : opcodeRow w with _ | r'
  · exact absurd hw ((opcodeRow_eq_none_iff w).1 h r hr)
  · obtain ⟨hr', hw'⟩ := opcodeRow_sound h
    rw [atMostOneRowMatches w r' r hr' hr hw' hw]

/-! ### The fields of a command word (30_encoding.md R81) -/

theorem word_eq_fields (w : Word) : w = w.extractLsb' 24 8 ++ w.extractLsb' 8 16 ++ w.extractLsb' 0 8 := by
  have upper : w.extractLsb' 24 8 ++ w.extractLsb' 8 16 = w.extractLsb' 8 24 :=
    BitVec.extractLsb'_append_extractLsb'_eq_extractLsb' rfl
  have whole : w.extractLsb' 8 24 ++ w.extractLsb' 0 8 = w.extractLsb' 0 32 :=
    BitVec.extractLsb'_append_extractLsb'_eq_extractLsb' rfl
  rw [upper, whole, BitVec.extractLsb'_eq_self]

/-- A word is given by its `op`, its reserved bits and its `arg8`. -/
theorem word_eq_iff (w v : Word) :
    w = v ↔ w.extractLsb' 24 8 = v.extractLsb' 24 8 ∧ w.extractLsb' 8 16 = v.extractLsb' 8 16 ∧
      w.extractLsb' 0 8 = v.extractLsb' 0 8 := by
  constructor
  · rintro rfl
    exact ⟨rfl, rfl, rfl⟩
  · rintro ⟨hop, hres, harg⟩
    rw [word_eq_fields w, word_eq_fields v, hop, hres, harg]

/-- A word is ANDed field by field. -/
theorem and_eq_iff (w mask pattern : Word) :
    w &&& mask = pattern ↔
      w.extractLsb' 24 8 &&& mask.extractLsb' 24 8 = pattern.extractLsb' 24 8 ∧
      w.extractLsb' 8 16 &&& mask.extractLsb' 8 16 = pattern.extractLsb' 8 16 ∧
      w.extractLsb' 0 8 &&& mask.extractLsb' 0 8 = pattern.extractLsb' 0 8 := by
  simp only [word_eq_iff (w &&& mask), BitVec.extractLsb'_and]

/-- A field a mask keeps whole. -/
theorem and_ones {n : Nat} {m : BitVec n} (h : m = BitVec.allOnes n) (x : BitVec n) : x &&& m = x := by
  rw [h, BitVec.and_allOnes]

@[simp] theorem arg8_commandWord (op arg : BitVec 8) : arg8 (commandWord op arg) = arg :=
  BitVec.extractLsb'_append_eq_right

theorem opcodeRow_reset : opcodeRow (commandWord 0x01#8 0#8) = some ⟨.reset, 0x01000000#32, 0xFFFFFFFF#32, 3⟩ := by
  decide

theorem opcodeRow_setparams :
    opcodeRow (commandWord 0x02#8 0#8) = some ⟨.setparams, 0x02000000#32, 0xFFFFFFFF#32, 19⟩ := by
  decide

/-- The rows of the map, said of the fields: `op` names the row, the reserved bits are zero, and so is `arg8` except in
a PROCESS word. -/
theorem opcodeRow_eq_none_iff_fields (w : Word) :
    opcodeRow w = none ↔
      (w.extractLsb' 24 8 ≠ 1#8 ∧ w.extractLsb' 24 8 ≠ 2#8 ∧ w.extractLsb' 24 8 ≠ 3#8) ∨
      w.extractLsb' 8 16 ≠ 0#16 ∨
      (w.extractLsb' 24 8 ≠ 3#8 ∧ w.extractLsb' 0 8 ≠ 0#8) := by
  have reset : w &&& 0xFFFFFFFF#32 = 0x01000000#32 ↔
      w.extractLsb' 24 8 = 1#8 ∧ w.extractLsb' 8 16 = 0#16 ∧ w.extractLsb' 0 8 = 0#8 := by
    simp [and_eq_iff, and_ones (m := 255#8) rfl, and_ones (m := 65535#16) rfl]
  have setparams : w &&& 0xFFFFFFFF#32 = 0x02000000#32 ↔
      w.extractLsb' 24 8 = 2#8 ∧ w.extractLsb' 8 16 = 0#16 ∧ w.extractLsb' 0 8 = 0#8 := by
    simp [and_eq_iff, and_ones (m := 255#8) rfl, and_ones (m := 65535#16) rfl]
  have process : w &&& 0xFFFFFF00#32 = 0x03000000#32 ↔ w.extractLsb' 24 8 = 3#8 ∧ w.extractLsb' 8 16 = 0#16 := by
    simp [and_eq_iff, and_ones (m := 255#8) rfl, and_ones (m := 65535#16) rfl]
  simp only [opcodeRow_eq_none_iff, opcodeMap, List.forall_mem_cons, ne_eq, reset, setparams, process]
  by_cases hres : w.extractLsb' 8 16 = 0#16 <;> by_cases harg : w.extractLsb' 0 8 = 0#8 <;> simp [hres, harg]

/-! ### The head of a stream -/

@[simp] theorem decodeCommand_nil : decodeCommand [] = .waiting := rfl

theorem decodeCommand_of_row {w : Word} {r : OpcodeRow} (h : opcodeRow w = some r) (ws : List Word) :
    decodeCommand (w :: ws) = decodeOperands r.kind w ws := by
  simp only [decodeCommand, h]

theorem decodeCommand_of_no_row {w : Word} (h : opcodeRow w = none) (ws : List Word) :
    decodeCommand (w :: ws) = .illegal w ws := by
  simp only [decodeCommand, h]

/-- Operand words are never illegal to the decoder: it reads them or waits for them. -/
theorem decodeOperands_ne_illegal (k : CommandKind) (w v : Word) (ws rest : List Word) :
    decodeOperands k w ws ≠ .illegal v rest := by
  cases k <;> simp only [decodeOperands] <;> split <;> simp

theorem decodeCommand_eq_illegal_iff (w : Word) (ws : List Word) :
    decodeCommand (w :: ws) = .illegal w ws ↔ opcodeRow w = none := by
  rcases h : opcodeRow w with _ | r
  · simp [decodeCommand_of_no_row h]
  · simp [decodeCommand_of_row h, decodeOperands_ne_illegal]

/-- Settles O4: illegal is a word without a row. -/
theorem illegalWordExactlyOutsideTheMap : Obligations.IllegalWordExactlyOutsideTheMap := fun w ws =>
  (decodeCommand_eq_illegal_iff w ws).trans (opcodeRow_eq_none_iff_fields w)

theorem takeParams_toWords_append (v : ParamWords) (rest : List Word) :
    takeParams (v.toWords ++ rest) = some (v, rest) := rfl

theorem takeParams_eq_none {ws : List Word} (h : ws.length < 18) : takeParams ws = none := by
  unfold takeParams
  split
  · simp only [List.length_cons] at h
    omega
  · rfl

/-- A stream shorter than its command word calls for is waited on (30_encoding.md R88). -/
theorem decodeCommand_of_short {w : Word} {r : OpcodeRow} {ws : List Word} (h : opcodeRow w = some r)
    (hlen : (w :: ws).length < r.words) : decodeCommand (w :: ws) = .waiting := by
  rw [decodeCommand_of_row h]
  obtain ⟨hr, -⟩ := (opcodeRow_eq_some_iff w r).1 h
  simp only [opcodeMap, List.mem_cons, List.not_mem_nil, or_false] at hr
  rw [List.length_cons] at hlen
  rcases hr with rfl | rfl | rfl
  · match ws with
    | [] | [_] => rfl
    | _ :: _ :: _ => simp only [List.length_cons] at hlen; omega
  · have tooFew : takeParams ws = none := takeParams_eq_none (Nat.lt_of_succ_lt_succ hlen)
    simp only [decodeOperands, tooFew]
  · match ws with
    | [] => rfl
    | _ :: _ => simp at hlen

/-! ### The round trip -/

theorem decodeCommand_encode_append {i : Instr} {ws : List Word} (h : encode i = .command ws) (rest : List Word) :
    decodeCommand (ws ++ rest) = .command i rest := by
  cases i with
  | reset fs block =>
    cases h
    exact decodeCommand_of_row opcodeRow_reset (fs :: block :: rest)
  | setparams v =>
    cases h
    rw [List.cons_append, decodeCommand_of_row opcodeRow_setparams, decodeOperands, takeParams_toWords_append]
  | process channels frames =>
    cases h
    rw [List.cons_append, decodeCommand_of_row (Laws.opcodeRow_process channels), List.singleton_append, decodeOperands,
      arg8_commandWord]
  | _ => cases h

@[simp] theorem stageCode_stageId (c : Channel) (code : BitVec 4) : stageCode (stageId c code) = code.toNat := by
  revert code
  cases c <;> decide

@[simp] theorem stageChannel_stageId (c : Channel) (code : BitVec 4) : stageChannel (stageId c code) = c := by
  revert code
  cases c <;> decide

@[simp] theorem oncePerFrame_stageId_left (code : BitVec 4) (i : Instr) :
    oncePerFrame (stageId .left code) i = some i := by
  have hbit : (stageId .left code).getLsbD 4 = false := by
    revert code
    decide
  rw [oncePerFrame, hbit]
  rfl

theorem decodeStage_encode {i : Instr} {id : BitVec 5} (h : encode i = .stage id) : decodeStage id = some i := by
  cases i with
  | reset | setparams | process => cases h
  | _ => cases h; simp [decodeStage]

/-- Settles O2: an instruction with words on the port is one that is encoded as a command. -/
theorem commandDecodesAtHeadOfStream : Obligations.CommandDecodesAtHeadOfStream := by
  intro i rest hne
  cases h : encode i with
  | command ws =>
    rw [portWords, h]
    exact decodeCommand_encode_append h rest
  | stage id => exact absurd (by rw [portWords, h]) hne

/-- Settles O1: a command is decoded whole with nothing after it, a stage by the fields of its identifier. -/
theorem decodeEncodeRoundTrip : Obligations.DecodeEncodeRoundTrip := by
  intro i
  cases h : encode i with
  | command ws =>
    have whole : decodeCommand ws = .command i [] := by simpa using decodeCommand_encode_append h []
    rw [decode, whole]
  | stage id => exact decodeStage_encode h

/-- Settles O7: the words and identifiers are the encodings of what they stand for, but for the last, which is the
right channel's identifier of a stage that runs once per frame. -/
theorem specWordsDecode : Obligations.SpecWordsDecode :=
  ⟨decodeCommand_encode_append (i := .reset 0x473B8000#32 0x200#32) rfl [],
    decodeCommand_encode_append (i := .process 2#8 4#32) rfl [],
    decodeCommand_encode_append (i := .process 255#8 0#32) rfl [],
    decodeStage_encode (i := .flt .right) rfl, decodeStage_encode (i := .drop) rfl, by decide⟩

/-! ### The step -/

theorem atBoundary_iff (s : State) : s.atBoundary = true ↔ s.frame.stage = none ∧ s.resetPin = false := by
  simp [State.atBoundary]

theorem step_of_atBoundary {s : State} (h : s.atBoundary = true) : step s = stepCommand s := by
  obtain ⟨hstage, hpin⟩ := (atBoundary_iff s).1 h
  simp [step, stepOnce, hstage, hpin]

theorem step_of_stage {s : State} {id : BitVec 5} (hpin : s.resetPin = false) (hstage : s.frame.stage = some id) :
    step s = stepStage id s := by
  simp [step, stepOnce, hstage, hpin]

theorem step_of_waiting {s : State} (hs : s.atBoundary = true) (h : decodeCommand s.port = .waiting) :
    step s = .next s := by
  rw [step_of_atBoundary hs, stepCommand, h]

/-- Settles O5: a word without a row is illegal, and the step raises the fault. -/
theorem illegalWordRaisesIllegalCmd : Obligations.IllegalWordRaisesIllegalCmd := by
  intro s w ws hs hport hrow
  have hd : decodeCommand s.port = .illegal w ws := by rw [hport, decodeCommand_of_no_row hrow]
  refine ⟨.illegalCmd ⟨s.cmdIndex, s.consume ws⟩, ?_, rfl, rfl⟩
  rw [step_of_atBoundary hs, stepCommand, hd]
  rfl

theorem stuck_of_waiting {s : State} (hs : s.atBoundary = true) (hport : s.port ≠ [])
    (h : decodeCommand s.port = .waiting) : s.stuck = true := by
  simp [State.stuck, hs, hport, h]

/-- Settles O6: at the end of the stream, and where it is shorter than its command word's row says, the decoder waits. -/
theorem streamEndsWait : Obligations.StreamEndsWait := by
  refine ⟨fun s hs hport => ?_, fun s w ws hs hport hshort => ?_⟩
  · have ended : s.ended = true := by simp [State.ended, hs, hport]
    exact ⟨step_of_waiting hs (by rw [hport, decodeCommand_nil]), fun k => by simp [runStream_ended k s ended, Run.result]⟩
  · have row : ∃ r, opcodeRow w = some r ∧ (w :: ws).length < r.words := by
      rcases hshort with ⟨rfl, hlen⟩ | ⟨rfl, hlen⟩ | ⟨hw, hlen⟩
      · exact ⟨_, opcodeRow_reset, hlen⟩
      · exact ⟨_, opcodeRow_setparams, hlen⟩
      · exact ⟨⟨.process, 0x03000000#32, 0xFFFFFF00#32, 2⟩, (opcodeRow_eq_some_iff w _).2 ⟨by decide, hw⟩, hlen⟩
    obtain ⟨r, hr, hlen⟩ := row
    have waits : decodeCommand s.port = .waiting := by rw [hport, decodeCommand_of_short hr hlen]
    have stuck : s.stuck = true := stuck_of_waiting hs (by simp [hport]) waits
    exact ⟨step_of_waiting hs waits, fun k => by simp [runStream_stuck k s stuck, Run.result]⟩

/-- Settles O8: at a boundary a step is a command's, in a frame it is a stage's, and each follows the decoder. -/
theorem stepRunsTheNextInstruction : Obligations.StepRunsTheNextInstruction := by
  refine ⟨fun s i rest hs hd => ?_, fun s id i hpin hstage hd => ?_⟩
  · rw [step_of_atBoundary hs, stepCommand, hd]
    rfl
  · rw [step_of_stage hpin hstage, stepStage, hd]
    rfl

end Sys2Proof.Decoding

/-! PROOFS. The host commands of 40_host_commands.md one at a time: RESET (O10, O11), SETPARAMS (O12), PROCESS up to its
first frame (O13, O14) with the ranges of its latch (O19), and the stages FETCH and OUTWR (O20, O21). -/

namespace Sys2Proof.Commands

open Sys2Proof.Machine Sys2Proof.Latch

/-! ### RESET (O10, O11) -/

theorem gt_zero_iff (x : F32) :
    x.gt F32.zero = true ↔ x.isNaN = false ∧ x.sign = false ∧ x.isZero = false := by
  have hzero : F32.zero.isNaN = false ∧ F32.zero.key = 0 := by decide
  rw [F32.gt_iff, hzero.2, ← Bool.not_eq_true (F32.isZero x), F32.isZero_iff, F32.key]
  cases x.sign
  · simp [hzero.1, Nat.pos_iff_ne_zero]
  · simp [hzero.1]

/-- The rates RESET accepts (40_host_commands.md R101, R102). -/
theorem badSampleRate_eq_false_iff (fs : F32) :
    badSampleRate fs = false ↔ fs.isFinite = true ∧ fs.sign = false ∧ fs.isZero = false := by
  constructor
  · intro h
    obtain ⟨hfin, hpos⟩ := Registers.finite_pos_of_not_badSampleRate fs h
    exact ⟨hfin, ((gt_zero_iff fs).1 hpos).2⟩
  · rintro ⟨hfin, hsign, hzero⟩
    have hpos : fs.gt F32.zero = true := (gt_zero_iff fs).2 ⟨fs.isNaN_of_isFinite hfin, hsign, hzero⟩
    have hinf : fs.eq F32.inf = false := by
      rw [← Bool.not_eq_true, F32.eq_iff]
      rintro ⟨-, -, hk⟩
      have hmag := (F32.isFinite_iff fs).1 hfin
      have hkey : fs.key = fs.mag := if_neg (by simp [hsign])
      have hi : F32.inf.key = F32.infMag := by decide
      omega
    simp [badSampleRate, hpos, hinf]

theorem exec_reset_of_good {fs : Word} (h : badSampleRate ⟨fs⟩ = false) (block : Word) (s : State) :
    exec (.reset fs block) s = .next (s.reinitialise ⟨fs⟩ block) := by
  simp [exec, execReset, operandF, operandU, h]

theorem exec_reset_of_bad {fs : Word} (h : badSampleRate ⟨fs⟩ = true) (block : Word) (s : State) :
    exec (.reset fs block) s = .fault (.badFs ⟨s.cmdIndex, s.clearReady⟩) := by
  simp [exec, execReset, operandF, raise, h]

theorem dlyRead_cleared (a : BitVec 12) : dlyRead ChannelState.cleared a = F32.zero :=
  congrArg F32.mk (Mem.readWord_nil a.toNat)

theorem reinitialise_channel (s : State) (fs : F32) (block : Word) (c : Channel) :
    (s.reinitialise fs block).channel c = ChannelState.cleared := by cases c <;> rfl

/-- Settles O10: a finite, strictly positive rate is accepted, and what RESET writes is read off. -/
theorem resetReinitialisesTheEngine : Obligations.ResetReinitialisesTheEngine := by
  intro fs block s hfin hsign hzero
  have next := exec_reset_of_good ((badSampleRate_eq_false_iff ⟨fs⟩).2 ⟨hfin, hsign, hzero⟩) block s
  rw [literal_one]
  refine ⟨next, fun c a => ⟨dlyRead_cleared a, fun t ht => ?_⟩⟩
  obtain rfl : s.reinitialise ⟨fs⟩ block = t := Host.Outcome.next.inj (next.symm.trans ht)
  rw [reinitialise_channel, dlyRead_cleared]

/-- Settles O11: none of the four classes of rate is accepted. -/
theorem badSampleRateFaults : Obligations.BadSampleRateFaults := by
  intro fs block s h
  have bad : badSampleRate ⟨fs⟩ = true := by
    by_contra hgood
    obtain ⟨hfin, hsign, hzero⟩ := (badSampleRate_eq_false_iff ⟨fs⟩).1 (Bool.eq_false_iff.2 hgood)
    simp [hsign, hzero, F32.isNaN_of_isFinite _ hfin, F32.isInf_eq_false_of_isFinite _ hfin] at h
  exact ⟨_, exec_reset_of_bad bad block s, rfl, rfl⟩

/-! ### SETPARAMS (O12) -/

/-- A boolean operand word is 0 or 1 (30_encoding.md R85). -/
theorem operandB_of_lt {w : Word} (h : w.toNat < 2) : operandB w = some (decide (w = 1)) := by
  obtain rfl | rfl : w = 0#32 ∨ w = 1#32 := by
    obtain h0 | h1 : w.toNat = 0 ∨ w.toNat = 1 := by omega
    · exact .inl (BitVec.eq_of_toNat_eq h0)
    · exact .inr (BitVec.eq_of_toNat_eq h1)
  all_goals decide

/-- Any other word is reserved (30_encoding.md R87). -/
theorem operandB_of_le {w : Word} (h : 2 ≤ w.toNat) : operandB w = none := by
  rw [operandB, boolWordOk, decide_eq_false (by omega)]
  rfl

theorem operandParams_eq_none {v : ParamWords} (h : 2 ≤ v.mainsSel.toNat ∨ 2 ≤ v.tstop.toNat) :
    operandParams v = none := by
  obtain hm | ht := h
  · simp [operandParams, operandB_of_le hm]
  · simp [operandParams, operandB_of_le ht]

/-- Settles O12: the two boolean words decide between staging all eighteen values and none. -/
theorem setparamsStagesAllOrNone : Obligations.SetparamsStagesAllOrNone := by
  refine fun v s => ⟨fun ⟨hm, ht⟩ => ?_, fun h => ⟨.reservedOperand ⟨s.cmdIndex, s⟩, ?_, rfl, rfl⟩⟩
  · rw [exec, execSetparams, operandParams, operandB_of_lt hm, operandB_of_lt ht]
    rfl
  · rw [exec, execSetparams, operandParams_eq_none h]
    rfl

/-! ### PROCESS up to its first frame (O13, O14) -/

theorem exec_process_not_ready {s : State} (hr : s.ready = false) (channels : BitVec 8) (frameCount : Word) :
    exec (.process channels frameCount) s = .fault (.notReady ⟨s.cmdIndex, s⟩) := by
  simp [exec, execProcess, raise, hr]

theorem exec_process_no_params {s : State} (hr : s.ready = true) (hp : s.pvalid = false) (channels : BitVec 8)
    (frameCount : Word) : exec (.process channels frameCount) s = .fault (.noParams ⟨s.cmdIndex, s⟩) := by
  simp [exec, execProcess, raise, hr, hp]

/-- Settles O13: READY is read before PVALID, and either fault leaves the state. -/
theorem processChecksReadyThenParams : Obligations.ProcessChecksReadyThenParams := fun channels frameCount _ =>
  ⟨fun hr => ⟨_, exec_process_not_ready hr channels frameCount, rfl, rfl⟩,
    fun hr hp => ⟨_, exec_process_no_params hr hp channels frameCount, rfl, rfl⟩⟩

theorem start_eq_ite (channels : BitVec 8) (frameCount : Word) :
    FrameCtx.start channels frameCount =
      if frameCount = 0 then FrameCtx.idle else ⟨some 0#5, 0, frameCount, channels, Wires.idle⟩ := by
  obtain ⟨h0, he⟩ | ⟨hpos, he⟩ := start_cases channels frameCount
  · rw [he, if_pos h0]
  · rw [he, if_neg (by rintro rfl; exact absurd hpos (by decide))]

/-- Settles O14: the latch's first part, its ranges read as the decimals of R106, after the host's IN is taken. -/
theorem processLatchesTheParameters : Obligations.ProcessLatchesTheParameters := by
  intro channels frameCount s hr hp
  refine ⟨_, exec_process_eq channels frameCount s hr hp, ?_⟩
  rw [takeFeed_spec, latch_spec]
  refine ⟨?_, start_eq_ite channels frameCount, rfl, rfl, rfl⟩
  simp only [State.setFrame_active, latchParams, Range.clamp, literal_rate_range, literal_unit_range,
    literal_dropRate_range, literal_dropDur_range, literal_level_range, literal_shelfDb_range, literal_tiltDb_range,
    literal_outDb_range, literal_fLo, literal_nyqK, nyquistBound]

/-! ### The ranges of the latch (O19) -/

/-- A value clamped into a range lies in it, whatever it was (00_scope.md R13). -/
theorem range_clamp_bounds {r : Range} {lo hi : F32} (hr : r = ⟨lo, hi⟩) (h : r.lo.le r.hi = true) (x : F32) :
    lo.le (Range.clamp r x) = true ∧ (Range.clamp r x).le hi = true := by
  subst hr
  exact F32.clamp_bounds x lo hi ((F32.le_iff _ _).1 h).1 h

/-- Where the bounds are crossed the upper one wins (00_scope.md R13). -/
theorem clamp_of_crossed {lo hi : F32} (h : hi.lt lo = true) (x : F32) : F32.clamp x lo hi = hi := by
  obtain ⟨hhi, hlo, hk⟩ := (F32.lt_iff _ _).1 h
  have above : ∀ y : F32, y.ge lo = true → y.gt hi = true := fun y hy => by
    obtain ⟨hy, -, hk'⟩ := (F32.ge_iff _ _).1 hy
    exact (F32.gt_iff _ _).2 ⟨hy, hhi, by omega⟩
  rw [F32.clamp]
  by_cases hx : x.ge lo = true
  · simp [hx, above x hx]
  · simp [hx, above lo (F32.le_refl hlo)]

/-- A clamped value is at most the upper bound, crossed bounds or not. -/
theorem clamp_le_upper {lo hi : F32} (hlo : lo.isNaN = false) (hhi : hi.isNaN = false) (x : F32) :
    (F32.clamp x lo hi).le hi = true := by
  by_cases h : hi.lt lo = true
  · rw [clamp_of_crossed h]
    exact F32.le_refl hhi
  · refine (F32.clamp_bounds x lo hi hlo ((F32.le_iff _ _).2 ⟨hlo, hhi, ?_⟩)).2
    by_contra hk
    exact h ((F32.lt_iff _ _).2 ⟨hhi, hlo, by omega⟩)

/-- Settles O19: fifteen values are clamped into constant ranges, whose bounds are in order, and the cutoff between 1000
and 0.45 × FS, which need not be. -/
theorem latchedParametersInRange : Obligations.LatchedParametersInRange := by
  intro fs p hfin _
  have rate := range_clamp_bounds literal_rate_range (by decide)
  have unit := range_clamp_bounds literal_unit_range (by decide)
  have level := range_clamp_bounds literal_level_range (by decide)
  have nyquist : (Config.cfg.nyqK.mul fs).isNaN = false := F32.mul_notNaN _ _ (by decide) hfin
  dsimp only
  refine ⟨rate _, unit _, rate _, unit _, range_clamp_bounds literal_dropRate_range (by decide) _, unit _,
    range_clamp_bounds literal_dropDur_range (by decide) _, unit _, level _, level _,
    range_clamp_bounds literal_shelfDb_range (by decide) _, range_clamp_bounds literal_tiltDb_range (by decide) _,
    unit _, unit _, range_clamp_bounds literal_outDb_range (by decide) _, ?_⟩
  rw [literal_fLo, literal_nyqK]
  exact ⟨clamp_le_upper (by decide) nyquist _, fun h => (F32.clamp_bounds _ _ _ (by decide) h).1,
    fun h => clamp_of_crossed h _⟩

/-! ### FETCH and OUTWR (O20, O21) -/

/-- Settles O20: a channel is supplied where its index is below channelCount. -/
theorem fetchReadsTheDrySamples : Obligations.FetchReadsTheDrySamples := fun _ => rfl

/-- A store in a buffer leaves the bytes outside its word. -/
theorem readByte_memWrite_other {c a : Nat} {k : Word} (h : a < 4 * bufferIndex c k ∨ 4 * bufferIndex c k + 4 ≤ a)
    (m : Mem) (v : F32) : (memWrite m c k v).readByte a = m.readByte a :=
  Mem.readByte_writeWord_other m _ a _ h

/-- Settles O21: OUTWR changes OUT alone, and there one word or none. -/
theorem outwrStoresOneSample : Obligations.OutwrStoresOneSample := by
  intro c s hwf
  refine ⟨_, rfl, ?_⟩
  rw [outWrite_spec]
  refine ⟨rfl, fun hc => ?_, fun hc a => ?_⟩
  · rw [if_pos hc]
    exact ⟨memRead_memWrite_same _ _ _ _ hwf, fun a ha => readByte_memWrite_other ha _ _⟩
  · rw [if_neg (by omega)]

end Sys2Proof.Commands

/-! PROOFS. A PROCESS as a whole (40_host_commands.md R105, R109, R110, R112, R113): the machine's steps run the frame
loop of the rules (O17), a block split in two (O18), and the draws of a block (O36). -/

namespace Sys2Proof.Block

open Sys2Proof.Machine Sys2Proof.Latch Sys2Proof.Memory Sys2Proof.Decoding

/-! ### The steps of a frame (O17) -/

/-- A run that begins with a step to `t` answers what the run from `t` answers. -/
theorem run_of_step {k : Nat} {s t : State} {r : Result} (h : step s = .next t) (hr : run k t = r) :
    run (k + 1) s = r := (run_next k s t h).trans hr

/-- The stage after a channel's DLYWR: the other channel's DLYRD, or DROP (40_host_commands.md R110). -/
def stageAfterChannel : Channel → BitVec 5
  | .left => stageId .right 4#4
  | .right => 0x0C#5

/-- The wires of a frame, the dry samples given by channel. -/
def frameWires (dry : Channel → F32) (m hum genv x nz o : F32) : Wires :=
  ⟨dry .left, dry .right, m, hum, genv, x, nz, o⟩

@[simp] theorem frameWires_dry (dry : Channel → F32) (m hum genv x nz o : F32) (c : Channel) :
    (frameWires dry m hum genv x nz o).dry c = dry c := by cases c <;> rfl

section
variable (s : State) (n frameCount : Word) (channels : BitVec 8) (hr : s.resetPin = false)
include hr

theorem step_dlywr (w : Wires) (c : Channel) :
    step (s.setFrame (.atStage (stageId c 11#4) n frameCount channels w)) =
      .next ((delayWrite s c (w.dry c)).setFrame (.atStage (stageAfterChannel c) n frameCount channels w)) := by
  cases c
  · exact step_dlywr_left s n frameCount channels w hr
  · exact step_dlywr_right s n frameCount channels w hr

/-- The eight stages of a channel run its part of the frame. The wires they drive are left open: what follows drives
those again before it reads them. -/
theorem run_channelFrame (dry : Channel → F32) (m hum genv x nz o : F32) (c : Channel) :
    ∃ x' nz' o',
      run 8 (s.setFrame (.atStage (stageId c 4#4) n frameCount channels (frameWires dry m hum genv x nz o))) =
        .next ((channelFrame n channels (dry c) m hum genv c s).setFrame
          (.atStage (stageAfterChannel c) n frameCount channels (frameWires dry m hum genv x' nz' o'))) := by
  let tap := delayTap s c m
  let r1 := filter s c tap
  let r2 := saturate r1.2 c r1.1
  let scaled := scaleEnvelope r2.1 genv
  let r3 := noise r2.2
  let out := mixOut r3.2 (dry c) scaled r3.1 hum
  have hr1 : r1.2.resetPin = false := (filter_resetPin ..).trans hr
  have hr2 : r2.2.resetPin = false := (saturate_resetPin ..).trans hr1
  have hr3 : r3.2.resetPin = false := (noise_resetPin ..).trans hr2
  have mixed := step_mix r3.2 n frameCount channels (frameWires dry m hum genv scaled r3.1 o) hr3 c
  have pushed := step_dlywr (outWrite r3.2 c n out channels) n frameCount channels ((outWrite_resetPin ..).trans hr3)
    (frameWires dry m hum genv scaled r3.1 out) c
  rw [frameWires_dry] at mixed pushed
  exact ⟨scaled, r3.1, out,
    run_of_step (step_dlyrd s n frameCount channels (frameWires dry m hum genv x nz o) hr c) <|
    run_of_step (step_flt s n frameCount channels (frameWires dry m hum genv tap nz o) hr c) <|
    run_of_step (step_sat r1.2 n frameCount channels (frameWires dry m hum genv r1.1 nz o) hr1 c) <|
    run_of_step (step_envsc r2.2 n frameCount channels (frameWires dry m hum genv r2.1 nz o) hr2 c) <|
    run_of_step (step_noise r2.2 n frameCount channels (frameWires dry m hum genv scaled nz o) hr2 c) <|
    run_of_step mixed <|
    run_of_step (step_outwr r3.2 n frameCount channels (frameWires dry m hum genv scaled r3.1 out) hr3 c) <|
    run_of_step pushed rfl⟩

/-- The four stages before the channels: the dry samples, the modulation, the hum and the envelope gain. -/
theorem run_frameHead (w : Wires) :
    run 4 (s.setFrame (.atStage 0x00#5 n frameCount channels w)) =
      .next ((modulate s).2.setFrame (.atStage (stageId .left 4#4) n frameCount channels
        (frameWires (dryInput s.inBuf n channels) (modulate s).1 (humNow (modulate s).2) (envelope (modulate s).2)
          w.x w.nz w.o))) :=
  let dry := dryInput s.inBuf n channels
  run_of_step (step_fetch s n frameCount channels w hr) <|
  run_of_step (step_mod s n frameCount channels (frameWires dry w.m w.hum w.genv w.x w.nz w.o) hr) <|
  run_of_step (step_hum (modulate s).2 n frameCount channels
    (frameWires dry (modulate s).1 w.hum w.genv w.x w.nz w.o) hr) <|
  run_of_step (step_genv (modulate s).2 n frameCount channels
    (frameWires dry (modulate s).1 (humNow (modulate s).2) w.genv w.x w.nz w.o) hr) rfl

end

/-- The frame context before frame `n` of a block: at FETCH, or idle where the block has no such frame. -/
def blockContext (n frameCount : Word) (channels : BitVec 8) (w : Wires) : FrameCtx :=
  if n < frameCount then .atStage 0x00#5 n frameCount channels w else FrameCtx.idle

theorem blockContext_of_lt {n frameCount : Word} (h : n < frameCount) (channels : BitVec 8) (w : Wires) :
    blockContext n frameCount channels w = .atStage 0x00#5 n frameCount channels w := if_pos h

theorem blockContext_end (frameCount : Word) (channels : BitVec 8) (w : Wires) :
    blockContext frameCount frameCount channels w = FrameCtx.idle := if_neg (BitVec.lt_irrefl _)

theorem start_eq_blockContext (channels : BitVec 8) (frameCount : Word) :
    FrameCtx.start channels frameCount = blockContext 0 frameCount channels Wires.idle := rfl

section
variable (s : State) (n frameCount : Word) (channels : BitVec 8) (hr : s.resetPin = false)
include hr

/-- The two channels and DROP, and the sequence moves on to the next frame. -/
theorem run_frameTail (dry : Channel → F32) (m hum genv x nz o : F32) :
    ∃ w', run 17 (s.setFrame
        (.atStage (stageId .left 4#4) n frameCount channels (frameWires dry m hum genv x nz o))) =
      .next ((dropStep (channelFrame n channels (dry .right) m hum genv .right
        (channelFrame n channels (dry .left) m hum genv .left s))).setFrame
          (blockContext (n + 1) frameCount channels w')) := by
  obtain ⟨x0, nz0, o0, left⟩ := run_channelFrame s n frameCount channels hr dry m hum genv x nz o .left
  have hl := (channelFrame_resetPin n channels (dry .left) m hum genv .left s).trans hr
  obtain ⟨x1, nz1, o1, right⟩ := run_channelFrame _ n frameCount channels hl dry m hum genv x0 nz0 o0 .right
  have hlr := (channelFrame_resetPin n channels (dry .right) m hum genv .right _).trans hl
  have last := step_drop _ n frameCount channels (frameWires dry m hum genv x1 nz1 o1) hlr
  exact ⟨_, (run_add 8 9 _ _ left).trans ((run_add 8 1 _ _ right).trans (run_of_step last rfl))⟩

/-- Twenty-one steps from FETCH run a frame and move on to the next. -/
theorem run_frameStep (w : Wires) :
    ∃ w', run 21 (s.setFrame (.atStage 0x00#5 n frameCount channels w)) =
      .next ((frameStep n channels s).setFrame (blockContext (n + 1) frameCount channels w')) := by
  obtain ⟨w', tail⟩ := run_frameTail (modulate s).2 n frameCount channels hr (dryInput s.inBuf n channels)
    (modulate s).1 (humNow (modulate s).2) (envelope (modulate s).2) w.x w.nz w.o
  exact ⟨w', (run_add 4 17 _ _ (run_frameHead s n frameCount channels hr w)).trans tail⟩

end

/-- The steps from the start of frame `n` run the frames that are left and complete the command. -/
theorem run_frames (k : Nat) (s : State) (n frameCount : Word) (channels : BitVec 8) (w : Wires)
    (hr : s.resetPin = false) (hk : n.toNat + k = frameCount.toNat) :
    run (21 * k) (s.setFrame (blockContext n frameCount channels w)) =
      .next ((frames k n channels s).setFrame FrameCtx.idle) := by
  induction k generalizing s n w with
  | zero =>
    obtain rfl : n = frameCount := BitVec.eq_of_toNat_eq hk
    rw [blockContext_end]
    rfl
  | succ k ih =>
    have hlt : n < frameCount := BitVec.lt_def.2 (by omega)
    have hn : (n + 1).toNat + k = frameCount.toNat := by
      have := frameCount.isLt
      have h1 : (1 : Word).toNat = 1 := rfl
      rw [BitVec.toNat_add_of_lt (by omega)]
      omega
    obtain ⟨w', frame⟩ := run_frameStep s n frameCount channels hr w
    rw [blockContext_of_lt hlt, Nat.mul_succ, Nat.add_comm, run_add _ _ _ _ frame]
    exact ih _ (n + 1) w' ((frames_frame 1 n channels s).resetPin.trans hr) hn

/-! ### The command as a whole (O17) -/

/-- The frames do not depend on the command count. -/
theorem frames_afterCommand (k : Nat) (n : Word) (channels : BitVec 8) (s : State) :
    frames k n channels (afterCommand s) = afterCommand (frames k n channels s) := by
  have frame : ∀ n s, frameStep n channels (afterCommand s) = afterCommand (frameStep n channels s) := by
    intro n s
    rw [frameStep_eq, frameStep_eq]
    rfl
  induction k generalizing n s with
  | zero => rfl
  | succ k ih => rw [frames, frames, frame, ih]

theorem latch_takeFeed_keeps (s : State) :
    (latch s.takeFeed).resetPin = s.resetPin ∧ (latch s.takeFeed).cmdIndex = s.cmdIndex := by
  rw [takeFeed_spec, latch_spec]
  exact ⟨rfl, rfl⟩

/-- The step that takes up a PROCESS at a boundary latches and begins the block. -/
theorem step_process {s : State} {channels : BitVec 8} {frameCount : Word} {rest : List Word}
    (hs : s.atBoundary = true) (hr : s.ready = true) (hp : s.pvalid = true)
    (hd : decodeCommand s.port = .command (.process channels frameCount) rest) :
    step s = .next ((afterCommand (latch (s.consume rest).takeFeed)).setFrame
      (blockContext 0 frameCount channels Wires.idle)) := by
  rw [step_of_atBoundary hs, stepCommand, hd]
  dsimp only
  rw [exec_process_eq channels frameCount (s.consume rest) hr hp, start_eq_blockContext]
  rfl

/-- Settles O17: the step that takes up the command, and then twenty-one steps for each frame. -/
theorem processRunsEveryFrame : Obligations.ProcessRunsEveryFrame := by
  intro s channels frameCount rest hs hr hp hd
  obtain ⟨hpin, hindex⟩ := latch_takeFeed_keeps (s.consume rest)
  have block := run_frames frameCount.toNat (afterCommand (latch (s.consume rest).takeFeed)) 0 frameCount channels
    Wires.idle (hpin.trans ((atBoundary_iff s).1 hs).2) (by simp)
  have count := (frames_frame frameCount.toNat 0 channels (latch (s.consume rest).takeFeed)).cmdIndex.trans hindex
  rw [Nat.add_comm, run_next _ _ _ (step_process hs hr hp hd), block, frames_afterCommand, afterCommand, count]
  rfl

/-! ### The draws of a block (O36) -/

theorem toInt_of_isZero {x : F32} (h : x.isZero = true) : x.toInt = 0 := by
  simp [F32.toInt, F32.units, (F32.isZero_iff x).1 h, F32.unitsOf_zero]

theorem key_of_isZero {x : F32} (h : x.isZero = true) : x.key = 0 := by
  simp [F32.key, (F32.isZero_iff x).1 h]

theorem isFinite_of_isZero {x : F32} (h : x.isZero = true) : x.isFinite = true := by
  rw [F32.isFinite_iff, (F32.isZero_iff x).1 h]
  decide

/-- A value at or above zero that is negative is a zero: `-0.0` (00_scope.md R10). -/
theorem isZero_of_sign_of_ge {x : F32} (hs : x.sign = true) (h : x.ge F32.zero = true) : x.isZero = true := by
  obtain ⟨-, -, hk⟩ := (F32.ge_iff _ _).1 h
  have hz : F32.zero.key = 0 := by decide
  have hx : x.key = -(x.mag : Int) := if_pos hs
  exact (F32.isZero_iff x).2 (by omega)

/-- A NaN, a zero or a negative value is clamped to a zero where zero is the lower bound (00_scope.md R13). -/
theorem clamp_isZero {x hi : F32} (hh : F32.zero.le hi = true)
    (hx : x.isNaN = true ∨ x.isZero = true ∨ x.sign = true) : (F32.clamp x F32.zero hi).isZero = true := by
  by_cases hge : x.ge F32.zero = true
  · obtain ⟨hn, -, -⟩ := (F32.ge_iff _ _).1 hge
    have hz : x.isZero = true := by
      obtain h | h | h := hx
      · rw [hn] at h
        cases h
      · exact h
      · exact isZero_of_sign_of_ge h hge
    have hle : x.le F32.zero = true := (F32.le_iff _ _).2 ⟨hn, by decide, (key_of_isZero hz).le⟩
    rwa [F32.clamp_within x F32.zero hi hge (F32.le_trans hle hh)]
  · rw [Rounding.clamp_of_not_ge hh (Bool.eq_false_iff.2 hge)]
    decide

/-- A quotient of a zero by a positive finite value is not above zero. -/
theorem zero_div_not_pos {a b : F32} (ha : a.isZero = true) (hb : b.isFinite = true) (h0 : 0 < b.toInt) :
    (a.div b).gt F32.zero = false := by
  have hle := F32.div_le a b F32.zero (isFinite_of_isZero ha) hb h0 (by decide)
    (by rw [toInt_of_isZero ha, toInt_of_isZero (x := F32.zero) (by decide), zero_mul, zero_mul])
  obtain ⟨-, -, hk⟩ := (F32.le_iff _ _).1 hle
  rw [← Bool.not_eq_true, F32.gt_iff]
  rintro ⟨-, -, hk'⟩
  omega

/-- With a staged rate that clamps to zero the latch leaves the scheduler disabled (46_dropout.md R215). -/
theorem latch_lambda_not_pos {s : State}
    (h : s.staged.dropRate.isNaN = true ∨ s.staged.dropRate.isZero = true ∨ s.staged.dropRate.sign = true) :
    (latch s).derived.lambda.gt F32.zero = false :=
  zero_div_not_pos (clamp_isZero (by decide) h) (by decide) (by decide)

/-- DROP makes no draw while the rate is zero. -/
theorem dropResult_rng_of_not_pos {g : Derived} (h : g.lambda.gt F32.zero = false) (fs : F32) (d : Dropout) (r : Word) :
    (dropResult g fs d r).2 = r := by
  rw [dropResult, h]
  rfl

/-- MOD makes one draw and each channel's NOISE two. -/
theorem frameStep_rng {s : State} (h : s.derived.lambda.gt F32.zero = false) (n : Word) (channels : BitVec 8) :
    (frameStep n channels s).rng = rngNext^[5] s.rng := by
  rw [frameStep_eq]
  exact dropResult_rng_of_not_pos h _ _ _

theorem frames_rng {s : State} (h : s.derived.lambda.gt F32.zero = false) (k : Nat) (n : Word) (channels : BitVec 8) :
    (frames k n channels s).rng = rngNext^[5 * k] s.rng := by
  induction k generalizing n s with
  | zero => rfl
  | succ k ih =>
    have hd := (frames_frame 1 n channels s).derived
    rw [frames, ih (hd ▸ h), frameStep_rng h, Nat.mul_succ, Function.iterate_add_apply]

/-- Settles O36: the steps run the frame loop (O17), and no frame of it draws in DROP. -/
theorem fiveDrawsPerFrameAtRateZero : Obligations.FiveDrawsPerFrameAtRateZero := by
  intro s channels frameCount rest hs hr hp hd hrate
  refine ⟨_, processRunsEveryFrame s channels frameCount rest hs hr hp hd, ?_⟩
  have hl := latch_lambda_not_pos (s := State.takeFeed { s with port := rest }) (by rwa [takeFeed_spec])
  have hrng : (latch (State.takeFeed { s with port := rest })).rng = s.rng := by rw [takeFeed_spec, latch_spec]
  refine (frames_rng hl frameCount.toNat 0 channels).trans ?_
  rw [hrng]

/-! ### A frame and the buffers (O18) -/

/-- The state with other contents of IN and OUT. -/
def withBuffers (s : State) (input output : Mem) : State := { s with inBuf := input, outBuf := output }

/-- Store the sample of a channel the host asked for (40_host_commands.md R111). -/
def storeSample (channels : BitVec 8) (n : Word) (c : Channel) (v : F32) (out : Mem) : Mem :=
  if c.index < channels.toNat then memWrite out c.index n v else out

theorem storeSample_wf {channels : BitVec 8} {n : Word} {c : Channel} {v : F32} {out : Mem} (h : out.wf = true) :
    (storeSample channels n c v out).wf = true := by
  unfold storeSample
  split
  · exact memWrite_wf _ _ _ _ h
  · exact h

theorem memRead_storeSample_same {channels : BitVec 8} {n : Word} {c : Channel} {v : F32} {out : Mem}
    (h : out.wf = true) (hc : c.index < channels.toNat) : memRead (storeSample channels n c v out) c.index n = v := by
  rw [storeSample, if_pos hc, memRead_memWrite_same _ _ _ _ h]

theorem memRead_storeSample_other {channels : BitVec 8} {n j : Word} {c : Channel} {d : Nat} {v : F32} {out : Mem}
    (h : d ≠ c.index ∨ j ≠ n) : memRead (storeSample channels n c v out) d j = memRead out d j := by
  unfold storeSample
  split
  · exact memRead_memWrite_other _ _ _ _ _ _ h
  · rfl

/-- The random source as channel `c`'s part of a frame finds it: after MOD, and after the left channel's NOISE. -/
def channelRng (s : State) : Channel → Word
  | .left => rngNext s.rng
  | .right => rngNext (rngNext (rngNext s.rng))

/-- The output sample of channel `c` in frame `n` (40_host_commands.md R110). -/
def frameSample (n : Word) (channels : BitVec 8) (s : State) (c : Channel) : F32 :=
  channelOut s.active s.derived s.fs (dryInput s.inBuf n channels c) (frameModulation s).1
    (humValue s.derived.humAmp (selectedPhase s.active.mainsSel (frameModulation s).2))
    (envelopeGain s.active.dropDepth s.drop.env) c (s.channel c) (channelRng s c)

/-- A frame stores the left sample and then the right one. -/
theorem frameStep_outBuf (n : Word) (channels : BitVec 8) (s : State) :
    (frameStep n channels s).outBuf =
      storeSample channels n .right (frameSample n channels s .right)
        (storeSample channels n .left (frameSample n channels s .left) s.outBuf) := by
  rw [frameStep_eq]
  rfl

theorem frameStep_outBuf_wf {s : State} (h : s.outBuf.wf = true) (n : Word) (channels : BitVec 8) :
    (frameStep n channels s).outBuf.wf = true := by
  rw [frameStep_outBuf]
  exact storeSample_wf (storeSample_wf h)

theorem memRead_frameStep_same {s : State} {channels : BitVec 8} {c : Channel} (h : s.outBuf.wf = true)
    (hc : c.index < channels.toNat) (n : Word) :
    memRead (frameStep n channels s).outBuf c.index n = frameSample n channels s c := by
  rw [frameStep_outBuf]
  cases c with
  | left => rw [memRead_storeSample_other (.inl (by decide)), memRead_storeSample_same h hc]
  | right => rw [memRead_storeSample_same (storeSample_wf h) hc]

theorem memRead_frameStep_other {n j : Word} (h : j ≠ n) (channels : BitVec 8) (s : State) (d : Nat) :
    memRead (frameStep n channels s).outBuf d j = memRead s.outBuf d j := by
  rw [frameStep_outBuf, memRead_storeSample_other (.inr h), memRead_storeSample_other (.inr h)]

/-- A frame depends on its index and on IN through its dry samples alone, and on OUT not at all. -/
theorem frameStep_withBuffers {s : State} {input : Mem} {m n : Word} {channels : BitVec 8}
    (h : ∀ c, dryInput input m channels c = dryInput s.inBuf n channels c) (output : Mem) :
    frameStep m channels (withBuffers s input output) =
      withBuffers (frameStep n channels s) input (frameStep m channels (withBuffers s input output)).outBuf := by
  rw [frameStep_eq, frameStep_eq]
  simp only [withBuffers, h]
  rfl

theorem frameSample_withBuffers {s : State} {input : Mem} {m n : Word} {channels : BitVec 8} {c : Channel}
    (h : dryInput input m channels c = dryInput s.inBuf n channels c) (output : Mem) :
    frameSample m channels (withBuffers s input output) c = frameSample n channels s c := by
  unfold frameSample
  rw [show (withBuffers s input output).inBuf = input from rfl, h]
  cases c <;> rfl

/-! ### Several frames and the buffers (O18) -/

theorem frames_succ_end (k : Nat) (n : Word) (channels : BitVec 8) (s : State) :
    frames (k + 1) n channels s = frameStep (n + BitVec.ofNat 32 k) channels (frames k n channels s) :=
  frames_add k 1 n channels s

theorem frames_inBuf (k : Nat) (n : Word) (channels : BitVec 8) (s : State) :
    (frames k n channels s).inBuf = s.inBuf :=
  frames_keeps (·.inBuf) channels (frameStep_inBuf · channels) k n s

theorem frames_outBuf_wf {s : State} (h : s.outBuf.wf = true) (k : Nat) (n : Word) (channels : BitVec 8) :
    (frames k n channels s).outBuf.wf = true := by
  induction k generalizing n s with
  | zero => exact h
  | succ k ih => exact ih (frameStep_outBuf_wf h n channels) (n + 1)

/-- Frames store at no index but their own. -/
theorem memRead_frames_other {k : Nat} {n j : Word} (h : ∀ i < k, j ≠ n + BitVec.ofNat 32 i) (channels : BitVec 8)
    (s : State) (d : Nat) : memRead (frames k n channels s).outBuf d j = memRead s.outBuf d j := by
  induction k with
  | zero => rfl
  | succ k ih =>
    rw [frames_succ_end, memRead_frameStep_other (h k (Nat.lt_succ_self k)),
      ih fun i hi => h i (Nat.lt_succ_of_lt hi)]

/-- The frames of a block from its index 0 on, and the frames from index `a` on of a block whose input has there what
the other has from 0: the states are the same but for the buffers, and the words of OUT are the same, `a` apart. -/
theorem frames_shift {s : State} {input output : Mem} {a : Word} {channels : BitVec 8} (hs : s.outBuf.wf = true)
    (ho : output.wf = true) (k : Nat) (hk : k ≤ 2 ^ 32)
    (hin : ∀ (c : Channel) (i : Nat), i < k →
      memRead input c.index (BitVec.ofNat 32 i) = memRead s.inBuf c.index (a + BitVec.ofNat 32 i)) :
    ∃ out : Mem, out.wf = true ∧
      frames k 0 channels (withBuffers s input output) = withBuffers (frames k a channels s) input out ∧
      ∀ (c : Channel) (i : Nat), c.index < channels.toNat → i < k →
        memRead out c.index (BitVec.ofNat 32 i) =
          memRead (frames k a channels s).outBuf c.index (a + BitVec.ofNat 32 i) := by
  induction k with
  | zero => exact ⟨output, ho, rfl, fun _ _ _ hi => absurd hi (Nat.not_lt_zero _)⟩
  | succ k ih =>
    obtain ⟨out, hwf, hstate, hwords⟩ := ih (by omega) fun c i hi => hin c i (Nat.lt_succ_of_lt hi)
    have hdry : ∀ c, dryInput input (BitVec.ofNat 32 k) channels c =
        dryInput (frames k a channels s).inBuf (a + BitVec.ofNat 32 k) channels c := fun c => by
      rw [dryInput, dryInput, frames_inBuf, hin c k (Nat.lt_succ_self k)]
    have hwhole := frames_outBuf_wf hs k a channels
    refine ⟨(frameStep (BitVec.ofNat 32 k) channels (withBuffers (frames k a channels s) input out)).outBuf,
      frameStep_outBuf_wf hwf _ _, ?_, fun c i hc hi => ?_⟩
    · rw [frames_succ_end, frames_succ_end, hstate, zero_add]
      exact frameStep_withBuffers hdry out
    · rw [frames_succ_end]
      obtain rfl | hlt : i = k ∨ i < k := by omega
      · rw [memRead_frameStep_same hwf hc, memRead_frameStep_same hwhole hc, frameSample_withBuffers (hdry c)]
      · have hne : BitVec.ofNat 32 i ≠ BitVec.ofNat 32 k := by
          intro he
          have := congrArg BitVec.toNat he
          simp only [BitVec.toNat_ofNat] at this
          omega
        rw [memRead_frameStep_other hne, memRead_frameStep_other (by simpa using hne)]
        exact hwords c i hc hlt

/-! ### Two blocks and one (O18) -/

/-- With no feed waiting a block runs from the latch of the state it finds. -/
theorem processBlock_of_no_feed {s : State} (h : s.feeds = []) (channels : BitVec 8) (frameCount : Word) :
    processBlock channels frameCount s = frames frameCount.toNat 0 channels (latch s) := by
  rw [processBlock, State.takeFeed, h]

/-- The latch of a second block changes nothing: no frame writes what the latch reads or writes. -/
theorem latch_frames_latch (k : Nat) (n : Word) (channels : BitVec 8) (s : State) :
    latch (frames k n channels (latch s)) = frames k n channels (latch s) := by
  have keep := frames_frame k n channels (latch s)
  generalize frames k n channels (latch s) = t at keep ⊢
  have active : t.active = latchParams t.fs t.staged := by
    rw [keep.active, keep.fs, keep.staged, latch_spec]
  have derived : t.derived = latchDerived t.fs t.active := by
    rw [keep.derived, keep.fs, keep.active, latch_spec]
  rw [latch_spec, ← active, ← derived]

/-- A block on other input, from a state that the latch does not change. -/
theorem processBlock_setInput {s : State} (h : s.feeds = []) (hl : latch s = s) (channels : BitVec 8)
    (frameCount : Word) (input : Mem) :
    processBlock channels frameCount { s with inBuf := input } =
      frames frameCount.toNat 0 channels (withBuffers s input s.outBuf) := by
  have latched : latch { s with inBuf := input } = withBuffers (latch s) input s.outBuf := rfl
  rw [processBlock_of_no_feed (s := { s with inBuf := input }) h, latched, hl]

/-- Settles O18: the whole block is the first block's frames and then `b` more, and the second block runs those from
index 0 on its own input. -/
theorem splittingABlockChangesNothing : Obligations.SplittingABlockChangesNothing := by
  intro s channels a b rest hfeeds hout hab hrest
  dsimp only
  have hfirst := processBlock_of_no_feed hfeeds channels a
  have hwhole : processBlock channels (a + b) s = frames b.toNat a channels (processBlock channels a s) := by
    rw [processBlock_of_no_feed hfeeds, hfirst, BitVec.toNat_add_of_lt hab, frames_add]
    simp
  have hsecond : processBlock channels b { processBlock channels a s with inBuf := rest } =
      frames b.toNat 0 channels (withBuffers (processBlock channels a s) rest (processBlock channels a s).outBuf) :=
    processBlock_setInput (by rw [hfirst]; exact (frames_frame _ _ _ (latch s)).feeds.trans hfeeds)
      (by rw [hfirst, latch_frames_latch]) channels b rest
  have hwf : (processBlock channels a s).outBuf.wf = true := by
    rw [hfirst]
    exact frames_outBuf_wf (s := latch s) hout _ _ _
  obtain ⟨out, -, hstate, hwords⟩ := frames_shift (a := a) (channels := channels) hwf hwf b.toNat b.isLt.le
    (input := rest) (fun c i hi => by
      rw [hrest c.index _ (channel_index_lt_two c) (BitVec.lt_def.2 (by simpa [Nat.mod_eq_of_lt (hi.trans b.isLt)])),
        hfirst, frames_inBuf]
      rfl)
  rw [hsecond, hwhole, hstate]
  refine ⟨rfl, fun c k _ hk => ?_, fun c k hc hk => ?_⟩
  · refine (memRead_frames_other (fun i hi he => ?_) channels _ _).symm
    have := congrArg BitVec.toNat he
    have hk' := BitVec.lt_def.1 hk
    rw [BitVec.toNat_add, BitVec.toNat_ofNat] at this
    omega
  · have := hwords c k.toNat hc (BitVec.lt_def.1 hk)
    rwa [BitVec.ofNat_toNat, BitVec.setWidth_eq] at this

end Sys2Proof.Block

/-! PROOFS. The pseudo-random source of 41_random_source.md: its step (O34) and the value of a draw (O35). -/

namespace Sys2Proof.Random

open Sys2Proof.Machine Sys2Proof.Rounding
open Sys2Proof.F32 (unitsOf unitsOf_sig unitsOf_zero exists_sig infMag mag_pack sign_pack)

/-! ### The step (O34) -/

theorem xor_shiftLeft_xor (x y : Word) (k : Nat) :
    (x ^^^ y) ^^^ ((x ^^^ y) <<< k) = (x ^^^ (x <<< k)) ^^^ (y ^^^ (y <<< k)) := by
  rw [BitVec.shiftLeft_xor_distrib]
  ac_rfl

theorem xor_shiftRight_xor (x y : Word) (k : Nat) :
    (x ^^^ y) ^^^ ((x ^^^ y) >>> k) = (x ^^^ (x >>> k)) ^^^ (y ^^^ (y >>> k)) := by
  rw [BitVec.ushiftRight_xor_distrib]
  ac_rfl

/-- Each of the three xorshifts is linear over xor, so the step is (41_random_source.md R131). -/
theorem rngNext_xor (x y : Word) : rngNext (x ^^^ y) = rngNext x ^^^ rngNext y := by
  unfold rngNext
  dsimp only
  rw [xor_shiftLeft_xor x y 13, xor_shiftRight_xor _ _ 17, xor_shiftLeft_xor _ _ 5]

theorem rngNext_zero : rngNext 0 = 0 := by decide

theorem rngNext_eq_zero_iff (x : Word) : rngNext x = 0 ↔ x = 0 := by
  refine ⟨fun h => ?_, fun h => by rw [h, rngNext_zero]⟩
  by_contra hx
  exact rngNext_ne_zero x hx h

/-- The step is linear and maps only 0 to 0. -/
theorem rngNext_injective : Function.Injective rngNext := by
  intro x y h
  have hzero : rngNext (x ^^^ y) = 0 := (rngNext_xor x y).trans (h ▸ BitVec.xor_self)
  exact BitVec.xor_eq_zero_iff.1 ((rngNext_eq_zero_iff _).1 hzero)

/-- Settles O34: the step is injective on finitely many words. -/
theorem randomStepIsABijection : Obligations.RandomStepIsABijection :=
  ⟨fun _ => rfl, Finite.injective_iff_bijective.1 rngNext_injective, rngNext_eq_zero_iff⟩

/-! ### The value of a draw (O35) -/

/-- An exponent higher by `j` stands for `2^j` times the units; subnormal magnitudes, which have none, are left out. -/
theorem unitsOf_add_exponent (m j : Nat) (h : 2 ^ 23 ≤ m) : unitsOf (j * 2 ^ 23 + m) = unitsOf m * 2 ^ j := by
  obtain ⟨e, s, rfl, hlo, hhi⟩ := exists_sig m h
  rw [← add_assoc, ← add_mul, unitsOf_sig _ s hlo hhi.le, unitsOf_sig e s hlo hhi.le, pow_add]
  ring

/-- The whole numbers below 2^24, 23 binary places down, are representable: 1 is 2^126 units there. -/
theorem exists_mag_fraction (k : Nat) (hk : k < 2 ^ 24) : ∃ m, m < infMag ∧ unitsOf m = k * 2 ^ 126 := by
  obtain ⟨m, hm, hu⟩ := exists_mag_of_lt k hk
  obtain rfl | hpos := Nat.eq_zero_or_pos k
  · exact ⟨0, by decide, by rw [unitsOf_zero, zero_mul]⟩
  · have hbig : 24 * 2 ^ 23 ≤ m := by
      rw [← F32.unitsOf_le_iff, hu, show 24 * 2 ^ 23 = 23 * 2 ^ 23 + 2 ^ 23 by norm_num,
        unitsOf_sig 23 _ le_rfl (by norm_num)]
      omega
    have hscale := unitsOf_add_exponent (m - 23 * 2 ^ 23) 23 (by omega)
    rw [Nat.add_sub_cancel' (by omega), hu] at hscale
    exact ⟨m - 23 * 2 ^ 23, by omega, by omega⟩

/-- The non-negative value with given magnitude bits, finite where they are below an infinity's. -/
theorem exists_value_of_mag {m u : Nat} (hm : m < infMag) (hu : unitsOf m = u) :
    ∃ c : F32, c.sign = false ∧ c.isFinite = true ∧ c.units = u :=
  ⟨F32.pack false m, sign_pack _ _ hm.le, by rw [F32.isFinite_iff, mag_pack _ _ hm.le]; exact hm,
    by rw [F32.units, mag_pack _ _ hm.le, hu]⟩

/-- `i2f` of a whole number of at most twenty-four bits is exact. -/
theorem ofInt_exact (k : Nat) (hk : k < 2 ^ 24) :
    (F32.ofInt k).sign = false ∧ (F32.ofInt k).isFinite = true ∧ (F32.ofInt k).units = k * 2 ^ 149 := by
  obtain ⟨m, hm, hu⟩ := exists_mag_of_lt k hk
  obtain ⟨c, hs, hfin, hunits⟩ := exists_value_of_mag hm hu
  have hc : F32.ofInt k = c := by
    rw [F32.ofInt_nat, ← hs]
    exact F32.round_exact c _ 1 one_pos (c.isNaN_of_isFinite hfin) (by rw [hunits, mul_one])
  rw [hc]
  exact ⟨hs, hfin, hunits⟩

/-- The value of a generator word is exact: the conversion and the product by 2^-23 both round a representable value
(41_random_source.md R132). -/
theorem uniform_exact (w : Word) :
    (uniform w).isFinite = true ∧ (uniform w).toInt = (w.toNat / 2 ^ 9 : Nat) * 2 ^ 126 := by
  have hk : w.toNat / 2 ^ 9 < 2 ^ 24 := by have := w.isLt; omega
  obtain ⟨hsign, hfinite, hunits⟩ := ofInt_exact _ hk
  obtain ⟨hssign, hsfinite, hsunits⟩ : F32.twoPowMinus23.sign = false ∧ F32.twoPowMinus23.isFinite = true ∧
      F32.twoPowMinus23.units = 2 ^ 126 := by decide +kernel
  obtain ⟨m, hm, hu⟩ := exists_mag_fraction _ hk
  obtain ⟨c, hs, hfin, hcu⟩ := exists_value_of_mag hm hu
  have hc : uniform w = c := by
    rw [uniform, F32.mul_finite_eq _ _ hfinite hsfinite, hsign, hssign, hunits, hsunits, bne_self_eq_false, ← hs]
    exact F32.round_exact c _ _ (by positivity) (c.isNaN_of_isFinite hfin) (by rw [hcu]; ring)
  rw [hc, F32.toInt, hs, hcu]
  exact ⟨hfin, by simp⟩

/-- Settles O35: the draw's value is the top 23 bits in units of 2^126, and 1 is 2^149 of them. -/
theorem drawIsExact : Obligations.DrawIsExact := by
  intro s
  obtain ⟨hfin, hval⟩ := uniform_exact (rngNext s.rng)
  have hnan := F32.isNaN_of_isFinite _ hfin
  have hzero : F32.zero.isNaN = false ∧ F32.zero.toInt = 0 := by decide
  have hone : F32.one.isFinite = true ∧ F32.one.toInt = 2 ^ 149 := by decide +kernel
  have hstep : F32.twoPowMinus23.isFinite = true ∧ F32.twoPowMinus23.toInt = 2 ^ 126 := by decide +kernel
  have hbound : (rngNext s.rng).toNat / 2 ^ 9 < 2 ^ 23 := by have := (rngNext s.rng).isLt; omega
  rw [draw_spec, literal_one, literal_twoPowMinus23]
  refine ⟨rfl, ?_, ?_, ?_⟩
  · rw [hval]; ring
  · rw [F32.le_iff, F32.key_le_iff, hzero.2, hval]
    exact ⟨hzero.1, hnan, by positivity⟩
  · refine F32.le_sub _ _ _ hone.1 hstep.1 hnan ?_
    rw [hval, hone.2, hstep.2]
    omega

end Sys2Proof.Random

/-! PROOFS. Determinism from reset (41_random_source.md R134): a run that begins with RESET, SETPARAMS and PROCESS
depends on the commands and the buffers alone (O57). -/

namespace Sys2Proof.Determinism

open Sys2Proof.Machine Sys2Proof.Decoding Sys2Proof.Commands Sys2Proof.Block

/-! ### The three commands taken up -/

/-- The state after a RESET with a good rate. -/
def afterReset (fs block : Word) (rest : List Word) (s : State) : State :=
  afterCommand ((s.consume rest).reinitialise ⟨fs⟩ block)

/-- The state after a SETPARAMS that stages `p`. -/
def afterSetparams (p : Params) (rest : List Word) (s : State) : State :=
  afterCommand { (s.consume rest).setPvalid with staged := p }

theorem step_reset {s : State} {fs block : Word} {rest : List Word} (hs : s.atBoundary = true)
    (hfs : badSampleRate ⟨fs⟩ = false) (hd : decodeCommand s.port = .command (.reset fs block) rest) :
    step s = .next (afterReset fs block rest s) := by
  rw [step_of_atBoundary hs, stepCommand, hd]
  dsimp only
  rw [exec_reset_of_good hfs]
  rfl

theorem step_setparams {s : State} {v : ParamWords} {p : Params} {rest : List Word} (hs : s.atBoundary = true)
    (hp : operandParams v = some p) (hd : decodeCommand s.port = .command (.setparams v) rest) :
    step s = .next (afterSetparams p rest s) := by
  rw [step_of_atBoundary hs, stepCommand, hd]
  dsimp only
  rw [exec, execSetparams, hp]
  rfl

/-- The state with blanks for what PROCESS writes before anything reads it: the active and derived registers
(40_host_commands.md R106, R107) and the frame context (R105). -/
def blankLatched (s : State) : State := (s.setLatched Params.initial Derived.initial).setFrame FrameCtx.idle

@[simp] theorem blankLatched_ready (s : State) : (blankLatched s).ready = s.ready := rfl
@[simp] theorem blankLatched_pvalid (s : State) : (blankLatched s).pvalid = s.pvalid := rfl
@[simp] theorem blankLatched_port (s : State) : (blankLatched s).port = s.port := rfl

theorem latch_blankLatched (s : State) (rest : List Word) (f : FrameCtx) :
    (afterCommand (latch ((blankLatched s).consume rest).takeFeed)).setFrame f =
      (afterCommand (latch (s.consume rest).takeFeed)).setFrame f := by
  rw [takeFeed_spec, takeFeed_spec, latch_spec, latch_spec]
  rfl

/-- PROCESS does not see what it writes first: states that differ in nothing else take the same step. -/
theorem step_process_congr {s t : State} {channels : BitVec 8} {frameCount : Word} {rest : List Word}
    (hs : s.atBoundary = true) (ht : t.atBoundary = true) (hr : s.ready = true) (hp : s.pvalid = true)
    (hd : decodeCommand s.port = .command (.process channels frameCount) rest)
    (h : blankLatched s = blankLatched t) : step s = step t := by
  have hrt : s.ready = t.ready := by simpa using congrArg State.ready h
  have hpt : s.pvalid = t.pvalid := by simpa using congrArg State.pvalid h
  have hport : s.port = t.port := by simpa using congrArg State.port h
  rw [step_process hs hr hp hd, step_process ht (hrt ▸ hr) (hpt ▸ hp) (hport ▸ hd), ← latch_blankLatched s,
    ← latch_blankLatched t, h]

/-! ### The state before the PROCESS -/

/-- The state that a RESET and a SETPARAMS leave, with the words of the PROCESS next on the port. -/
def configured (fs block : Word) (v : ParamWords) (p : Params) (rest : List Word) (s : State) : State :=
  afterSetparams p rest (afterReset fs block (portWords (.setparams v) ++ rest) s)

section
variable {fs block : Word} {v : ParamWords} {p : Params} {rest : List Word}

/-- RESET and SETPARAMS write every other register: what they leave of the state before is the host's side of it. -/
theorem blankLatched_configured (s : State) :
    blankLatched (configured fs block v p rest s) =
      { State.reset with
        ready := true, pvalid := true, fs := ⟨fs⟩, blksz := block, staged := p, rng := Config.cfg.seed
        drop := Dropout.rearmed, inBuf := s.inBuf, outBuf := s.outBuf, resetPin := s.resetPin, port := rest
        feeds := s.feeds, cmdIndex := s.cmdIndex + 1 + 1 } := rfl

theorem blankLatched_configured_congr {s t : State} (hs : s.atBoundary = true) (ht : t.atBoundary = true)
    (hfeeds : t.feeds = s.feeds) (hin : t.inBuf = s.inBuf) (hout : t.outBuf = s.outBuf)
    (hindex : t.cmdIndex = s.cmdIndex) :
    blankLatched (configured fs block v p rest s) = blankLatched (configured fs block v p rest t) := by
  rw [blankLatched_configured, blankLatched_configured, hfeeds, hin, hout, hindex, ((atBoundary_iff s).1 hs).2,
    ((atBoundary_iff t).1 ht).2]

end

/-! ### Units of a run -/

theorem halted_of_command {s : State} {i : Instr} {rest : List Word} (hd : decodeCommand s.port = .command i rest) :
    s.halted = none := by
  have hport : s.port ≠ [] := by
    intro h
    rw [h, decodeCommand_nil] at hd
    cases hd
  simp [halted_eq_none, State.ended, State.stuck, hport, hd]

theorem processOperands_of_command {s : State} {i : Instr} {rest : List Word} (hs : s.atBoundary = true)
    (hd : decodeCommand s.port = .command i rest) : s.processOperands = Instr.processOperands i := by
  obtain ⟨hstage, hpin⟩ := (atBoundary_iff s).1 hs
  simp [State.processOperands, hstage, hpin, hd]

/-- A command that is done in one step and is no PROCESS adds nothing to the outputs of the run. -/
theorem runStream_of_silent {s t : State} {i : Instr} {rest : List Word} (hs : s.atBoundary = true)
    (hd : decodeCommand s.port = .command i rest) (hi : Instr.processOperands i = none) (h : step s = .next t)
    (ht : t.atBoundary = true) (k : Nat) : runStream (k + 1) s = runStream k t := by
  have silent : unitOutputs s t = [] := by rw [unitOutputs, processOperands_of_command hs hd, hi]
  rw [runStream_next k s t (halted_of_command hd) (runCommand_of_boundary s t h ((atBoundary_iff t).1 ht).1), silent]
  rfl

theorem run_succ_congr {s t : State} (h : step s = step t) (k : Nat) : run (k + 1) s = run (k + 1) t := by
  rw [run, run, h]

/-- Two engines at a boundary with the same command and the same step run alike from there on. -/
theorem runStream_succ_congr {s t : State} {i : Instr} {rest : List Word} (hs : s.atBoundary = true)
    (ht : t.atBoundary = true) (hds : decodeCommand s.port = .command i rest)
    (hdt : decodeCommand t.port = .command i rest) (h : step s = step t) (k : Nat) :
    runStream (k + 1) s = runStream (k + 1) t := by
  have command : runCommand s = runCommand t := by rw [runCommand, runCommand, h]
  have outputs : ∀ u, unitOutputs s u = unitOutputs t u := fun u => by
    rw [unitOutputs, unitOutputs, processOperands_of_command hs hds, processOperands_of_command ht hdt]
  simp only [runStream, halted_of_command hds, halted_of_command hdt, command, outputs]

/-! ### The three commands in a row -/

/-- From a boundary with a good RESET and a well-formed SETPARAMS first on the port, two steps and two units of a run
lead to the configured engine, at a boundary again. -/
theorem run_configured {s : State} {fs block : Word} {v : ParamWords} {p : Params} {rest : List Word}
    (hs : s.atBoundary = true) (hport : s.port = portWords (.reset fs block) ++ (portWords (.setparams v) ++ rest))
    (hfs : badSampleRate ⟨fs⟩ = false) (hv : operandParams v = some p) :
    (configured fs block v p rest s).atBoundary = true ∧ run 2 s = .next (configured fs block v p rest s) ∧
      ∀ k, runStream (k + 2) s = runStream k (configured fs block v p rest s) := by
  have dreset : decodeCommand s.port = .command (.reset fs block) (portWords (.setparams v) ++ rest) := by
    rw [hport]
    exact decodeCommand_encode_append rfl _
  have hb : (afterReset fs block (portWords (.setparams v) ++ rest) s).atBoundary = true := hs
  have hc : (configured fs block v p rest s).atBoundary = true := hs
  have dparams : decodeCommand (afterReset fs block (portWords (.setparams v) ++ rest) s).port =
      .command (.setparams v) rest := decodeCommand_encode_append rfl rest
  have reset := step_reset hs hfs dreset
  have params := step_setparams hb hv dparams
  refine ⟨hc, run_of_step reset (run_of_step params rfl), fun k => ?_⟩
  rw [runStream_of_silent hs dreset rfl reset hb, runStream_of_silent hb dparams rfl params hc]
  rfl

theorem badSampleRate_of_finite_pos {fs : F32} (hfin : fs.isFinite = true) (hpos : fs.gt F32.zero = true) :
    badSampleRate fs = false :=
  (badSampleRate_eq_false_iff fs).2 ⟨hfin, ((gt_zero_iff fs).1 hpos).2⟩

/-- Settles O57: RESET and SETPARAMS bring both engines to states that differ only in what PROCESS writes first, so its
step leads both to one state, and all that follows is the run of that state. -/
theorem runsFromResetAreIdentical : Obligations.RunsFromResetAreIdentical := by
  intro s1 s2 fs block v channels frameCount rest hs1 hs2 hport1 hport2 hfeeds hin hout hindex hfin hpos hmains htstop
  have hfs := badSampleRate_of_finite_pos hfin hpos
  obtain ⟨p, hv⟩ := Option.isSome_iff_exists.1 ((operandParams_isSome v).trans (by rw [hmains, htstop]; rfl))
  rw [List.append_assoc, List.append_assoc] at hport1
  obtain ⟨hc1, run1, stream1⟩ := run_configured hs1 hport1 hfs hv
  obtain ⟨hc2, run2, stream2⟩ := run_configured hs2 (hport2.trans hport1) hfs hv
  have hd : decodeCommand (portWords (.process channels frameCount) ++ rest) =
      .command (.process channels frameCount) rest := decodeCommand_encode_append rfl rest
  have same := step_process_congr hc1 hc2 rfl rfl hd (blankLatched_configured_congr hs1 hs2 hfeeds hin hout hindex)
  have steps : 3 + 21 * frameCount.toNat = 2 + (21 * frameCount.toNat + 1) := by omega
  have meet := run_succ_congr same (21 * frameCount.toNat)
  have block1 := processRunsEveryFrame _ channels frameCount rest hc1 rfl rfl hd
  rw [Nat.add_comm] at block1
  rw [steps, run_add _ _ _ _ run1, run_add _ _ _ _ run2, ← meet]
  refine ⟨⟨_, block1, block1⟩, fun k => ?_⟩
  rw [stream1, stream2]
  exact runStream_succ_congr hc1 hc2 hd hd same k

end Sys2Proof.Determinism

/-! PROOFS. The modulation engine of 42_modulation.md: the tape stop (O44) and the stage MOD (O22). -/

namespace Sys2Proof.ModulationStage

open Sys2Proof.Machine
open Sys2Proof.F32 (roundMag_mono roundMag_le signed)

/-! ### The infinities in the order -/

theorem isFinite_or_isInf {a : F32} (h : a.isNaN = false) : a.isFinite = true ∨ a.isInf = true := by
  rw [F32.isFinite_iff, F32.isInf_iff]
  exact ((F32.isNaN_eq_false_iff a).1 h).lt_or_eq

theorem eq_inf_of_nonneg {a : F32} (h : F32.zero.le a = true) (hi : a.isInf = true) : a = F32.inf := by
  obtain ⟨-, -, hk⟩ := (F32.le_iff _ _).1 h
  have hmag := (F32.isInf_iff a).1 hi
  have hzero : F32.zero.key = 0 := by decide
  have hpos : 0 < F32.infMag := by decide
  have hsign : a.sign = false := by
    by_contra hs
    have hkey : a.key = -(a.mag : Int) := if_pos (by simpa using hs)
    omega
  exact F32.ext_sign_mag _ _ (hsign.trans (by decide)) (hmag.trans (by decide))

theorem le_inf {a : F32} (h : a.isNaN = false) : a.le F32.inf = true := by
  have hmag := (F32.isNaN_eq_false_iff a).1 h
  have hinf : F32.inf.key = F32.infMag := by decide
  refine (F32.le_iff _ _).2 ⟨h, by decide, ?_⟩
  rw [hinf, F32.key]
  split <;> omega

theorem neg_inf_le {a : F32} (h : a.isNaN = false) : F32.inf.neg.le a = true := by
  rw [← F32.neg_neg a, F32.le_neg_neg]
  exact le_inf (by rwa [F32.isNaN_neg])

/-- A value at or above zero is finite or the positive infinity. -/
theorem nonneg_cases {a : F32} (h : F32.zero.le a = true) : a.isFinite = true ∨ a = F32.inf :=
  (isFinite_or_isInf ((F32.le_iff _ _).1 h).2.1).imp_right (eq_inf_of_nonneg h)

theorem toInt_nonneg {a : F32} (h : F32.zero.le a = true) : 0 ≤ a.toInt := by
  obtain ⟨-, -, hk⟩ := (F32.le_iff _ _).1 h
  exact (F32.key_le_iff _ _).1 hk

theorem toInt_pos_of_gt {a : F32} (h : a.gt F32.zero = true) : 0 < a.toInt := by
  obtain ⟨-, -, hk⟩ := (F32.gt_iff _ _).1 h
  exact not_le.1 fun hle => not_le.2 hk ((F32.key_le_iff a F32.zero).2 hle)

/-! ### Monotonicity of a sum and of a product -/

/-- Rounding is monotone across the signs too. -/
theorem round_mono {s s' : Bool} {n n' d : Nat} (hd : 0 < d) (h : signed s n ≤ signed s' n') :
    (F32.round s n d).le (F32.round s' n' d) = true := by
  refine (F32.le_iff _ _).2 ⟨F32.round_notNaN .., F32.round_notNaN .., ?_⟩
  rw [F32.key_round, F32.key_round]
  unfold signed at *
  cases s <;> cases s' <;> simp only [Bool.false_eq_true, if_true, if_false] at h ⊢
  · have := roundMag_mono n n' d hd (by omega)
    omega
  · obtain ⟨rfl, rfl⟩ : n = 0 ∧ n' = 0 := by omega
    have := roundMag_le 0 d 0 (Nat.zero_le _) hd
    omega
  · omega
  · have := roundMag_mono n' n d hd (by omega)
    omega

theorem inf_add_of_nonneg {d : F32} (hd : F32.zero.le d = true) : F32.inf.add d = F32.inf := by
  obtain hfin | rfl := nonneg_cases hd
  · simp [F32.add, F32.addWith, d.isNaN_of_isFinite hfin, F32.isInf_eq_false_of_isFinite d hfin,
      show F32.inf.isNaN = false by decide, show F32.inf.isInf = true by decide]
  · decide

theorem add_inf_of_finite {a : F32} (ha : a.isFinite = true) : a.add F32.inf = F32.inf := by
  simp [F32.add, F32.addWith, a.isNaN_of_isFinite ha, F32.isInf_eq_false_of_isFinite a ha,
    show F32.inf.isNaN = false by decide, show F32.inf.isInf = true by decide]

/-- Adding a value at or above zero to another never lowers it, whether either is infinite or the sum overflows. -/
theorem le_add_of_nonneg {a d : F32} (ha : F32.zero.le a = true) (hd : F32.zero.le d = true) :
    a.le (a.add d) = true := by
  obtain ⟨-, hnan, -⟩ := (F32.le_iff _ _).1 ha
  obtain hafin | rfl := nonneg_cases ha
  · obtain hdfin | rfl := nonneg_cases hd
    · have hincrement := toInt_nonneg hd
      exact F32.le_add a d a hafin hdfin hnan (by omega)
    · rw [add_inf_of_finite hafin]
      exact le_inf hnan
  · rw [inf_add_of_nonneg hd]
    exact F32.le_refl hnan

/-- A product with a finite factor at or below zero goes down as the other factor goes up. -/
theorem mul_antitone {c a b : F32} (hc : c.isFinite = true) (hneg : c.toInt ≤ 0) (ha : a.isFinite = true)
    (hb : b.isFinite = true) (h : a.le b = true) : (c.mul b).le (c.mul a) = true := by
  obtain ⟨-, -, hk⟩ := (F32.le_iff _ _).1 h
  rw [F32.mul_finite_eq c a hc ha, F32.mul_finite_eq c b hc hb]
  refine round_mono (by positivity) ?_
  rw [F32.signed_mul, F32.signed_mul]
  exact Int.mul_le_mul_of_nonpos_left hneg ((F32.key_le_iff a b).1 hk)

/-! ### The ramp and the speed factor (O44) -/

theorem rampNext_engaged (fs ramp : F32) : rampNext true fs ramp = ramp.add (Config.cfg.tstopRate.div fs) := rfl

theorem speedOf_engaged (ramp : F32) : speedOf true ramp = Config.library.exp (Config.cfg.tstopK.neg.mul ramp) := rfl

/-- At a positive sample rate the ramp's increment is at or above zero. -/
theorem rampIncrement_nonneg {fs : F32} (hfin : fs.isFinite = true) (hpos : fs.gt F32.zero = true) :
    F32.zero.le (Config.cfg.tstopRate.div fs) = true := by
  have hrate : Config.cfg.tstopRate.isFinite = true ∧ 0 ≤ Config.cfg.tstopRate.toInt * 2 ^ 149 := by decide +kernel
  refine F32.le_div _ _ _ hrate.1 hfin (toInt_pos_of_gt hpos) (by decide) ?_
  rw [show F32.zero.toInt = 0 by decide, zero_mul]
  exact hrate.2

/-- The decay exponent goes down as the ramp goes up; an infinite ramp has the exponent -inf. -/
theorem decayExponent_antitone {a b : F32} (ha : F32.zero.le a = true) (h : a.le b = true) :
    (Config.cfg.tstopK.neg.mul b).le (Config.cfg.tstopK.neg.mul a) = true := by
  have hk : Config.cfg.tstopK.neg.isFinite = true ∧ Config.cfg.tstopK.neg.toInt ≤ 0 := by decide +kernel
  have hinf : Config.cfg.tstopK.neg.mul F32.inf = F32.inf.neg := by decide
  obtain hbfin | rfl := nonneg_cases (F32.le_trans ha h)
  · exact mul_antitone hk.1 hk.2 (F32.isFinite_of_le (by decide) hbfin ha h) hbfin h
  · rw [hinf]
    refine neg_inf_le ?_
    obtain hafin | rfl := nonneg_cases ha
    · exact F32.mul_notNaN _ _ hk.1 hafin
    · rw [hinf]
      decide

/-- The speed factor goes down as the ramp goes up, by the monotonicity of `exp` (00_scope.md R11, `EXPM`). -/
theorem speedOf_antitone {a b : F32} (ha : F32.zero.le a = true) (h : a.le b = true) :
    (speedOf true b).le (speedOf true a) = true := by
  rw [speedOf_engaged, speedOf_engaged]
  exact Config.library.exp_mono _ _ (decayExponent_antitone ha h)

/-- A tape stop with its ramp at zero leaves the speed at exactly 1 (00_scope.md R11, `EXP0`). -/
theorem speedOf_zero : speedOf true F32.zero = F32.one := by
  have hexponent : Config.cfg.tstopK.neg.mul F32.zero = F32.zero.neg := by decide +kernel
  rw [speedOf_engaged, hexponent]
  exact Config.library.exp_zero.2

/-- Settles O44: the ramp never falls, the speed factor is antitone in the ramp, and it is 1 where the ramp is 0. -/
theorem tapeStopSpeedNeverRises : Obligations.TapeStopSpeedNeverRises := by
  intro fs ramp hfin hpos hramp next
  have hnext : ramp.le next = true := le_add_of_nonneg hramp (rampIncrement_nonneg hfin hpos)
  refine ⟨hnext, speedOf_antitone hramp hnext, ?_⟩
  rw [← speedOf_zero]
  exact speedOf_antitone (by decide) (F32.le_trans hramp hnext)

/-! ### The stage MOD (O22) -/

/-- MOD makes one draw, writes the modulation state from it and drives `m` from the new state; the rest stays. -/
theorem exec_mod_eq (s : State) :
    exec .mod s = .next
      { s with
        rng := rngNext s.rng
        modu := modulationNext s.active s.fs (uniform (rngNext s.rng)) s.modu
        frame := { s.frame with wires := { s.frame.wires with m := (modulate s).1 } } } := rfl

/-- Settles O22: the stage's meaning, its constants read as the decimals of R141 to R146. -/
theorem modAdvancesTheModulation : Obligations.ModAdvancesTheModulation := by
  intro s
  rw [exec_mod_eq, literal_tstopRate, literal_tstopK, literal_half, literal_jitStep, literal_jitMax, literal_fMains0,
    literal_fMains1, literal_twoPowMinus23]
  rfl

end Sys2Proof.ModulationStage

/-! PROOFS. The delay line of 43_delay_line.md: the dry history in the delay RAM (O38), the range of the delay and its
taps (O37), the base delay (O39), and the stages DLYRD (O26) and DLYWR (O27). -/

namespace Sys2Proof.DelayLine

open Sys2Proof.Machine Sys2Proof.Rounding Sys2Proof.Block

/-! ### A read of the delay RAM after a push (43_delay_line.md R165) -/

theorem dlyRead_delayPush_same {ch : ChannelState} (h : ch.dly.wf = true) (x : F32) :
    dlyRead (delayPush ch x) ch.w = x := by
  rw [dlyRead, delayPush_dly, Mem.readWord_writeWord_same _ _ _ h]

theorem dlyRead_delayPush_other {ch : ChannelState} {a : BitVec 12} (h : a ≠ ch.w) (x : F32) :
    dlyRead (delayPush ch x) a = dlyRead ch a := by
  rw [dlyRead, delayPush_dly, Mem.readWord_writeWord_other _ _ _ _ fun e => h (BitVec.eq_of_toNat_eq e), dlyRead]

/-! ### The history behind the cursor (O38) -/

/-- After `k` pushes of `x 0`, `x 1`, … the word `j` places behind the cursor is the sample pushed `j` pushes ago, or
`+0.0` where there was none (43_delay_line.md R160). The canonical form is what makes the next push readable. -/
def HoldsHistory (x : Nat → F32) (k : Nat) (ch : ChannelState) : Prop :=
  ch.dly.wf = true ∧
    ∀ j : Nat, 1 ≤ j → j ≤ 4096 → dlyRead ch (ch.w - BitVec.ofNat 12 j) = if j ≤ k then x (k - j) else F32.zero

theorem holdsHistory_of_empty {ch : ChannelState} (h : ch.dly = []) (x : Nat → F32) : HoldsHistory x 0 ch := by
  refine ⟨by rw [h]; exact Mem.wf_nil, fun j hj _ => ?_⟩
  rw [dlyRead, h, Mem.readWord_nil, if_neg (by omega)]
  rfl

/-- Only the delay RAM and the cursor matter. -/
theorem HoldsHistory.congr {x : Nat → F32} {k : Nat} {ch ch' : ChannelState} (h : HoldsHistory x k ch)
    (hdly : ch'.dly = ch.dly) (hw : ch'.w = ch.w) : HoldsHistory x k ch' := by
  unfold HoldsHistory dlyRead at *
  rwa [hdly, hw]

/-- A push puts its sample one place behind the new cursor and every older one a place further back; the one that was
4096 places back is the word overwritten. -/
theorem HoldsHistory.push {x : Nat → F32} {k : Nat} {ch : ChannelState} (h : HoldsHistory x k ch) :
    HoldsHistory x (k + 1) (delayPush ch (x k)) := by
  obtain ⟨hwf, hread⟩ := h
  refine ⟨Mem.writeWord_wf _ _ _ hwf, fun j hlo hhi => ?_⟩
  rw [delayPush_w]
  obtain rfl | ⟨i, hi, rfl⟩ : j = 1 ∨ ∃ i, 1 ≤ i ∧ j = i + 1 := by
    rcases Nat.eq_or_lt_of_le hlo with h1 | h1
    · exact .inl h1.symm
    · exact .inr ⟨j - 1, by omega, by omega⟩
  · have haddr : ch.w + 1 - BitVec.ofNat 12 1 = ch.w := by bv_omega
    rw [haddr, dlyRead_delayPush_same hwf, if_pos (by omega), Nat.add_sub_cancel]
  · have haddr : ch.w + 1 - BitVec.ofNat 12 (i + 1) = ch.w - BitVec.ofNat 12 i := by bv_omega
    have hne : ch.w - BitVec.ofNat 12 i ≠ ch.w := by bv_omega
    rw [haddr, dlyRead_delayPush_other hne, hread i hi (by omega), Nat.add_sub_add_right]
    simp only [Nat.add_le_add_iff_right]

/-- A frame does to a channel what its part of the frame does (40_host_commands.md R110). -/
theorem channel_frameStep (n : Word) (channels : BitVec 8) (s : State) (c : Channel) :
    (frameStep n channels s).channel c =
      channelNext s.derived s.fs (dryInput s.inBuf n channels c) (frameModulation s).1 c (s.channel c) := by
  rw [frameStep_eq]
  cases c <;> rfl

/-- Of the stages of a channel's part of a frame only DLYWR touches the delay RAM and the cursor. -/
theorem HoldsHistory.channelNext {x : Nat → F32} {k : Nat} {ch : ChannelState} (h : HoldsHistory x k ch) (g : Derived)
    (fs m : F32) (c : Channel) : HoldsHistory x (k + 1) (channelNext g fs (x k) m c ch) :=
  (h.congr (ch' := { ch with z := _, xp := _, yp := _ }) rfl rfl).push

/-- The dry sample of channel `c` in frame `n` of the block. -/
def drySample (s : State) (channels : BitVec 8) (c : Channel) (n : Nat) : F32 :=
  dryInput s.inBuf (BitVec.ofNat 32 n) channels c

theorem holdsHistory_frames {s : State} {c : Channel} (h : (s.channel c).dly = []) (channels : BitVec 8) (k : Nat) :
    HoldsHistory (drySample s channels c) k ((frames k 0 channels s).channel c) := by
  induction k with
  | zero => exact holdsHistory_of_empty h _
  | succ k ih =>
    rw [frames_succ_end, zero_add, channel_frameStep, frames_inBuf]
    exact ih.channelNext _ _ _ _

/-- Settles O38: the history is there after every number of frames, by induction on the frames. -/
theorem delayLineHoldsTheDryHistory : Obligations.DelayLineHoldsTheDryHistory := by
  intro s c channels k hcleared _
  exact (holdsHistory_frames hcleared channels k).2

/-! ### The range of the delay and its taps (O37) -/

theorem dMin_le_dMax : Config.cfg.dMin.le Config.cfg.dMax = true := by decide

/-- The clamp of R162 holds for any target, a NaN and the infinities among them. -/
theorem delaySamples_bounds (m scale fs : F32) :
    Config.cfg.dMin.le (delaySamples m scale fs) = true ∧ (delaySamples m scale fs).le Config.cfg.dMax = true :=
  F32.clamp_bounds _ _ _ (by decide) dMin_le_dMax

theorem delaySamples_of_isNaN {m scale fs : F32} (h : (targetDelay m scale fs).isNaN = true) :
    delaySamples m scale fs = Config.cfg.dMin :=
  clamp_of_not_ge dMin_le_dMax (not_ge_of_isNaN h)

/-- A delay within the clamp's bounds is finite, and its whole part is in 1 .. 4094. -/
theorem floorInt_bounds {d : F32} (hlo : Config.cfg.dMin.le d = true) (hhi : d.le Config.cfg.dMax = true) :
    d.isFinite = true ∧ 1 ≤ d.floorInt ∧ d.floorInt ≤ 4094 := by
  obtain ⟨-, -, hklo⟩ := (F32.le_iff _ _).1 hlo
  obtain ⟨-, -, hkhi⟩ := (F32.le_iff _ _).1 hhi
  have hmin : Config.cfg.dMin.isFinite = true ∧ Config.cfg.dMin.toInt = 2 ^ 149 := by decide +kernel
  have hmax : Config.cfg.dMax.isFinite = true ∧ Config.cfg.dMax.toInt = 4094 * 2 ^ 149 := by decide +kernel
  rw [F32.key_le_iff, hmin.2] at hklo
  rw [F32.key_le_iff, hmax.2] at hkhi
  refine ⟨F32.isFinite_of_le hmin.1 hmax.1 hlo hhi, ?_, ?_⟩ <;> unfold F32.floorInt <;> omega

/-- The distance of the newer tap is the whole part of the delay: neither the saturation of `f2i` nor the twelve bits of
an address lose anything. -/
theorem tapDistance_eq {d : F32} (hfin : d.isFinite = true) (h0 : 0 ≤ d.floorInt) (h1 : d.floorInt ≤ 4095) :
    ((tapDistance d).toNat : Int) = d.floorInt := by
  obtain ⟨hffin, hfval⟩ := floor_spec d hfin
  have hi : F32.f2i 0 4095 d.floor = d.floorInt := by
    rw [f2i_finite _ _ _ hffin, hfval, Int.mul_ediv_cancel _ (by norm_num), min_eq_right h1, max_eq_right h0]
  rw [tapDistance, hi, BitVec.toNat_ofInt]
  omega

/-- Two taps at distances in 1 .. 4095 are at two addresses, neither of them the cursor's (43_delay_line.md R164). -/
theorem tapAddresses_distinct {i : BitVec 12} (hlo : 1 ≤ i.toNat) (hhi : i.toNat ≤ 4094) (w : BitVec 12) :
    w - i ≠ w ∧ w - i - 1 ≠ w ∧ w - i ≠ w - i - 1 := by
  refine ⟨?_, ?_, ?_⟩ <;> bv_omega

/-- Settles O37: the clamp bounds the delay, a NaN target included, and with it the distances of the taps. -/
theorem delayTapsAreStoredHistory : Obligations.DelayTapsAreStoredHistory := by
  intro m scale fs w d i
  obtain ⟨hlo, hhi⟩ := delaySamples_bounds m scale fs
  obtain ⟨hfin, h1, h2⟩ := floorInt_bounds (d := d) hlo hhi
  have hi : (i.toNat : Int) = d.floorInt := tapDistance_eq hfin (by omega) (by omega)
  have hilo : 1 ≤ i.toNat := by omega
  have hihi : i.toNat ≤ 4094 := by omega
  obtain ⟨hnewer, holder, hapart⟩ := tapAddresses_distinct hilo hihi w
  rw [literal_dMin, literal_dMax]
  exact ⟨hlo, hhi, delaySamples_of_isNaN, hilo, hihi, hnewer, holder, hapart, hi⟩

/-! ### The base delay (O39) -/

theorem eq_zero_or_neg_zero {z : F32} (h : z.isZero = true) : z = F32.zero ∨ z = F32.zero.neg := by
  have hmag := (F32.isZero_iff z).1 h
  cases hs : z.sign
  · exact .inl (F32.ext_sign_mag _ _ (hs.trans (by decide)) (hmag.trans (by decide)))
  · exact .inr (F32.ext_sign_mag _ _ (hs.trans (by decide)) (hmag.trans (by decide)))

theorem zero_mul_isZero {a b : F32} (ha : a.isZero = true) (hb : b.isFinite = true) : (a.mul b).isZero = true := by
  have hunits : a.units = 0 := by rw [F32.units, (F32.isZero_iff a).1 ha, F32.unitsOf_zero]
  have hmag : F32.roundMag 0 (2 ^ 149) ≤ 0 := F32.roundMag_le 0 _ 0 (Nat.zero_le _) (by positivity)
  rw [F32.mul_finite_eq _ _ (isFinite_of_isZero ha) hb, F32.isZero_iff, mag_round, hunits, zero_mul]
  exact Nat.le_zero.1 hmag

/-- Adding a modulation of either zero to the base delay leaves it at 5 ms, which is 240 frames at 48000 Hz
(43_delay_line.md R168). -/
theorem targetDelay_of_zero {m scale : F32} (hm : m.isZero = true) (hs : scale.isFinite = true) :
    targetDelay m scale (F32.literal 48000 1) = F32.literal 240 1 := by
  have hbase : Config.cfg.baseMs.add (Config.cfg.depthMs.mul (m.mul scale)) = Config.cfg.baseMs := by
    obtain hz | hz := eq_zero_or_neg_zero (zero_mul_isZero hm hs) <;> rw [hz] <;> decide +kernel
  rw [targetDelay, hbase]
  decide +kernel

/-- Settles O39: the target 240 is within the clamp's bounds and is its own whole part. -/
theorem baseDelayIs240At48k : Obligations.BaseDelayIs240At48k := by
  intro m scale hm hs
  have hd : delaySamples m scale (F32.literal 48000 1) = F32.literal 240 1 := by
    rw [delaySamples, targetDelay_of_zero hm hs]
    exact F32.clamp_within _ _ _ (by decide +kernel) (by decide +kernel)
  have h240 : (F32.literal 240 1).isFinite = true ∧ (F32.literal 240 1).floorInt = 240 := by decide +kernel
  have htap := tapDistance_eq h240.1 (by omega) (by omega)
  rw [hd]
  exact ⟨rfl, BitVec.eq_of_toNat_eq (by rw [h240.2] at htap; exact_mod_cast htap)⟩

/-! ### The stages DLYRD and DLYWR (O26, O27) -/

/-- Settles O26: the stage's meaning, its constants read as the decimals of R161 and R162. -/
theorem dlyrdInterpolatesTwoTaps : Obligations.DlyrdInterpolatesTwoTaps := by
  intro c s
  rw [literal_baseMs, literal_thousand, literal_dMin, literal_dMax]
  cases c <;> rfl

theorem exec_dlywr_eq (c : Channel) (s : State) :
    exec (.dlywr c) s = .next (s.setChannel c (delayPush (s.channel c) (s.frame.wires.dry c))) := rfl

/-- Settles O27: DLYWR pushes the dry sample, and a push writes one word and the cursor. -/
theorem dlywrStoresAndAdvances : Obligations.DlywrStoresAndAdvances := by
  intro c s hwf ch dry
  have hdry : s.frame.wires.dry c = dry := by cases c <;> rfl
  refine ⟨_, exec_dlywr_eq c s, ?_⟩
  rw [State.setChannel_same, hdry]
  refine ⟨dlyRead_delayPush_same hwf dry, ?_, fun a ha => Mem.readByte_writeWord_other _ _ _ _ ha, rfl, rfl⟩
  rw [delayPush_w, BitVec.toNat_add]
  rfl

end Sys2Proof.DelayLine

/-! PROOFS. The filter bank of 44_filter_bank.md: the designs that the latch computes (O16) and the stage FLT (O28). -/

namespace Sys2Proof.FilterBank

open Sys2Proof.Machine Sys2Proof.Latch

/-! ### The designs (O16) -/

theorem neg_two : F32.two.neg = F32.minusTwo := by decide

/-- The coefficients after the latch are the designs from FS and the active parameters (44_filter_bank.md R177). -/
theorem latch_takeFeed_coef (s : State) :
    (latch s.takeFeed).derived.coef =
      coefficients s.fs (latch s.takeFeed).active.lpCutoff (latch s.takeFeed).active.shelfDb
        (latch s.takeFeed).active.tiltDb :=
  congrArg Derived.coef (latch_takeFeed_derived s)

/-- Settles O16: with the decimals of R178 to R182 read as the model's constants, each section is, by definition, the
design that the latch computes for it. -/
theorem processDesignsTheFilters : Obligations.ProcessDesignsTheFilters := by
  intro channels frameCount s hr hp
  dsimp only
  rw [literal_one, literal_two, literal_forty, neg_two, literal_qLp, literal_nyqK, literal_fShelf, literal_fTilt]
  refine ⟨_, exec_process_eq channels frameCount s hr hp, ?_⟩
  rw [State.setFrame_derived, State.setFrame_active, latch_takeFeed_coef, coefficients]
  exact ⟨rfl, rfl, rfl, rfl⟩

/-! ### The stage FLT (O28) -/

/-- FLT takes its wire through the bank, and the rest of its channel keeps its value (44_filter_bank.md R184). -/
theorem exec_flt_eq (c : Channel) (s : State) :
    exec (.flt c) s =
      let r := bankStep s.derived.coef (s.channel c).z s.frame.wires.x
      .next ((s.setChannel c { s.channel c with z := r.2 }).setWires { s.frame.wires with x := r.1 }) := rfl

theorem setChannel_setWires (s : State) (c : Channel) (v : ChannelState) (w : Wires) :
    (s.setChannel c v).setWires w = { s.setChannel c v with frame := { s.frame with wires := w } } := by
  rw [State.setWires, State.setChannel_frame]

/-- Settles O28: the bank of the stage is its four section steps, each fed by the one before it (R183, R184). -/
theorem fltCascadesFourSections : Obligations.FltCascadesFourSections := by
  intro c s
  rw [exec_flt_eq, bankStep]
  simp only [setChannel_setWires, sectionStep]

end Sys2Proof.FilterBank

/-! PROOFS. The saturator of 45_saturator.md: the stage SAT (O29), and the isolation of the two channels that
its history and the mixer take part in (O55; 45_saturator.md R203, 48_mixer.md R245). -/

namespace Sys2Proof.Saturation

open Sys2Proof.Machine Sys2Proof.Memory Sys2Proof.Block Sys2Proof.DelayLine Sys2Proof.FilterBank

/-! ### One frame, register by register (O55) -/

theorem frameStep_modu (n : Word) (channels : BitVec 8) (s : State) :
    (frameStep n channels s).modu = (frameModulation s).2 := by
  rw [frameStep_eq]

/-- DROP finds the random source after the five draws of MOD and of the two NOISE stages. -/
theorem frameStep_drop_rng (n : Word) (channels : BitVec 8) (s : State) :
    ((frameStep n channels s).drop, (frameStep n channels s).rng) =
      dropResult s.derived s.fs s.drop (rngNext^[5] s.rng) := by
  rw [frameStep_eq]
  rfl

/-- Nothing is stored in a channel the host did not ask for, whichever channel's sample it is. -/
theorem memRead_storeSample_unasked {channels : BitVec 8} {n j : Word} {c d : Channel} {v : F32} {out : Mem}
    (h : ¬d.index < channels.toNat) : memRead (storeSample channels n c v out) d.index j = memRead out d.index j := by
  by_cases hcd : d.index = c.index
  · rw [storeSample, if_neg (hcd ▸ h)]
  · exact memRead_storeSample_other (.inl hcd)

/-- A frame writes in channel `c` of OUT its own sample, where the host asked for the channel, and nothing else
(40_host_commands.md R111). -/
theorem memRead_frameStep_channel {s : State} (h : s.outBuf.wf = true) (n j : Word) (channels : BitVec 8)
    (c : Channel) :
    memRead (frameStep n channels s).outBuf c.index j =
      if c.index < channels.toNat ∧ j = n then frameSample n channels s c else memRead s.outBuf c.index j := by
  by_cases hc : c.index < channels.toNat
  · by_cases hj : j = n
    · rw [if_pos ⟨hc, hj⟩, hj, memRead_frameStep_same h hc]
    · rw [if_neg fun e => hj e.2, memRead_frameStep_other hj]
  · rw [if_neg fun e => hc e.1, frameStep_outBuf, memRead_storeSample_unasked hc, memRead_storeSample_unasked hc]

/-! ### What a frame reads of channel `c`'s side (O55) -/

section
variable {c : Channel} {s t : State}

theorem dryInput_of_agreeOn (h : agreeOn c s t) (n : Word) (channels : BitVec 8) :
    dryInput s.inBuf n channels c = dryInput t.inBuf n channels c := by
  obtain ⟨-, -, -, -, -, -, -, input, -⟩ := h
  rw [dryInput, dryInput, input n]

theorem frameModulation_of_agreeOn (h : agreeOn c s t) : frameModulation s = frameModulation t := by
  obtain ⟨fs, active, -, -, modu, -, rng, -, -⟩ := h
  rw [frameModulation, frameModulation, fs, active, modu, rng]

/-- The channels share the random source, and each makes the same number of draws whatever it holds: so the source
carries nothing from one to the other. -/
theorem channelRng_of_agreeOn (h : agreeOn c s t) : channelRng s c = channelRng t c := by
  obtain ⟨-, -, -, -, -, -, rng, -, -⟩ := h
  cases c with
  | left => exact congrArg rngNext rng
  | right => exact congrArg (fun r => rngNext (rngNext (rngNext r))) rng

theorem frameSample_of_agreeOn (h : agreeOn c s t) (n : Word) (channels : BitVec 8) :
    frameSample n channels s c = frameSample n channels t c := by
  have dry := dryInput_of_agreeOn h n channels
  have modulation := frameModulation_of_agreeOn h
  have source := channelRng_of_agreeOn h
  obtain ⟨fs, active, derived, channel, -, drop, -, -, -⟩ := h
  rw [frameSample, frameSample, dry, modulation, source, fs, active, derived, channel, drop]

theorem channel_frameStep_of_agreeOn (h : agreeOn c s t) (n : Word) (channels : BitVec 8) :
    (frameStep n channels s).channel c = (frameStep n channels t).channel c := by
  have dry := dryInput_of_agreeOn h n channels
  have modulation := frameModulation_of_agreeOn h
  obtain ⟨fs, -, derived, channel, -, -, -, -, -⟩ := h
  rw [channel_frameStep, channel_frameStep, dry, modulation, fs, derived, channel]

theorem drop_rng_frameStep_of_agreeOn (h : agreeOn c s t) (n : Word) (channels : BitVec 8) :
    (frameStep n channels s).drop = (frameStep n channels t).drop ∧
      (frameStep n channels s).rng = (frameStep n channels t).rng := by
  obtain ⟨fs, -, derived, -, -, drop, rng, -, -⟩ := h
  rw [← Prod.mk.injEq, frameStep_drop_rng, frameStep_drop_rng, fs, derived, drop, rng]

theorem memRead_outBuf_frameStep_of_agreeOn (hs : s.outBuf.wf = true) (ht : t.outBuf.wf = true)
    (h : agreeOn c s t) (n j : Word) (channels : BitVec 8) :
    memRead (frameStep n channels s).outBuf c.index j = memRead (frameStep n channels t).outBuf c.index j := by
  have sample := frameSample_of_agreeOn h n channels
  obtain ⟨-, -, -, -, -, -, -, -, output⟩ := h
  rw [memRead_frameStep_channel hs, memRead_frameStep_channel ht, sample, output j]

/-! ### Isolation (O55) -/

theorem agreeOn_frameStep (hs : s.outBuf.wf = true) (ht : t.outBuf.wf = true) (h : agreeOn c s t) (n : Word)
    (channels : BitVec 8) : agreeOn c (frameStep n channels s) (frameStep n channels t) := by
  have keepS := frames_frame 1 n channels s
  have keepT := frames_frame 1 n channels t
  have channel := channel_frameStep_of_agreeOn h n channels
  have modulation := frameModulation_of_agreeOn h
  obtain ⟨drop, rng⟩ := drop_rng_frameStep_of_agreeOn h n channels
  have output := fun j => memRead_outBuf_frameStep_of_agreeOn hs ht h n j channels
  obtain ⟨fs, active, derived, -, -, -, -, input, -⟩ := h
  refine ⟨?_, ?_, ?_, channel, ?_, drop, rng, fun j => ?_, output⟩
  · exact keepS.fs.trans (fs.trans keepT.fs.symm)
  · exact keepS.active.trans (active.trans keepT.active.symm)
  · exact keepS.derived.trans (derived.trans keepT.derived.symm)
  · rw [frameStep_modu, frameStep_modu, modulation]
  · rw [frameStep_inBuf, frameStep_inBuf, input j]

end

/-- Settles O55: every frame keeps the agreement, and the canonical form of OUT that makes its words readable, so any
number of frames does. -/
theorem channelsAreIsolated : Obligations.ChannelsAreIsolated := by
  intro c k n channels s t hs ht h
  induction k generalizing n s t with
  | zero => exact h
  | succ k ih =>
    exact ih (n + 1) _ _ (frameStep_outBuf_wf hs n channels) (frameStep_outBuf_wf ht n channels)
      (agreeOn_frameStep hs ht h n channels)

/-! ### The stage SAT (O29) -/

/-- The divisor of the de-emphasis, `1.0 + SAT_K`, is the 1.5 that R201 names. -/
theorem literal_deEmphasis : F32.literal 3 2 = F32.one.add Config.cfg.satK := by decide +kernel

/-- SAT shapes its wire under the history of its channel, and puts the wire's old and new values in that history
(45_saturator.md R201). -/
theorem exec_sat_eq (c : Channel) (s : State) :
    exec (.sat c) s =
      let ch := s.channel c
      let y := saturated s.derived.drive s.frame.wires.x ch.xp ch.yp
      .next ((s.setChannel c { ch with xp := s.frame.wires.x, yp := y }).setWires { s.frame.wires with x := y }) := rfl

/-- Settles O29: with the decimals of R201 read as the model's constants, the obligation's `y` is, by definition, the
saturator's output. -/
theorem satShapesBetweenEmphasis : Obligations.SatShapesBetweenEmphasis := by
  intro c s
  rw [exec_sat_eq, literal_satK, literal_deEmphasis]
  simp only [setChannel_setWires, saturated, preEmphasis]

end Sys2Proof.Saturation

/-! PROOFS. The dropout scheduler of 46_dropout.md: the range of the envelope (O51), the envelope at rate zero (O41), the
gain at depth zero (O42), and the stages GENV, ENVSC (O25) and DROP (O31 to O33). -/

namespace Sys2Proof.DropoutStage

open Sys2Proof.Machine Sys2Proof.Registers Sys2Proof.Block Sys2Proof.DelayLine Sys2Proof.ModulationStage
open Sys2Proof.Saturation (frameStep_drop_rng)
open Sys2Proof.Latch (toNat_durationFrames)
open Sys2Proof.F32 (signed)

/-! ### What DROP makes of the dropout state, by rate and mode (46_dropout.md R212) -/

section
variable {g : Derived} {d : Dropout}

theorem dropResult_of_disabled (h : g.lambda.gt F32.zero = false) (fs : F32) (r : Word) :
    dropResult g fs d r = (⟨.waiting, -1, 0, relax d.env⟩, r) := by
  simp [dropResult, h]

theorem dropResult_of_waiting (h : g.lambda.gt F32.zero = true) (hm : d.mode = .waiting) (fs : F32) (r : Word) :
    dropResult g fs d r =
      let count := if d.count.toInt < 0 then intervalFrames g.lambda fs (uniform (rngNext r)) else d.count
      (if count = 0 then ⟨.dippingDown, 0, 0, relax d.env⟩ else ⟨.waiting, count - 1, d.phase, relax d.env⟩,
        if d.count.toInt < 0 then rngNext r else r) := by
  rw [dropResult, if_pos h, hm]
  dsimp only
  congr 1
  exact ite_congr rfl (fun h0 => by rw [h0]) fun _ => rfl

theorem dropResult_of_dippingDown (h : g.lambda.gt F32.zero = true) (hm : d.mode = .dippingDown) (fs : F32) (r : Word) :
    dropResult g fs d r =
      let p := phaseInc d.phase
      (⟨if (F32.ofInt p.toNat).ge g.half then .dippingUp else .dippingDown, d.count, p, dipDown g.half p⟩, r) := by
  rw [dropResult, if_pos h, hm]

theorem dropResult_of_dippingUp (h : g.lambda.gt F32.zero = true) (hm : d.mode = .dippingUp) (fs : F32) (r : Word) :
    dropResult g fs d r =
      let p := phaseInc d.phase
      if g.dur ≤ p then
        (⟨.waiting, intervalFrames g.lambda fs (uniform (rngNext r)), 0, dipUp g.half p⟩, rngNext r)
      else (⟨.dippingUp, d.count, p, dipUp g.half p⟩, r) := by
  rw [dropResult, if_pos h, hm]

/-- The envelope after DROP: relaxed where no event is in progress, else on the falling or on the rising half. -/
theorem dropResult_env_cases (g : Derived) (fs : F32) (d : Dropout) (r : Word) :
    (dropResult g fs d r).1.env = relax d.env ∨
      (dropResult g fs d r).1.env = dipDown g.half (phaseInc d.phase) ∨
      (dropResult g fs d r).1.env = dipUp g.half (phaseInc d.phase) := by
  rcases h : g.lambda.gt F32.zero with _ | _
  · exact .inl (by rw [dropResult_of_disabled h])
  · rcases hm : d.mode with _ | _ | _
    · refine .inl ?_
      rw [dropResult_of_waiting h hm]
      simp only [apply_ite Dropout.env, ite_self]
    · exact .inr (.inl (by rw [dropResult_of_dippingDown h hm]))
    · refine .inr (.inr ?_)
      rw [dropResult_of_dippingUp h hm]
      dsimp only
      split <;> rfl

end

/-! ### Values in [0, 1] -/

/-- `x` lies in [0, 1]. -/
def InUnit (x : F32) : Prop := F32.zero.le x = true ∧ x.le F32.one = true

theorem zero_value : F32.zero.isFinite = true ∧ F32.zero.toInt = 0 := by decide

theorem one_value : F32.one.isFinite = true ∧ F32.one.toInt = 2 ^ 149 := by decide

theorem InUnit.isFinite {x : F32} (h : InUnit x) : x.isFinite = true :=
  F32.isFinite_of_le zero_value.1 one_value.1 h.1 h.2

theorem InUnit.toInt_bounds {x : F32} (h : InUnit x) : 0 ≤ x.toInt ∧ x.toInt ≤ 2 ^ 149 := by
  obtain ⟨hlo, hhi⟩ := h
  obtain ⟨-, -, hk⟩ := (F32.le_iff _ _).1 hhi
  exact ⟨toInt_nonneg hlo, one_value.2 ▸ (F32.key_le_iff _ _).1 hk⟩

theorem InUnit.one : InUnit F32.one := ⟨by decide, by decide⟩

theorem InUnit.zero : InUnit F32.zero := ⟨by decide, by decide⟩

/-- Of two values that are no NaN the one that is not below the other is at or above it. -/
theorem le_of_not_lt {a b : F32} (ha : a.isNaN = false) (hb : b.isNaN = false) (h : ¬ a.lt b = true) :
    b.le a = true := by
  refine (F32.le_iff _ _).2 ⟨hb, ha, ?_⟩
  by_contra hk
  exact h ((F32.lt_iff _ _).2 ⟨ha, hb, by omega⟩)

/-- `min` with 1 brings a value at or above 0 into [0, 1]. -/
theorem inUnit_min_one {x : F32} (h : F32.zero.le x = true) : InUnit (F32.min F32.one x) := by
  obtain ⟨-, hx, -⟩ := (F32.le_iff _ _).1 h
  rw [F32.min]
  split
  · exact InUnit.one
  · next hlt => exact ⟨h, le_of_not_lt (by decide) hx hlt⟩

/-- `max` with 0 leaves no value below 0 but a NaN. -/
theorem zero_le_max_zero {x : F32} (h : x.isNaN = false) : F32.zero.le (F32.max F32.zero x) = true := by
  rw [F32.max]
  split
  · decide
  · next hgt => exact le_of_not_lt h (by decide) hgt

theorem inUnit_max_zero {x : F32} (h : x.le F32.one = true) : InUnit (F32.max F32.zero x) := by
  obtain ⟨hx, -, -⟩ := (F32.le_iff _ _).1 h
  refine ⟨zero_le_max_zero hx, ?_⟩
  rw [F32.max]
  split
  · decide
  · exact h

/-! ### The envelope's three laws keep it in [0, 1] (46_dropout.md R217) -/

/-- `HALF` is finite and at least one half (46_dropout.md R212). -/
def HalfOk (half : F32) : Prop := half.isFinite = true ∧ F32.half.le half = true

theorem HalfOk.toInt_ge {half : F32} (h : HalfOk half) : 2 ^ 148 ≤ half.toInt := by
  obtain ⟨-, -, hk⟩ := (F32.le_iff _ _).1 h.2
  have hhalf : F32.half.toInt = 2 ^ 148 := by decide
  exact hhalf ▸ (F32.key_le_iff _ _).1 hk

theorem relax_inUnit {env : F32} (h : InUnit env) : InUnit (relax env) := by
  have hrelax : Config.cfg.envRelax.isFinite = true ∧ 0 ≤ Config.cfg.envRelax.toInt := by decide
  have henv := h.toInt_bounds
  refine inUnit_min_one (F32.le_add _ _ _ h.isFinite hrelax.1 (by decide) ?_)
  rw [zero_value.2]
  omega

/-- `i2f` of a natural number is at or above each value that the number is at or above. -/
theorem le_ofInt {c : F32} {k : Nat} (hc : c.isNaN = false) (h : c.toInt ≤ k * 2 ^ 149) :
    c.le (F32.ofInt k) = true := by
  rw [F32.ofInt_nat]
  refine F32.le_round false _ 1 c one_pos hc ?_
  simpa [signed] using h

theorem ofInt_le {c : F32} {k : Nat} (hc : c.isNaN = false) (h : k * 2 ^ 149 ≤ c.toInt) :
    (F32.ofInt k).le c = true := by
  rw [F32.ofInt_nat]
  refine F32.round_le false _ 1 c one_pos hc ?_
  simpa [signed] using h

/-- `2^32`, above every 32-bit count of frames. -/
def twoPow32 : F32 := ⟨0x4F800000#32⟩

/-- `2^33`, above every 32-bit count of frames over one half. -/
def twoPow33 : F32 := ⟨0x50000000#32⟩

theorem twoPow32_value : twoPow32.isFinite = true ∧ twoPow32.toInt = 2 ^ 32 * 2 ^ 149 := by decide

theorem twoPow33_value : twoPow33.isFinite = true ∧ twoPow33.toInt = 2 ^ 33 * 2 ^ 149 := by decide

/-- A 32-bit count of frames as a value is finite and lies in [0, 2^32]. -/
theorem ofInt_count (p : BitVec 32) :
    (F32.ofInt p.toNat).isFinite = true ∧ 0 ≤ (F32.ofInt p.toNat).toInt ∧
      (F32.ofInt p.toNat).toInt ≤ 2 ^ 32 * 2 ^ 149 := by
  have hp := p.isLt
  have hlo : F32.zero.le (F32.ofInt p.toNat) = true := le_ofInt (by decide) (by rw [zero_value.2]; positivity)
  have hhi : (F32.ofInt p.toNat).le twoPow32 = true :=
    ofInt_le (by decide) (by rw [twoPow32_value.2]; omega)
  obtain ⟨-, -, hk⟩ := (F32.le_iff _ _).1 hhi
  exact ⟨F32.isFinite_of_le zero_value.1 twoPow32_value.1 hlo hhi, toInt_nonneg hlo,
    twoPow32_value.2 ▸ (F32.key_le_iff _ _).1 hk⟩

/-- The phase over `HALF` is finite and at or above 0: `HALF` is too large for the quotient to overflow. -/
theorem phase_div_half {half : F32} (h : HalfOk half) (p : BitVec 32) :
    ((F32.ofInt p.toNat).div half).isFinite = true ∧ 0 ≤ ((F32.ofInt p.toNat).div half).toInt := by
  obtain ⟨hfin, hnonneg, hle⟩ := ofInt_count p
  have hhalf := h.toInt_ge
  have hlo : F32.zero.le ((F32.ofInt p.toNat).div half) = true :=
    F32.le_div _ _ _ hfin h.1 (by omega) (by decide) (by rw [zero_value.2]; omega)
  have hhi : ((F32.ofInt p.toNat).div half).le twoPow33 = true :=
    F32.div_le _ _ _ hfin h.1 (by omega) (by decide) (by rw [twoPow33_value.2]; omega)
  exact ⟨F32.isFinite_of_le zero_value.1 twoPow33_value.1 hlo hhi, toInt_nonneg hlo⟩

theorem dipDown_inUnit {half : F32} (h : HalfOk half) (p : BitVec 32) : InUnit (dipDown half p) := by
  obtain ⟨hfin, hnonneg⟩ := phase_div_half h p
  exact inUnit_max_zero (F32.sub_le _ _ _ one_value.1 hfin (by decide) (by omega))

/-- On the rising half the quotient may overflow to an infinity, but it is no NaN. -/
theorem dipUp_inUnit {half : F32} (h : HalfOk half) (p : BitVec 32) : InUnit (dipUp half p) := by
  obtain ⟨hfin, hnonneg, -⟩ := ofInt_count p
  have hhalf := h.toInt_ge
  obtain ⟨-, -, hzero⟩ := F32.toInt_pos half (by omega)
  have hlo : half.neg.le ((F32.ofInt p.toNat).sub half) = true :=
    F32.le_sub _ _ _ hfin h.1 (by rw [F32.isNaN_neg]; exact F32.isNaN_of_isFinite _ h.1)
      (by rw [F32.toInt_neg]; omega)
  have hhi : ((F32.ofInt p.toNat).sub half).le (F32.ofInt p.toNat) = true :=
    F32.sub_le _ _ _ hfin h.1 (F32.isNaN_of_isFinite _ hfin) (by omega)
  have hnum := F32.isFinite_of_le (by rw [F32.isFinite_neg]; exact h.1) hfin hlo hhi
  exact inUnit_min_one (zero_le_max_zero (F32.div_notNaN _ _ hnum h.1 hzero))

theorem dropResult_env_inUnit {g : Derived} {d : Dropout} (hg : HalfOk g.half) (hd : InUnit d.env) (fs : F32)
    (r : Word) : InUnit (dropResult g fs d r).1.env := by
  obtain he | he | he := dropResult_env_cases g fs d r <;> rw [he]
  · exact relax_inUnit hd
  · exact dipDown_inUnit hg _
  · exact dipUp_inUnit hg _

/-! ### The latched `HALF` -/

/-- `DUR` is at least one frame (40_host_commands.md R107). -/
theorem one_le_durationFrames (fs ms : F32) : 1 ≤ (durationFrames fs ms).toNat := by
  have h := toNat_durationFrames fs ms
  omega

theorem latchDerived_half (fs : F32) (a : Params) :
    (latchDerived fs a).half = (F32.ofInt (durationFrames fs a.dropDur).toNat).div F32.two := rfl

theorem latchDerived_halfOk (fs : F32) (a : Params) : HalfOk (latchDerived fs a).half := by
  have hdur := one_le_durationFrames fs a.dropDur
  rw [latchDerived_half]
  generalize durationFrames fs a.dropDur = dur at *
  obtain ⟨hfin, -, hle⟩ := ofInt_count dur
  have htwo : F32.two.isFinite = true ∧ F32.two.toInt = 2 * 2 ^ 149 := by decide
  have hhalf : F32.half.isFinite = true ∧ F32.half.toInt = 2 ^ 148 := by decide
  have hge : F32.one.le (F32.ofInt dur.toNat) = true := le_ofInt (by decide) (by rw [one_value.2]; omega)
  obtain ⟨-, -, hk⟩ := (F32.le_iff _ _).1 hge
  rw [F32.key_le_iff, one_value.2] at hk
  have hlo : F32.half.le ((F32.ofInt dur.toNat).div F32.two) = true :=
    F32.le_div _ _ _ hfin htwo.1 (by omega) (by decide) (by rw [hhalf.2, htwo.2]; omega)
  have hhi : ((F32.ofInt dur.toNat).div F32.two).le twoPow32 = true :=
    F32.div_le _ _ _ hfin htwo.1 (by omega) (by decide)
      (by rw [twoPow32_value.2, htwo.2]; omega)
  exact ⟨F32.isFinite_of_le hhalf.1 twoPow32_value.1 hlo hhi, hlo⟩

/-! ### The invariant (O51) -/

theorem envelopeOk_iff (s : State) :
    s.envelopeOk = true ↔ InUnit s.drop.env ∧ (s.frame.stage ≠ none → HalfOk s.derived.half) := by
  unfold State.envelopeOk InUnit HalfOk
  rcases s.frame.stage with _ | id <;> simp [F32.ge]

/-- Only DROP needs `HALF` to keep the envelope; RESET writes a 1. -/
theorem env_inUnit_of_writes {i : Instr} {s t : State} (hw : Writes s i t) (h : InUnit s.drop.env)
    (hhalf : i = .drop → HalfOk s.derived.half) : InUnit t.drop.env := by
  cases hw with
  | reset => exact InUnit.one
  | drop => exact dropResult_env_inUnit (hhalf rfl) h s.fs s.rng
  | _ => simpa using h

/-- A stage runs with `HALF` in its range, and writes no derived register. -/
theorem envelopeOk_afterStage {id : BitVec 5} {i : Instr} {s u : State} (hid : s.frame.stage = some id)
    (hd : decodeStage id = some i) (hu : exec i s = .next u) (h : s.envelopeOk = true) :
    (afterStage u).envelopeOk = true := by
  obtain ⟨henv, hhalf⟩ := (envelopeOk_iff s).1 h
  have half : HalfOk s.derived.half := hhalf (by simp [hid])
  have hderived := (stageFrame_of_exec hd hu).derived
  have henv' : InUnit u.drop.env := env_inUnit_of_writes (exec_writes hu) henv fun _ => half
  exact (envelopeOk_iff _).2 ⟨henv', fun _ => by
    rw [afterStage_derived, hderived]
    exact half⟩

/-- RESET and SETPARAMS begin no frame, and PROCESS begins one with the `HALF` it latches. -/
theorem envelopeOk_afterCommand {ws rest : List Word} {i : Instr} {s u : State}
    (hd : decodeCommand ws = .command i rest) (hu : exec i s = .next u) (hstage : s.frame.stage = none)
    (h : InUnit s.drop.env) : (afterCommand u).envelopeOk = true := by
  rw [envelopeOk_iff]
  obtain ⟨fs, block, -, -, rfl⟩ | ⟨v, p, -, -, rfl⟩ | ⟨channels, frameCount, -, -, -, rfl⟩ :=
    command_cases ws rest i s u hd hu
  · exact ⟨InUnit.one, fun hne => absurd hstage hne⟩
  · exact ⟨h, fun hne => absurd hstage hne⟩
  · rw [takeFeed_spec, latch_spec]
    exact ⟨h, fun _ => latchDerived_halfOk _ _⟩

/-- Settles O51: each law of the envelope keeps it in [0, 1], two of them by the range of the latched `HALF`. -/
theorem stepKeepsTheEnvelopeBounded : Obligations.StepKeepsTheEnvelopeBounded := by
  intro s t hs h
  obtain ⟨-, rfl⟩ | ⟨id, i, u, -, hid, hd, hu, rfl⟩ | ⟨i, rest, u, -, hid, hd, hu, rfl⟩ | ⟨-, -, -, rfl⟩ :=
    step_cases s t h
  · exact (envelopeOk_iff _).2 ⟨InUnit.zero, fun hne => absurd rfl hne⟩
  · exact envelopeOk_afterStage hid hd hu hs
  · exact envelopeOk_afterCommand hd hu hid ((envelopeOk_iff s).1 hs).1
  · exact hs

/-! ### The envelope at rate zero (O41) -/

theorem relax_one : relax F32.one = F32.one := by decide +kernel

/-- At rate zero a frame leaves Waiting, no interval, and the envelope relaxed (46_dropout.md R215). -/
theorem frameStep_drop_of_disabled {s : State} (h : s.derived.lambda.gt F32.zero = false) (n : Word)
    (channels : BitVec 8) : (frameStep n channels s).drop = ⟨.waiting, -1, 0, relax s.drop.env⟩ := by
  have drop := congrArg Prod.fst (frameStep_drop_rng n channels s)
  rwa [dropResult_of_disabled h] at drop

/-- Settles O41: by induction on the frames, each of which finds `LAMBDA` as it was and relaxes an envelope of 1 to 1. -/
theorem envelopePinnedAtRateZero : Obligations.EnvelopePinnedAtRateZero := by
  intro k n channels s hl henv
  rw [literal_one] at henv ⊢
  induction k generalizing n s with
  | zero =>
    dsimp only [frames]
    rw [frameStep_drop_of_disabled hl, henv, relax_one]
  | succ k ih =>
    have hderived := (frames_frame 1 n channels s).derived
    have hdrop := frameStep_drop_of_disabled hl n channels
    exact ih (n + 1) (frameStep n channels s) (by rw [← hl]; exact congrArg (·.lambda.gt F32.zero) hderived)
      (by rw [hdrop, henv, relax_one])

/-! ### The stages GENV and ENVSC (O42, O25) -/

theorem exec_genv_eq (s : State) :
    exec .genv s = .next
      (s.setWires { s.frame.wires with genv := envelopeGain s.active.dropDepth s.drop.env }) := rfl

/-- At a depth of either zero the product is a zero, and 1 less a zero is 1. -/
theorem envelopeGain_of_zero {depth env : F32} (hd : depth.isZero = true) (he : InUnit env) :
    envelopeGain depth env = F32.one := by
  have hbounds := he.toInt_bounds
  have hlo : F32.zero.le (F32.one.sub env) = true :=
    F32.le_sub _ _ _ one_value.1 he.isFinite (by decide) (by rw [zero_value.2, one_value.2]; omega)
  have hhi : (F32.one.sub env).le F32.one = true :=
    F32.sub_le _ _ _ one_value.1 he.isFinite (by decide) (by omega)
  have hfin : (F32.one.sub env).isFinite = true := InUnit.isFinite ⟨hlo, hhi⟩
  rw [envelopeGain]
  obtain hz | hz := eq_zero_or_neg_zero (zero_mul_isZero hd hfin) <;> rw [hz] <;> decide +kernel

/-- Settles O42: 1 less the envelope is finite, so the depth's zero makes the product a zero. -/
theorem depthZeroGivesUnityGain : Obligations.DepthZeroGivesUnityGain := by
  intro s hd hlo hhi
  rw [literal_one] at hhi ⊢
  exact ⟨_, exec_genv_eq s, envelopeGain_of_zero hd ⟨hlo, hhi⟩⟩

/-- Settles O25: the two stages' meanings, the constant read as the decimal of R214. -/
theorem envelopeGainAndScaling : Obligations.EnvelopeGainAndScaling := by
  rw [Obligations.EnvelopeGainAndScaling, literal_one]
  exact ⟨exec_genv_eq, fun _ _ => rfl⟩

/-! ### The stage DROP (O31 to O33) -/

theorem exec_drop_eq (s : State) :
    exec .drop s = .next
      { s with
        drop := (dropResult s.derived s.fs s.drop s.rng).1
        rng := (dropResult s.derived s.fs s.drop s.rng).2 } :=
  congrArg Host.Outcome.next (dropStep_eq s)

/-- Settles O31: DROP's case of a rate not above zero. -/
theorem dropDisabledAtRateZero : Obligations.DropDisabledAtRateZero := by
  intro s h
  rw [exec_drop_eq, dropResult_of_disabled h, literal_one, literal_envRelax]
  rfl

/-- Settles O32: DROP's case of Waiting at a positive rate. -/
theorem dropWaitingCountsDown : Obligations.DropWaitingCountsDown := by
  intro s h hm
  rw [exec_drop_eq, dropResult_of_waiting h hm, literal_one, literal_envRelax]
  rfl

/-- Settles O33: DROP's cases of the two halves of an event. -/
theorem dropDipsDownAndUp : Obligations.DropDipsDownAndUp := by
  intro s h
  rw [literal_one]
  refine ⟨fun hm => ?_, fun hm => ?_⟩
  · rw [exec_drop_eq, dropResult_of_dippingDown h hm]
    rfl
  · rw [exec_drop_eq, dropResult_of_dippingUp h hm]
    by_cases hend : s.derived.dur ≤ phaseInc s.drop.phase
    · rw [if_pos hend]
      exact congrArg Host.Outcome.next (if_pos hend).symm
    · rw [if_neg hend]
      exact congrArg Host.Outcome.next (if_neg hend).symm

end Sys2Proof.DropoutStage

/-! PROOFS. Zeros and bounds in the number system: which operations keep a zero of either sign, and in which range a
rounded result lies. The noise, the hum and the silence after a RESET need both (47_noise_hum.md R235). -/

namespace Sys2Proof.ZeroBounds

open Sys2Proof.Machine Sys2Proof.Rounding Sys2Proof.Block Sys2Proof.DelayLine Sys2Proof.DropoutStage

/-! ### Zeros of either sign -/

/-- Comparing equal to zero is being a zero, of either sign (00_scope.md R10). -/
theorem eq_zero_iff_isZero (x : F32) : x.eq F32.zero = true ↔ x.isZero = true := by
  rw [F32.eq_iff, F32.isZero_iff, show F32.zero.key = 0 by decide]
  constructor
  · rintro ⟨-, -, hk⟩
    unfold F32.key at hk
    split at hk <;> omega
  · intro h
    have hz := (F32.isZero_iff x).2 h
    exact ⟨x.isNaN_of_isFinite (isFinite_of_isZero hz), by decide, key_of_isZero hz⟩

theorem add_isZero {a b : F32} (ha : a.isZero = true) (hb : b.isZero = true) : (a.add b).isZero = true := by
  obtain rfl | rfl := eq_zero_or_neg_zero ha <;> obtain rfl | rfl := eq_zero_or_neg_zero hb <;> decide

theorem sub_isZero {a b : F32} (ha : a.isZero = true) (hb : b.isZero = true) : (a.sub b).isZero = true := by
  obtain rfl | rfl := eq_zero_or_neg_zero ha <;> obtain rfl | rfl := eq_zero_or_neg_zero hb <;> decide

theorem mul_zero_isZero {a b : F32} (ha : a.isFinite = true) (hb : b.isZero = true) : (a.mul b).isZero = true := by
  have hcomm : (a.mul b).mag = (b.mul a).mag := by
    rw [F32.mul_finite_eq _ _ ha (isFinite_of_isZero hb), F32.mul_finite_eq _ _ (isFinite_of_isZero hb) ha, mag_round,
      mag_round, Nat.mul_comm]
  rw [F32.isZero_iff, hcomm, ← F32.isZero_iff]
  exact zero_mul_isZero hb ha

theorem zero_div_isZero {a b : F32} (ha : a.isZero = true) (hb : b.isFinite = true) (h0 : b.isZero = false) :
    (a.div b).isZero = true := by
  have hunits : a.units = 0 := by rw [F32.units, (F32.isZero_iff a).1 ha, F32.unitsOf_zero]
  have hmag : F32.roundMag 0 b.units ≤ 0 := F32.roundMag_le 0 _ 0 (Nat.zero_le _) (F32.units_pos b h0)
  rw [F32.div_finite_eq _ _ (isFinite_of_isZero ha) hb h0, F32.isZero_iff, mag_round, hunits, zero_mul]
  exact Nat.le_zero.1 hmag

/-- 1 less a zero of either sign is representable, so it is 1. -/
theorem one_sub_zero {z : F32} (h : z.isZero = true) : F32.one.sub z = F32.one := by
  obtain ⟨s, he, hs⟩ := F32.sub_finite_eq F32.one z one_value.1 (isFinite_of_isZero h)
  rw [toInt_of_isZero h, sub_zero, one_value.2] at he hs
  have hsign : s = F32.one.sign := by
    cases s with
    | false => decide
    | true => exact absurd hs (by decide)
  rw [he, hsign]
  exact F32.round_exact F32.one _ 1 one_pos (by decide) (by decide)

/-! ### Values between `-c` and `c` -/

theorem two_value : F32.two.isFinite = true ∧ F32.two.toInt = 2 * 2 ^ 149 := by decide

theorem three_value : F32.three.isFinite = true ∧ F32.three.toInt = 3 * 2 ^ 149 := by decide

/-- `x` lies in [-c, c]. -/
def Within (c x : F32) : Prop := c.neg.le x = true ∧ x.le c = true

section
variable {a b c x : F32}

theorem Within.isFinite (h : Within c x) (hc : c.isFinite = true) : x.isFinite = true :=
  F32.isFinite_of_le (by rwa [F32.isFinite_neg]) hc h.1 h.2

theorem Within.abs_toInt_le (h : Within c x) : |x.toInt| ≤ c.toInt := by
  obtain ⟨-, -, hlo⟩ := (F32.le_iff _ _).1 h.1
  obtain ⟨-, -, hhi⟩ := (F32.le_iff _ _).1 h.2
  rw [F32.key_le_iff] at hlo hhi
  rw [F32.toInt_neg] at hlo
  exact abs_le.2 ⟨hlo, hhi⟩

theorem within_add (ha : a.isFinite = true) (hb : b.isFinite = true) (hc : c.isFinite = true)
    (h : |a.toInt + b.toInt| ≤ c.toInt) : Within c (a.add b) := by
  have hn := c.isNaN_of_isFinite hc
  obtain ⟨hlo, hhi⟩ := abs_le.1 h
  exact ⟨F32.le_add _ _ _ ha hb (by rwa [F32.isNaN_neg]) (by rwa [F32.toInt_neg]), F32.add_le _ _ _ ha hb hn hhi⟩

theorem within_sub (ha : a.isFinite = true) (hb : b.isFinite = true) (hc : c.isFinite = true)
    (h : |a.toInt - b.toInt| ≤ c.toInt) : Within c (a.sub b) := by
  have hn := c.isNaN_of_isFinite hc
  obtain ⟨hlo, hhi⟩ := abs_le.1 h
  exact ⟨F32.le_sub _ _ _ ha hb (by rwa [F32.isNaN_neg]) (by rwa [F32.toInt_neg]), F32.sub_le _ _ _ ha hb hn hhi⟩

theorem within_mul (ha : a.isFinite = true) (hb : b.isFinite = true) (hc : c.isFinite = true)
    (h : |a.toInt| * |b.toInt| ≤ c.toInt * 2 ^ 149) : Within c (a.mul b) := by
  have hn := c.isNaN_of_isFinite hc
  rw [← abs_mul] at h
  obtain ⟨hlo, hhi⟩ := abs_le.1 h
  refine ⟨F32.le_mul _ _ _ ha hb (by rwa [F32.isNaN_neg]) ?_, F32.mul_le _ _ _ ha hb hn hhi⟩
  rwa [F32.toInt_neg, Int.neg_mul]

/-- A product with a factor in [-1, 1] stays within what bounds the other factor. -/
theorem Within.mul_of_le_one (h : Within c x) (hc : c.isFinite = true) (hb : b.isFinite = true)
    (h1 : |b.toInt| ≤ 2 ^ 149) : Within c (b.mul x) := by
  refine within_mul hb (h.isFinite hc) hc ?_
  rw [mul_comm c.toInt]
  exact mul_le_mul h1 h.abs_toInt_le (abs_nonneg _) (by positivity)

end

/-- The greatest finite value is too far below the overflow midpoint for a subtraction from 1 to overflow. -/
theorem one_sub_isFinite {x : F32} (h : x.isFinite = true) : (F32.one.sub x).isFinite = true := by
  obtain ⟨-, hfinite, -⟩ := sub_correctlyRounded F32.one x one_value.1 h
  have hunits : x.units ≤ (2 ^ 24 - 1) * 2 ^ 253 := by
    have hmag := (F32.isFinite_iff x).1 h
    rw [← unitsOf_maxFinite]
    exact (F32.unitsOf_le_iff _ _).2 (by omega)
  have habs := F32.natAbs_toInt x
  rw [hfinite, one_value.2, abs_one, mul_one, abs_lt]
  constructor <;> omega

/-- A wrapped finite value lies in [0, 1]; a rounding can reach the 1 (00_scope.md R13). -/
theorem wrap_inUnit {x : F32} (h : x.isFinite = true) : InUnit (F32.wrap x) := by
  obtain ⟨hfin, hval⟩ := floor_spec x h
  have hfloor : x.floor.toInt ≤ x.toInt ∧ x.toInt ≤ x.floor.toInt + 2 ^ 149 := by
    rw [hval, F32.floorInt]
    omega
  exact ⟨F32.le_sub _ _ _ h hfin (by decide) (by rw [zero_value.2]; omega),
    F32.sub_le _ _ _ h hfin (by decide) (by rw [one_value.2]; omega)⟩

end Sys2Proof.ZeroBounds

/-! PROOFS. The noise and the hum of 47_noise_hum.md: the stages HUM (O23) and NOISE (O24), and what an amplitude of zero
makes of them (O43; R235). -/

namespace Sys2Proof.NoiseHumStage

open Sys2Proof.Machine Sys2Proof.Block Sys2Proof.DelayLine Sys2Proof.DropoutStage Sys2Proof.ZeroBounds
open Sys2Proof.Random (uniform_exact)

/-! ### The stages HUM and NOISE (O23, O24) -/

theorem exec_hum_eq (s : State) :
    exec .hum s = .next (s.setWires { s.frame.wires with hum := humNow s }) := rfl

/-- Settles O23: the stage's meaning, its constants read as the decimals of R231. -/
theorem humSumsThreeHarmonics : Obligations.HumSumsThreeHarmonics := by
  intro s
  rw [exec_hum_eq, literal_humH2, literal_humH3, literal_two, literal_three]
  rfl

theorem exec_noise_eq (c : Channel) (s : State) :
    exec (.noise c) s = .next
      ({ s with rng := rngNext (rngNext s.rng) }.setWires
        { s.frame.wires with
          nz := noiseValue s.derived.noiseAmp (uniform (rngNext s.rng)) (uniform (rngNext (rngNext s.rng))) }) := rfl

/-- Settles O24: the stage's meaning, its constants read as the decimals of R230 and R132. -/
theorem noiseDrawsTwice : Obligations.NoiseDrawsTwice := by
  intro c s
  rw [exec_noise_eq, literal_twoPowMinus23, literal_one]
  rfl

/-! ### A noise amplitude of zero (O43) -/

/-- A draw is finite and lies in [0, 1) (41_random_source.md R132). -/
theorem uniform_bounds (w : Word) :
    (uniform w).isFinite = true ∧ 0 ≤ (uniform w).toInt ∧ (uniform w).toInt < 2 ^ 149 := by
  obtain ⟨hfin, hval⟩ := uniform_exact w
  have hw := w.isLt
  refine ⟨hfin, ?_, ?_⟩ <;> rw [hval] <;> omega

/-- The centred sum of two draws is finite, so that an amplitude of zero makes it a zero. -/
theorem noiseValue_isZero {amp : F32} (h : amp.isZero = true) (v w : Word) :
    (noiseValue amp (uniform v) (uniform w)).isZero = true := by
  obtain ⟨hv, hv0, hv1⟩ := uniform_bounds v
  obtain ⟨hw, hw0, hw1⟩ := uniform_bounds w
  have hsum : Within F32.two ((uniform v).add (uniform w)) :=
    within_add hv hw two_value.1 (by rw [two_value.2, abs_le]; omega)
  have hbound := abs_le.1 hsum.abs_toInt_le
  rw [two_value.2] at hbound
  have hcentred : Within F32.three (((uniform v).add (uniform w)).sub F32.one) :=
    within_sub (hsum.isFinite two_value.1) one_value.1 three_value.1
      (by rw [three_value.2, one_value.2, abs_le]; omega)
  exact zero_mul_isZero h (hcentred.isFinite three_value.1)

/-- Settles O43: the two draws are made whatever the amplitude, and it multiplies a finite value. -/
theorem zeroNoiseAmplitudeGivesZero : Obligations.ZeroNoiseAmplitudeGivesZero := fun c s h =>
  ⟨_, exec_noise_eq c s, noiseValue_isZero h _ _, rfl⟩

/-! ### A hum amplitude of zero -/

/-- The angle of the first harmonic lies in [-TWO_PI, TWO_PI]. -/
theorem humAngle_within {ph : F32} (h : InUnit ph) : Within F32.twoPi (F32.twoPi.mul ph) := by
  have htwoPi : F32.twoPi.isFinite = true ∧ 0 ≤ F32.twoPi.toInt := by decide
  obtain ⟨hlo, hhi⟩ := h.toInt_bounds
  refine within_mul htwoPi.1 h.isFinite htwoPi.1 ?_
  rw [abs_of_nonneg htwoPi.2, abs_of_nonneg hlo]
  exact mul_le_mul_of_nonneg_left hhi htwoPi.2

/-- The angle of a harmonic up to the third is finite. -/
theorem harmonicAngle_isFinite {k a : F32} (hk : k.isFinite = true) (hk3 : |k.toInt| ≤ 3 * 2 ^ 149)
    (ha : Within F32.twoPi a) : (k.mul a).isFinite = true := by
  have htwoPi : F32.twoPi.isFinite = true ∧ F32.twoPi.toInt ≤ 7 * 2 ^ 149 := by decide
  have hforty : F32.forty.isFinite = true ∧ F32.forty.toInt = 40 * 2 ^ 149 := by decide
  refine (within_mul hk (ha.isFinite htwoPi.1) hforty.1 ?_).isFinite hforty.1
  calc |k.toInt| * |a.toInt| ≤ 3 * 2 ^ 149 * (7 * 2 ^ 149) :=
        mul_le_mul hk3 (ha.abs_toInt_le.trans htwoPi.2) (abs_nonneg _) (by positivity)
    _ ≤ F32.forty.toInt * 2 ^ 149 := by rw [hforty.2]; norm_num

/-- A harmonic of weight at most 1 lies in [-1, 1] (00_scope.md R11, `SINB`). -/
theorem harmonic_within {k a : F32} (hk : k.isFinite = true) (hk1 : |k.toInt| ≤ 2 ^ 149) (ha : a.isFinite = true) :
    Within F32.one (k.mul (Config.library.sin a)) :=
  Within.mul_of_le_one (Config.library.sin_bound a ha) one_value.1 hk hk1

theorem harmonicSum_isFinite {x y z : F32} (hx : Within F32.one x) (hy : Within F32.one y) (hz : Within F32.one z) :
    ((x.add y).add z).isFinite = true := by
  have hx1 := abs_le.1 hx.abs_toInt_le
  have hy1 := abs_le.1 hy.abs_toInt_le
  have hz1 := abs_le.1 hz.abs_toInt_le
  rw [one_value.2] at hx1 hy1 hz1
  have hpair : Within F32.two (x.add y) :=
    within_add (hx.isFinite one_value.1) (hy.isFinite one_value.1) two_value.1 (by rw [two_value.2, abs_le]; omega)
  have hpair2 := abs_le.1 hpair.abs_toInt_le
  rw [two_value.2] at hpair2
  have hall : Within F32.three ((x.add y).add z) :=
    within_add (hpair.isFinite two_value.1) (hz.isFinite one_value.1) three_value.1
      (by rw [three_value.2, abs_le]; omega)
  exact hall.isFinite three_value.1

/-- An amplitude of zero makes the hum of a phase in [0, 1] a zero: the three harmonics have a finite sum
(47_noise_hum.md R235). -/
theorem humValue_isZero {amp ph : F32} (h : amp.isZero = true) (hph : InUnit ph) : (humValue amp ph).isZero = true := by
  have hangle := humAngle_within hph
  have hfirst : Within F32.one (Config.library.sin (F32.twoPi.mul ph)) :=
    Config.library.sin_bound _ (hangle.isFinite (by decide))
  have hsecond := harmonic_within (k := Config.cfg.humH2) (by decide) (by decide)
    (harmonicAngle_isFinite (k := F32.two) (by decide) (by decide) hangle)
  have hthird := harmonic_within (k := Config.cfg.humH3) (by decide) (by decide)
    (harmonicAngle_isFinite (k := F32.three) (by decide) (by decide) hangle)
  exact zero_mul_isZero h (harmonicSum_isFinite hfirst hsecond hthird)

end Sys2Proof.NoiseHumStage

/-! PROOFS. The mixer of 48_mixer.md: the stage MIX (O30) and its bypass (O45). -/

namespace Sys2Proof.MixerStage

open Sys2Proof.Machine Sys2Proof.Block Sys2Proof.ZeroBounds

/-! ### The stage MIX (O30) -/

theorem exec_mix_eq (c : Channel) (s : State) :
    exec (.mix c) s = .next
      (s.setWires
        { s.frame.wires with
          o := blend s.active.mix s.derived.outGain (s.frame.wires.dry c)
            (wetSignal s.frame.wires.x s.frame.wires.nz s.frame.wires.hum) }) := rfl

/-- Settles O30: the stage's meaning, its constants read as the decimals of R241. -/
theorem mixBlendsDryAndWet : Obligations.MixBlendsDryAndWet := by
  intro c s
  rw [exec_mix_eq, literal_zero, literal_one]
  cases c <;> rfl

/-! ### The bypass (O45) -/

/-- Through the bypass the wet signal does not reach the output, a NaN included (48_mixer.md R242). -/
theorem blend_of_mix_zero {mix : F32} (h : mix.eq F32.zero = true) (gain dry wet : F32) :
    blend mix gain dry wet = dry.mul gain := if_pos h

/-- A value above zero is clamped into [0, 1] without becoming a zero. -/
theorem clamp_unit_of_pos {x : F32} (h : x.gt F32.zero = true) :
    (Range.clamp Config.cfg.unit x).isZero = false := by
  have hge : x.ge F32.zero = true := by
    obtain ⟨hx, hz, hk⟩ := (F32.gt_iff _ _).1 h
    exact (F32.ge_iff _ _).2 ⟨hx, hz, hk.le⟩
  have hclamp : Range.clamp Config.cfg.unit x = if x.gt F32.one then F32.one else x := by
    change F32.clamp x F32.zero F32.one = _
    rw [F32.clamp, hge]
    rfl
  rw [hclamp]
  split
  · decide
  · exact ((Commands.gt_zero_iff x).1 h).2.2

/-- Settles O45: the clamp into [0, 1] gives a zero exactly for what is not above zero, and the bypass reads no wet
value. -/
theorem mixZeroIsTheDrySignal : Obligations.MixZeroIsTheDrySignal := by
  refine ⟨fun fs p => ?_, fun c s h => ⟨_, exec_mix_eq c s, blend_of_mix_zero h _ _ _⟩⟩
  rw [eq_zero_iff_isZero]
  refine ⟨fun hz => ?_, clamp_isZero (hi := F32.one) (by decide)⟩
  by_contra hnot
  have hpos : p.mix.gt F32.zero = true := (Commands.gt_zero_iff _).2 (by simpa [and_comm] using hnot)
  exact Bool.eq_false_iff.1 (clamp_unit_of_pos hpos) hz

end Sys2Proof.MixerStage

/-! PROOFS. The faults of 60_exceptions.md and the reset of 70_reset_and_hazards.md, a step at a time: a block in progress
(O53), the reset input (O9) and the power-on state (O52). -/

namespace Sys2Proof.ResetStep

open Sys2Proof.Machine Sys2Proof.Registers Sys2Proof.Memory Sys2Proof.DropoutStage
open Sys2Proof.Decoding (step_of_stage)

/-! ### A block in progress (O53) -/

theorem step_of_resetPin {s : State} (h : s.resetPin = true) : step s = .next s.powerOn := by
  rw [step, stepOnce, if_pos h]

/-- Every identifier of the frame sequence names a stage (30_encoding.md R91). -/
theorem decodeStage_of_mem {id : BitVec 5} (h : id ∈ frameSequence) : ∃ i, decodeStage id = some i := by
  have hall : ∀ id ∈ frameSequence, (decodeStage id).isSome = true := by decide
  exact Option.isSome_iff_exists.1 (hall id h)

/-- Settles O53: the reset input acts, or the stage that the sequence names runs; no stage faults. -/
theorem blockNeverFaults : Obligations.BlockNeverFaults := by
  intro s hs hstage
  obtain ⟨id, hid⟩ := Option.ne_none_iff_exists'.1 hstage
  obtain ⟨hmem, -⟩ := ((sequenceOk_iff s).1 hs).1 id hid
  obtain ⟨i, hd⟩ := decodeStage_of_mem hmem
  obtain ⟨u, hu, -⟩ := exec_stage id i s hd
  cases hpin : s.resetPin with
  | true => exact ⟨_, step_of_resetPin hpin⟩
  | false => exact ⟨afterStage u, by rw [step_of_stage hpin hid, stepStage, hd]; simp only [hu, onNext]⟩

/-! ### The reset input and the power-on state (O9, O52) -/

/-- Settles O9: the reset input is read before the stage position and the port, and leaves the power-on state. -/
theorem resetInputAbandonsTheCommand : Obligations.ResetInputAbandonsTheCommand := fun s h =>
  ⟨s.powerOn, step_of_resetPin h, by rw [powerOn_spec]; exact ⟨rfl, rfl, rfl, rfl, rfl, rfl⟩⟩

/-- Settles O52: each invariant by what makes it hold at power-on: cleared memories and registers, READY 0, or no frame
in progress. -/
theorem powerOnMeetsTheInvariants : Obligations.PowerOnMeetsTheInvariants := by
  have memory : State.reset.memoryOk = true :=
    (memoryOk_iff _).2 ⟨ramsOk_of_cleared fun c => by cases c <;> rfl, ⟨Mem.wf_nil, by simp [State.reset]⟩, Mem.wf_nil⟩
  have cursors : State.reset.cursorsOk = true := cursorsOk_of_boundary rfl rfl
  have random : State.reset.randomOk = true := (randomOk_iff _).2 fun hr => absurd hr (by decide)
  have rate : State.reset.sampleRateOk = true := (sampleRateOk_iff _).2 fun hr => absurd hr (by decide)
  have envelope : State.reset.envelopeOk = true := (envelopeOk_iff _).2 ⟨InUnit.zero, fun hne => absurd rfl hne⟩
  exact ⟨memory, sequenceOk_of_boundary rfl, cursors, random, rate, jitterOk_of_cleared rfl, envelope, rfl, rfl, rfl⟩

end Sys2Proof.ResetStep

/-! PROOFS. Silence after a RESET (O40; 70_reset_and_hazards.md R283): a frame that finds every history at zero, with zero
input and amplitudes, stores zeros and leaves every history at zero. -/

namespace Sys2Proof.Silence

open Sys2Proof.Machine Sys2Proof.Block Sys2Proof.DelayLine Sys2Proof.DropoutStage Sys2Proof.ZeroBounds
open Sys2Proof.NoiseHumStage
open Sys2Proof.Saturation (frameStep_modu)
open Sys2Proof.Commands (dlyRead_cleared)

/-! ### The histories of a channel at rest -/

/-- Both delay registers of a filter section hold a zero. -/
def RestingSection (z : Section) : Prop := z.z0.isZero = true ∧ z.z1.isZero = true

/-- The four sections of the filter bank are at rest. -/
def RestingBank (z : Four Section) : Prop :=
  RestingSection z.k0 ∧ RestingSection z.k1 ∧ RestingSection z.k2 ∧ RestingSection z.k3

/-- Every word of the delay RAM is a zero; the canonical form is what makes the next store readable. -/
def RestingDelay (ch : ChannelState) : Prop := ch.dly.wf = true ∧ ∀ a, (dlyRead ch a).isZero = true

/-- Every history of a channel is at zero (70_reset_and_hazards.md R283). -/
structure RestingChannel (ch : ChannelState) : Prop where
  delay : RestingDelay ch
  bank : RestingBank ch.z
  xp : ch.xp.isZero = true
  yp : ch.yp.isZero = true

theorem restingSection_rest : RestingSection Section.rest := by unfold RestingSection; decide

theorem restingChannel_cleared : RestingChannel ChannelState.cleared where
  delay := ⟨Mem.wf_nil, fun a => by rw [dlyRead_cleared]; decide⟩
  bank := ⟨restingSection_rest, restingSection_rest, restingSection_rest, restingSection_rest⟩
  xp := by decide
  yp := by decide

/-! ### The stages of a channel at rest -/

/-- Interpolating between two zeros gives a zero, at any finite delay (43_delay_line.md R163). -/
theorem delayRead_isZero {ch : ChannelState} (h : RestingDelay ch) {d : F32} (hd : d.isFinite = true) :
    (delayRead ch d).isZero = true :=
  add_isZero (h.2 _) (mul_zero_isZero (wrap_inUnit hd).isFinite (sub_isZero (h.2 _) (h.2 _)))

theorem RestingDelay.push {ch : ChannelState} (h : RestingDelay ch) {x : F32} (hx : x.isZero = true) :
    RestingDelay (delayPush ch x) := by
  refine ⟨Mem.writeWord_wf _ _ _ h.1, fun a => ?_⟩
  by_cases ha : a = ch.w
  · rw [ha, dlyRead_delayPush_same h.1]
    exact hx
  · rw [dlyRead_delayPush_other ha]
    exact h.2 a

/-- A section at rest with finite coefficients answers a zero with a zero and stays at rest (44_filter_bank.md R183). -/
theorem sectionStep_resting {q : Coef} {z : Section} {x : F32} (hq : coefFinite q = true) (hz : RestingSection z)
    (hx : x.isZero = true) : (sectionStep q z x).1.isZero = true ∧ RestingSection (sectionStep q z x).2 := by
  simp only [coefFinite, Bool.and_eq_true] at hq
  obtain ⟨⟨⟨⟨hb0, hb1⟩, hb2⟩, ha1⟩, ha2⟩ := hq
  have hy : (sectionStep q z x).1.isZero = true := add_isZero (mul_zero_isZero hb0 hx) hz.1
  exact ⟨hy, add_isZero (sub_isZero (mul_zero_isZero hb1 hx) (mul_zero_isZero ha1 hy)) hz.2,
    sub_isZero (mul_zero_isZero hb2 hx) (mul_zero_isZero ha2 hy)⟩

theorem bankStep_resting {q : Four Coef} {z : Four Section} {x : F32} (hq : bankFinite q = true) (hz : RestingBank z)
    (hx : x.isZero = true) : (bankStep q z x).1.isZero = true ∧ RestingBank (bankStep q z x).2 := by
  simp only [bankFinite, Bool.and_eq_true] at hq
  obtain ⟨⟨⟨hq0, hq1⟩, hq2⟩, hq3⟩ := hq
  obtain ⟨hz0, hz1, hz2, hz3⟩ := hz
  obtain ⟨hy0, hr0⟩ := sectionStep_resting hq0 hz0 hx
  obtain ⟨hy1, hr1⟩ := sectionStep_resting hq1 hz1 hy0
  obtain ⟨hy2, hr2⟩ := sectionStep_resting hq2 hz2 hy1
  obtain ⟨hy3, hr3⟩ := sectionStep_resting hq3 hz3 hy2
  exact ⟨hy3, hr0, hr1, hr2, hr3⟩

/-- `tanh` keeps a zero and its sign (00_scope.md R11, `TANH0`). -/
theorem tanh_isZero {x : F32} (h : x.isZero = true) : (Config.library.tanh x).isZero = true := by
  obtain rfl | rfl := eq_zero_or_neg_zero h
  · rw [Config.library.tanh_zero.1]
    decide
  · rw [Config.library.tanh_zero.2]
    decide

/-- The divisor of the de-emphasis is no zero: it is at least 1 (45_saturator.md R201). -/
theorem deEmphasis_value :
    (F32.one.add Config.cfg.satK).isFinite = true ∧ (F32.one.add Config.cfg.satK).isZero = false := by
  have hk : Config.cfg.satK.isFinite = true ∧ 0 ≤ Config.cfg.satK.toInt ∧ Config.cfg.satK.toInt ≤ 2 ^ 149 := by decide
  have hlo : F32.one.le (F32.one.add Config.cfg.satK) = true :=
    F32.le_add _ _ _ one_value.1 hk.1 (by decide) (by omega)
  have hhi : (F32.one.add Config.cfg.satK).le F32.two = true :=
    F32.add_le _ _ _ one_value.1 hk.1 (by decide) (by rw [one_value.2, two_value.2]; omega)
  obtain ⟨-, -, hvalue⟩ := (F32.le_iff _ _).1 hlo
  rw [F32.key_le_iff, one_value.2] at hvalue
  obtain ⟨-, -, hzero⟩ := F32.toInt_pos (F32.one.add Config.cfg.satK) (by omega)
  exact ⟨F32.isFinite_of_le one_value.1 two_value.1 hlo hhi, hzero⟩

/-- The saturator at rest answers a zero with a zero (45_saturator.md R201). -/
theorem saturated_isZero {drive x xp yp : F32} (hd : drive.isFinite = true) (hx : x.isZero = true)
    (hxp : xp.isZero = true) (hyp : yp.isZero = true) : (saturated drive x xp yp).isZero = true := by
  have hk : Config.cfg.satK.isFinite = true := by decide
  have hpre : (preEmphasis x xp).isZero = true := add_isZero hx (mul_zero_isZero hk (sub_isZero hx hxp))
  have hsum := add_isZero (tanh_isZero (mul_zero_isZero hd hpre)) (mul_zero_isZero hk hyp)
  exact zero_div_isZero hsum deEmphasis_value.1 deEmphasis_value.2

/-- An envelope of 1 gives a gain of 1 at any finite depth (46_dropout.md R214). -/
theorem envelopeGain_one {depth : F32} (h : depth.isFinite = true) : envelopeGain depth F32.one = F32.one := by
  have hzero : (F32.one.sub F32.one).isZero = true := by decide
  exact one_sub_zero (mul_zero_isZero h hzero)

/-- Both branches of the mixer make a zero of a dry and a wet zero (48_mixer.md R241). -/
theorem blend_isZero {mix gain dry wet : F32} (hm : mix.isFinite = true) (hg : gain.isFinite = true)
    (hd : dry.isZero = true) (hw : wet.isZero = true) : (blend mix gain dry wet).isZero = true := by
  rw [blend]
  split
  · exact zero_mul_isZero hd hg
  · exact zero_mul_isZero (add_isZero (zero_mul_isZero hd (one_sub_isFinite hm)) (zero_mul_isZero hw hm)) hg

/-! ### A channel's part of a frame at rest -/

/-- What O40 asks of the registers that no frame writes: the rate is at least 1 Hz, the two amplitudes are zeros, the
dropout rate is not above zero, and the factors that a zero meets are finite. -/
structure SilentSetting (fs : F32) (a : Params) (g : Derived) : Prop where
  rate : fs.isFinite = true
  rate_ge : F32.one.le fs = true
  noise : g.noiseAmp.isZero = true
  hum : g.humAmp.isZero = true
  dropout : g.lambda.gt F32.zero = false
  bank : bankFinite g.coef = true
  drive : g.drive.isFinite = true
  gain : g.outGain.isFinite = true
  mix : a.mix.isFinite = true
  depth : a.dropDepth.isFinite = true

section
variable {fs : F32} {a : Params} {g : Derived} {ch : ChannelState} {dry : F32}

/-- What the delay line reads and the filter bank makes of it, whatever the modulation: the clamp makes the delay
finite (43_delay_line.md R162). -/
theorem tapeSample_resting (hs : SilentSetting fs a g) (h : RestingChannel ch) (m : F32) (c : Channel) :
    let r := bankStep g.coef ch.z (delayRead ch (delaySamples m (g.scale c) fs))
    r.1.isZero = true ∧ RestingBank r.2 := by
  obtain ⟨hlo, hhi⟩ := delaySamples_bounds m (g.scale c) fs
  exact bankStep_resting hs.bank h.bank (delayRead_isZero h.delay (floorInt_bounds hlo hhi).1)

theorem channelOut_isZero (hs : SilentSetting fs a g) (h : RestingChannel ch) (hd : dry.isZero = true) {hum : F32}
    (hh : hum.isZero = true) (m : F32) (c : Channel) (r : Word) :
    (channelOut a g fs dry m hum F32.one c ch r).isZero = true := by
  have htape := (tapeSample_resting hs h m c).1
  have hscaled := zero_mul_isZero (b := F32.one) (saturated_isZero hs.drive htape h.xp h.yp) one_value.1
  exact blend_isZero hs.mix hs.gain hd (add_isZero (add_isZero hscaled (noiseValue_isZero hs.noise _ _)) hh)

theorem channelNext_resting (hs : SilentSetting fs a g) (h : RestingChannel ch) (hd : dry.isZero = true) (m : F32)
    (c : Channel) : RestingChannel (channelNext g fs dry m c ch) := by
  obtain ⟨htape, hbank⟩ := tapeSample_resting hs h m c
  exact
    { delay := RestingDelay.push (ch := { ch with z := _, xp := _, yp := _ }) h.delay hd
      bank := hbank
      xp := htape
      yp := saturated_isZero hs.drive htape h.xp h.yp }

end

/-! ### The hum phases -/

/-- At 1 Hz or more a mains frequency of at most 60 Hz moves its phase by at most 60, which the wrap takes back into
[0, 1] (42_modulation.md R145). -/
theorem humPhaseNext_inUnit {mains fs phase : F32} (hm : mains.isFinite = true) (hm0 : 0 ≤ mains.toInt)
    (hm1 : mains.toInt ≤ 60 * 2 ^ 149) (hfs : fs.isFinite = true) (hge : F32.one.le fs = true) (h : InUnit phase) :
    InUnit (humPhaseNext mains fs phase) := by
  have hsixty : F32.sixty.isFinite = true ∧ F32.sixty.toInt = 60 * 2 ^ 149 := by decide
  have hthousand : F32.thousand.isFinite = true ∧ F32.thousand.toInt = 1000 * 2 ^ 149 := by decide
  obtain ⟨-, -, hrate⟩ := (F32.le_iff _ _).1 hge
  rw [F32.key_le_iff, one_value.2] at hrate
  have hlo : F32.zero.le (mains.div fs) = true :=
    F32.le_div _ _ _ hm hfs (by omega) (by decide) (by rw [zero_value.2]; omega)
  have hhi : (mains.div fs).le F32.sixty = true :=
    F32.div_le _ _ _ hm hfs (by omega) (by decide) (by rw [hsixty.2]; omega)
  have hstep : (mains.div fs).isFinite = true := F32.isFinite_of_le zero_value.1 hsixty.1 hlo hhi
  obtain ⟨-, -, hlo'⟩ := (F32.le_iff _ _).1 hlo
  obtain ⟨-, -, hhi'⟩ := (F32.le_iff _ _).1 hhi
  rw [F32.key_le_iff, zero_value.2] at hlo'
  rw [F32.key_le_iff, hsixty.2] at hhi'
  obtain ⟨hph0, hph1⟩ := h.toInt_bounds
  have hsum : Within F32.thousand (phase.add (mains.div fs)) :=
    within_add h.isFinite hstep hthousand.1 (by rw [hthousand.2, abs_le]; omega)
  exact wrap_inUnit (hsum.isFinite hthousand.1)

/-- Both hum phases lie in [0, 1]. -/
def HumPhasesOk (md : Modulation) : Prop := ∀ mains, InUnit (selectedPhase mains md)

theorem humPhasesOk_cleared : HumPhasesOk Modulation.cleared := fun mains => by
  cases mains <;> exact InUnit.zero

theorem humPhasesOk_frameModulation {s : State} (hs : SilentSetting s.fs s.active s.derived) (h : HumPhasesOk s.modu) :
    HumPhasesOk (frameModulation s).2
  | false => humPhaseNext_inUnit (mains := Config.cfg.fMains0) (by decide) (by decide) (by decide)
      hs.rate hs.rate_ge (h false)
  | true => humPhaseNext_inUnit (mains := Config.cfg.fMains1) (by decide) (by decide) (by decide)
      hs.rate hs.rate_ge (h true)

/-! ### A frame at rest -/

/-- Every word of IN that the host can supply is a zero. -/
def SilentInput (input : Mem) : Prop := ∀ (c : Channel) (n : Word), (memRead input c.index n).isZero = true

theorem dryInput_isZero {input : Mem} (h : SilentInput input) (n : Word) (channels : BitVec 8) (c : Channel) :
    (dryInput input n channels c).isZero = true := by
  rw [dryInput]
  split
  · exact h c n
  · decide

/-- The state at a frame of a silent block (70_reset_and_hazards.md R283). -/
structure Silent (s : State) : Prop where
  setting : SilentSetting s.fs s.active s.derived
  input : SilentInput s.inBuf
  channels : ∀ c, RestingChannel (s.channel c)
  phases : HumPhasesOk s.modu
  env : s.drop.env = F32.one

theorem Silent.frameSample_isZero {s : State} (h : Silent s) (n : Word) (channels : BitVec 8) (c : Channel) :
    (frameSample n channels s c).isZero = true := by
  rw [frameSample, h.env, envelopeGain_one h.setting.depth]
  exact channelOut_isZero h.setting (h.channels c) (dryInput_isZero h.input n channels c)
    (humValue_isZero h.setting.hum (humPhasesOk_frameModulation h.setting h.phases _)) _ _ _

theorem Silent.frameStep {s : State} (h : Silent s) (n : Word) (channels : BitVec 8) :
    Silent (frameStep n channels s) := by
  have keep := frames_frame 1 n channels s
  refine ⟨?_, ?_, fun c => ?_, ?_, ?_⟩
  · have setting := h.setting
    rwa [← keep.fs, ← keep.active, ← keep.derived] at setting
  · rw [Memory.frameStep_inBuf]
    exact h.input
  · rw [channel_frameStep]
    exact channelNext_resting h.setting (h.channels c) (dryInput_isZero h.input n channels c) _ c
  · rw [frameStep_modu]
    exact humPhasesOk_frameModulation h.setting h.phases
  · rw [frameStep_drop_of_disabled h.setting.dropout, h.env, relax_one]

theorem Silent.frames {s : State} (h : Silent s) (k : Nat) (n : Word) (channels : BitVec 8) :
    Silent (frames k n channels s) := by
  induction k generalizing n s with
  | zero => exact h
  | succ k ih => exact ih (h.frameStep n channels) (n + 1)

/-! ### The words of a block (O40) -/

/-- A word of OUT after a block of at most 2^32 frames is the sample of its own frame: no later frame has its index. -/
theorem memRead_frames_sample {s : State} {channels : BitVec 8} {c : Channel} (hwf : s.outBuf.wf = true)
    (hc : c.index < channels.toNat) {k : Nat} (hk : k ≤ 2 ^ 32) {n : Word} (hn : n.toNat < k) :
    memRead (frames k 0 channels s).outBuf c.index n =
      frameSample n channels (frames n.toNat 0 channels s) c := by
  obtain ⟨later, rfl⟩ := Nat.exists_eq_add_of_le (Nat.succ_le_of_lt hn)
  have hindex : (0 : Word) + BitVec.ofNat 32 n.toNat = n := by simp
  have hlater : ∀ i < later, n ≠ 0 + BitVec.ofNat 32 n.toNat.succ + BitVec.ofNat 32 i := fun i hi he => by
    rw [zero_add] at he
    have := congrArg BitVec.toNat he
    simp only [BitVec.toNat_add, BitVec.toNat_ofNat] at this
    omega
  rw [frames_add, memRead_frames_other hlater, Nat.succ_eq_add_one, frames_succ_end, hindex,
    memRead_frameStep_same (frames_outBuf_wf hwf _ _ _) hc]

/-- Settles O40: the state stays silent from frame to frame, and each word of OUT is the sample of a silent frame. -/
theorem silenceAfterReset : Obligations.SilenceAfterReset := by
  intro s channels k hleft hright hmodu henv hwf hfs hge hin hnoise hhum hlambda hcoef hdrive hgain hmix hdepth hk c n hc
    hn
  rw [literal_one] at henv hge
  have hcleared : ∀ c, s.channel c = ChannelState.cleared
    | .left => hleft
    | .right => hright
  have silent : Silent s :=
    { setting := ⟨hfs, hge, hnoise, hhum, hlambda, hcoef, hdrive, hgain, hmix, hdepth⟩
      input := hin
      channels := fun c => hcleared c ▸ restingChannel_cleared
      phases := hmodu ▸ humPhasesOk_cleared
      env := henv }
  rw [memRead_frames_sample hwf hc hk hn]
  exact (silent.frames _ _ _).frameSample_isZero n channels c

end Sys2Proof.Silence
